-- ==== Sys2Proof/Word.lean ====
section
/-! DEFINITION. The three widths the CORE computes with (00_scope.md rules R5, R6, R7): a byte, a
32-bit register word, a 64-bit lane.  All values are unsigned (R7). -/

namespace Sys2Proof

/-- One byte of a memory, a byte view or a domain byte (R8). -/
abbrev Byte := BitVec 8

/-- One host-visible register, `REG_BITS` = 32 bits (R6). -/
abbrev Word := BitVec 32

/-- One lane of the lane file, `LANE_BITS` = 64 bits (R5). -/
abbrev Lane := BitVec 64

end Sys2Proof
end

