-- ==== Sys2Proof/Config.lean ====
section
/-! DEFINITION. What the spec leaves open, as free values: constants with no body, so that nothing
can be proved of them and a claim that mentions one holds whatever it is.  The spec has no
implementation parameter (92_eei_decisions.md, opening paragraph; 93_implementation_defined.md, end
of Part 1), so the free draws of R30, R241 and R248 are all there is.  Each is applied to the state's
counter of draws, which the step that uses it advances, so two draws are independent. -/

namespace Sys2Proof

/-- The value a `RegRead` of a register other than `STATUS` returns while BUSY: "an unspecified
32-bit value, which a model takes as a free draw, independent at each read" (10_state.md R30;
U2). -/
opaque Config.busyRead : Nat → Word

/-- The unspecified choice of R248 (second point; U5) for a host read of a byte of `OUT` that the running
command had still to write: whether the read, numbered by the second argument, gave the value the command
writes and not the old one (notes/assumptions/6.md). -/
opaque Config.readTakesWritten : Nat → Nat → Bool

/-- The value a host read of a byte of `OUT` returns after a reset has abandoned the command that was to
write it: "the host must treat all of `OUT[0..OUTLEN-1]` as unspecified after such a reset"
(70_reset_and_hazards.md R241; U1, "`any value`").  A fresh draw at each read
(notes/assumptions/9.md). -/
opaque Config.abandonedOutByte : Nat → Byte

/-- The unspecified choice of R248 (U4, U5) for the byte at the second argument: whether the value that
is not the one last stored is the one that shows. -/
opaque Config.raceTakesOther : Nat → Nat → Bool

end Sys2Proof
end

