-- ==== Sys2Proof/Syntax.lean ====
section
/-! DEFINITION. The seven commands of 30_encoding.md rule R92, one constructor per row of
spec/opcode_table.json.  "The command word carries no operand: every operand is in an operand
register written beforehand" (R90, R93), so no constructor has an argument. -/

namespace Sys2Proof

/-- A command (R92).  Each is issued by one host write of its command word to `CMD` (R1, R91). -/
inductive Instr where
  /-- `PERMUTE`, opcode 0x01 (R118). -/
  | permute
  /-- `SPONGE`, opcode 0x02 (R139). -/
  | sponge
  /-- `DIGEST256`, opcode 0x03 (R140). -/
  | digest256
  /-- `DIGEST512`, opcode 0x04 (R141). -/
  | digest512
  /-- `MIX`, opcode 0x05 (R163). -/
  | mix
  /-- `FOLD`, opcode 0x06 (R164). -/
  | fold
  /-- `HASH`, opcode 0x07 (R183). -/
  | hash
  deriving DecidableEq, Repr

end Sys2Proof
end

