-- ==== Sys2Proof/WellFormed.lean ====
section
/-! DEFINITION. The static checks the spec puts on what a host may write down: a command word
(30_encoding.md rules R90, R92, R95) and a register access (20_memory.md rule R64).  A command
itself has no operand, so every term of `Instr` is well formed. -/

namespace Sys2Proof

/-- Every command is well formed: it has no operand field that could hold an illegal value (R90). -/
def Instr.wellFormed : Instr → Bool
  | .permute => true
  | .sponge => true
  | .digest256 => true
  | .digest512 => true
  | .mix => true
  | .fold => true
  | .hash => true

/-- The two fields of the command word (R90): `OPCODE` in bits 7:0 and `ZERO` in bits 31:8. -/
structure CommandWord where
  opcode : BitVec 8
  zero : BitVec 24
  deriving DecidableEq, Repr

/-- The fields of a 32-bit word (R90). -/
def CommandWord.ofWord (w : Word) : CommandWord :=
  { opcode := w.extractLsb' 0 8, zero := w.extractLsb' 8 24 }

/-- "31:8 | `ZERO` | must be 0" (R90). -/
def CommandWord.zeroClear (c : CommandWord) : Bool := c.zero == 0

/-- The opcode is one of the seven, 0x01 to 0x07 (R92, R95). -/
def CommandWord.opcodeAssigned (c : CommandWord) : Bool := 1 ≤ c.opcode.toNat && c.opcode.toNat ≤ 7

/-- The word is one of the seven commands (R95: every other is illegal). -/
def CommandWord.wellFormed (c : CommandWord) : Bool := c.zeroClear && c.opcodeAssigned

/-- The widths of a register access that R64 speaks of. -/
inductive AccessWidth where
  | w8
  | w16
  | w32
  | w64
  deriving DecidableEq, Repr

/-- A register access: a width and a byte offset in the register space (R30, R64). -/
structure RegAccess where
  width : AccessWidth
  offset : Nat
  deriving DecidableEq, Repr

/-- "only 32-bit accesses" (R64). -/
def RegAccess.wide (a : RegAccess) : Bool := a.width == .w32

/-- "at offsets that are multiples of 4" (R64). -/
def RegAccess.aligned (a : RegAccess) : Bool := a.offset % 4 == 0

/-- "in the range `0x000 .. 0x1FC`" (R30). -/
def RegAccess.inRange (a : RegAccess) : Bool := a.offset ≤ 0x1FC

/-- The access is a move of the model (R64). -/
def RegAccess.wellFormed (a : RegAccess) : Bool := a.wide && a.aligned && a.inRange

end Sys2Proof
end

