-- ==== Sys2Proof/Decode.lean ====
section
/-! DEFINITION. The decoder of rule R91 and the encoder of rule R92 (30_encoding.md).  The decoder is
total: "every 32-bit `w` is either one of the seven commands or `E_ILLEGAL_CMD`" (R91); a word it
rejects is named by what is wrong with it.  As bytes a command word is four bytes, least significant
first (R62). -/

namespace Sys2Proof

/-- Why a word or a byte string is no command. -/
inductive DecodeReject where
  /-- Fewer than four bytes: "Every command is exactly one command word" (R90). -/
  | truncated
  /-- A nonzero bit in 31:8 (R91, R95). -/
  | zeroFieldNonzero
  /-- `OPCODE` is 0x00 or 0x08..0xFF (R95). -/
  | opcodeUnassigned
  deriving DecidableEq, Repr

/-- R91: first the `ZERO` field, then the opcode. -/
def decodeWord (w : Word) : Except DecodeReject Instr :=
  if w.extractLsb' 8 24 ≠ 0 then .error .zeroFieldNonzero
  else
    match (w.extractLsb' 0 8).toNat with
    | 0x01 => .ok .permute
    | 0x02 => .ok .sponge
    | 0x03 => .ok .digest256
    | 0x04 => .ok .digest512
    | 0x05 => .ok .mix
    | 0x06 => .ok .fold
    | 0x07 => .ok .hash
    | _ => .error .opcodeUnassigned

/-- The 32-bit word of four bytes, least significant first (R62, R8 `LE32`). -/
def wordOfBytes (b0 b1 b2 b3 : Byte) : Word := b3 ++ b2 ++ b1 ++ b0

/-- Decode the command word at the head of a byte string; the rest of the string is returned. -/
def decode : List Byte → Except DecodeReject (Instr × List Byte)
  | b0 :: b1 :: b2 :: b3 :: rest =>
    match decodeWord (wordOfBytes b0 b1 b2 b3) with
    | .ok i => .ok (i, rest)
    | .error e => .error e
  | _ => .error .truncated

/-- The `OPCODE` field of a command (R92). -/
def opcodeOf : Instr → BitVec 8
  | .permute => 0x01
  | .sponge => 0x02
  | .digest256 => 0x03
  | .digest512 => 0x04
  | .mix => 0x05
  | .fold => 0x06
  | .hash => 0x07

/-- The command word of a command: `ZERO` and `OPCODE` (R90, R92). -/
def encode (i : Instr) : Word := (0 : BitVec 24) ++ opcodeOf i

/-- Byte `k` of a word, least significant first (R7, R8 `bytes32`). -/
def byteOfWord (w : Word) (k : Nat) : Byte := w.extractLsb' (8 * k) 8

/-- The command word as four bytes, least significant first (R62). -/
def encodeBytes (i : Instr) : List Byte :=
  [byteOfWord (encode i) 0, byteOfWord (encode i) 1, byteOfWord (encode i) 2,
    byteOfWord (encode i) 3]

/-- The four bytes of the command word whose bits, numbered as the opcode table numbers them, are the
low `nbits` bits of `w`. -/
def tableBytes (nbits w : Nat) : List Byte :=
  let v : Word := BitVec.ofNat 32 (w % 2 ^ nbits)
  [byteOfWord v 0, byteOfWord v 1, byteOfWord v 2, byteOfWord v 3]

/-- What the decoder reads from the opcode table's word. -/
def decodeTableWord (nbits w : Nat) : Option Instr :=
  match decode (tableBytes nbits w) with
  | .ok (i, _) => some i
  | .error _ => none

end Sys2Proof
end

