-- ==== Sys2Proof/Machine/State.lean ====
section
/-! DEFINITION. The state of the machine, as plain data: the tuple of 10_state.md rule R20 (`CoreRegs`),
the three memories of 20_memory.md rule R61, and the host agent of rule R60 (the moves it has still to
make, and what it has read).  Reset values are those of rules R41 and R240. -/

namespace Sys2Proof.Machine

/-! ## Enumerated registers -/

/-- `SC_PHASE`, the next action of the Sponge Controller (R24). -/
inductive ScPhase where
  | idle
  | absorb
  | pad
  | squeeze
  | clear
  deriving DecidableEq, Repr

/-- `HO_PHASE`, the next action of the Hash Orchestrator (R24); `finish` is `HO_END`. -/
inductive HoPhase where
  | idle
  | tile
  | access
  | fold
  | final
  | finish
  deriving DecidableEq, Repr

/-- `SRC`, where the input bytes of a sponge pass come from: `SRC_IN`, `SRC_SEED40`,
`SRC_SEEDMIX96` (R25, R137). -/
inductive Source where
  | inp
  | seed40
  | seedMix96
  deriving DecidableEq, Repr

/-- `DST`, where the output bytes of a sponge pass go: `DST_OUT`, `DST_SEED`, `DST_RESULT` (R25,
R203). -/
inductive Dest where
  | out
  | seed
  | result
  deriving DecidableEq, Repr

/-- The three memory spaces (R61): `IN`, `OUT`, `DSET`. -/
inductive MemSpace where
  | inp
  | out
  | dset
  deriving DecidableEq, Repr

/-- The error causes of 60_exceptions.md rule R211, in the order of their codes. -/
inductive ErrorKind where
  | illegalCmd
  | rate
  | noOut
  | noIn
  | outLen
  | fullSize
  | pages
  | dataset
  deriving DecidableEq, Repr

/-- The registers of the map of 10_state.md rule R31, by name. -/
inductive Reg where
  | cmd
  | status
  | bufCfg
  | rate
  | domain
  | inLen
  | outLen
  | opa
  | opb
  | acc
  | nonceLo
  | nonceHi
  | fullSizeLo
  | fullSizeHi
  | dsLenLo
  | dsLenHi
  | hdr (k : Fin 8)
  | result (k : Fin 8)
  | mixHash (k : Fin 8)
  | sLo (i : Fin 25)
  | sHi (i : Fin 25)
  /-- A reserved offset, `0x0A0..0x0FC` or `0x1C8..0x1FC` (R37). -/
  | reserved
  deriving DecidableEq, Repr

/-! ## The tuple of rule R20 -/

/-- "The complete state of one Ethash CORE" (R20), one field per element, in the order of R20's table.
Host-visible or not, each is an ordinary register (R39: no hidden state). -/
structure CoreRegs where
  /-- `S[0..24]`, the lane file (R21). -/
  lanes : Vector Lane 25
  /-- `SEED[0..15]`, the seed buffer (R22). -/
  seed : Vector Word 16
  /-- `MIX[0..31]`, the mix buffer (R22). -/
  mix : Vector Word 32
  /-- `OPA` (R23). -/
  opa : Word
  /-- `OPB` (R23). -/
  opb : Word
  /-- `ACC`, the fold accumulator (R23). -/
  acc : Word
  /-- `PE_RUN` (R24). -/
  peRun : Bool
  /-- `RND`, 0..23 (R24). -/
  rnd : Fin 24
  /-- `SC_PHASE` (R24). -/
  scPhase : ScPhase
  /-- `HO_PHASE` (R24). -/
  hoPhase : HoPhase
  /-- `I`, 0..63 (R24). -/
  i : Fin 64
  /-- `K`, 0..7 (R24). -/
  k : Fin 8
  /-- `R_RATE`, 8 bits (R25). -/
  rRate : BitVec 8
  /-- `R_DOM`, 8 bits (R25). -/
  rDom : Byte
  /-- `SRC` (R25). -/
  src : Source
  /-- `INPOS` (R25). -/
  inPos : Word
  /-- `REM` (R25). -/
  rem : Word
  /-- `DST` (R25). -/
  dst : Dest
  /-- `OUTPOS` (R25). -/
  outPos : Word
  /-- `OREM` (R25). -/
  orem : Word
  /-- `PAGES` (R25). -/
  pages : Word
  /-- `RESULT0..7` (R28). -/
  result : Vector Word 8
  /-- `MIXHASH0..7` (R28). -/
  mixHash : Vector Word 8
  /-- `HDR0..7` (R29). -/
  hdr : Vector Word 8
  /-- `NONCE_LO` (R29). -/
  nonceLo : Word
  /-- `NONCE_HI` (R29). -/
  nonceHi : Word
  /-- `FULLSIZE_LO` (R29). -/
  fullSizeLo : Word
  /-- `FULLSIZE_HI` (R29). -/
  fullSizeHi : Word
  /-- `DSLEN_LO` (R29). -/
  dsLenLo : Word
  /-- `DSLEN_HI` (R29). -/
  dsLenHi : Word
  /-- `RATE` (R29). -/
  rate : Word
  /-- `DOMAIN[7:0]`, the implemented bits (R29, R31). -/
  domain : Byte
  /-- `INLEN` (R29). -/
  inLen : Word
  /-- `OUTLEN` (R29). -/
  outLen : Word
  /-- `BUFCFG[1:0]`, the implemented bits: `OUT_PRESENT`, `IN_PRESENT` (R34). -/
  bufCfg : BitVec 2
  /-- `DONE` (R32). -/
  done : Bool
  /-- `ERR` (R32). -/
  err : Bool
  /-- `ERRCODE` (R32). -/
  errCode : BitVec 8
  deriving DecidableEq, Repr

/-- The reset values of R41, which R240 gives the CORE while reset is asserted and when it is
released. -/
def CoreRegs.reset : CoreRegs :=
  { lanes := Vector.replicate 25 0
    seed := Vector.replicate 16 0
    mix := Vector.replicate 32 0
    opa := 0
    opb := 0
    acc := 0
    peRun := false
    rnd := 0
    scPhase := .idle
    hoPhase := .idle
    i := 0
    k := 0
    rRate := 0
    rDom := 0
    src := .inp
    inPos := 0
    rem := 0
    dst := .out
    outPos := 0
    orem := 0
    pages := 0
    result := Vector.replicate 8 0
    mixHash := Vector.replicate 8 0
    hdr := Vector.replicate 8 0
    nonceLo := 0
    nonceHi := 0
    fullSizeLo := 0
    fullSizeHi := 0
    dsLenLo := 0
    dsLenHi := 0
    rate := 0
    domain := 0
    inLen := 0
    outLen := 0
    bufCfg := 0
    done := false
    err := false
    errCode := 0 }

/-! ## Memories -/

/-- One memory space (R61).  `cells` lists the bytes that differ from what an unlisted address reads
as, at strictly rising addresses.  `raced` is the bookkeeping of R248 for the command that is running:
for an address of `IN` or `DSET` the host has written since the `CMD` write, the byte as it stood
then; for an address of `OUT`, the byte the host wrote.  `size` is the real extent of the memory the
platform has put there (R244 duties H5 to H7): `none` is the whole address space, which is R74's
first sentence; an address at or beyond `some n` is one whose access fails. -/
structure Space where
  cells : List Host.Cell
  raced : List Host.Cell
  size : Option Nat
  deriving DecidableEq, Repr

/-- A memory with nothing listed, over its whole address space. -/
def Space.empty : Space := { cells := [], raced := [], size := none }

/-! ## The host agent -/

/-- One move of the schedule: what happens next at the boundary of R60's two agents.  Register and
memory accesses are the host's (R30, R61); `tick` gives the sequencer one step; `wait` is the
pseudo-instruction `WAIT` (R98); `reset` is R240's move; `provide` is the host putting a memory of the
given extent at a space (R242 "provide"). -/
inductive HostMove where
  | tick
  | wait
  | reset
  | regRead (a : RegAccess)
  | regWrite (a : RegAccess) (v : Word)
  | memRead (space : MemSpace) (addr : Nat)
  | memWrite (space : MemSpace) (addr : Nat) (b : Byte)
  | provide (space : MemSpace) (size : Option Nat)
  deriving DecidableEq, Repr

/-! ## The whole state -/

/-- The machine: one CORE, its three memories, and the host.  `host` is the schedule of moves still to
come, in order; when it is empty the sequencer runs on its own.  `reads` holds the values the host has
been given, newest first (a byte zero-extended).  `draws` counts the free draws of R30, R241 and R248.
`doubt` holds, as intervals `[lo, hi)`, the addresses of `OUT` whose content "the host must treat ... as
unspecified" since a reset abandoned the command that was writing them (R241, U1).  `shadow` and `owed`
are the bookkeeping of R248's second point for the command that runs: `shadow` lists, for each byte of
`OUT` it has written, the other value a host read of it may return; `owed` lists the host's reads of bytes
it had still to write, each as the number of the read (the oldest is 0) and the address: such a read stands
in `reads` as the old byte until the command's write settles it. -/
structure State where
  core : CoreRegs
  inMem : Space
  outMem : Space
  dset : Space
  host : List HostMove
  reads : List Word
  draws : Nat
  doubt : List (Nat × Nat)
  shadow : List Host.Cell
  owed : List (Nat × Nat)
  deriving DecidableEq, Repr

/-- The machine right after reset (R41, R240), with nothing in its memories and no move of the host
scheduled. -/
def State.reset : State :=
  { core := CoreRegs.reset
    inMem := Space.empty
    outMem := Space.empty
    dset := Space.empty
    host := []
    reads := []
    draws := 0
    doubt := []
    shadow := []
    owed := [] }

/-! ## How a step can stop -/

/-- Why the machine stops. -/
inductive Fault where
  /-- Raised by a sequencer step, or by a host access to a memory, that reaches an address at which the
  platform has put no memory: "a failing access is *stuck*: the step is not enabled, the command never
  ends" (R74, R244 H5 to H7; U6, U18).  Safe: the spec's own treatment. -/
  | memoryStuck (space : MemSpace)
  /-- Raised by a host access to an address outside a space's address width (R61): the address does not
  exist.  Safe. -/
  | noSuchAddress (space : MemSpace) (addr : Nat)
  deriving DecidableEq, Repr

/-- Why a move has no meaning. -/
inductive Refusal where
  /-- Raised by an arm of `exec` whose instruction has no meaning yet; no arm uses it.  Safe. -/
  | notModelled (mnemonic : String)
  /-- Raised by a register access that is not an aligned 32-bit access at `0x000..0x1FC`: "has no
  meaning in this spec; a model refuses it (no step)" (R64; U7).  Safe. -/
  | oddRegisterAccess
  deriving DecidableEq, Repr

end Sys2Proof.Machine
end

