-- ==== Sys2Proof/Machine/Flags.lean ====
section
/-! DEFINITION. The CORE's only flags (10_state.md rules R26 and R32), the error codes of
60_exceptions.md rule R211, and the two output wires of rule R219. -/

namespace Sys2Proof.Machine

/-- "`BUSY` is not a stored bit; it is the function" of R26. -/
def CoreRegs.busy (c : CoreRegs) : Bool :=
  c.peRun || c.scPhase != .idle || c.hoPhase != .idle

/-- The word a read of `STATUS` returns (R32): `ERRCODE` in 15:8, `ERR` in 2, `DONE` in 1, `BUSY` in 0,
every other bit 0. -/
def CoreRegs.status (c : CoreRegs) : Word :=
  (0 : BitVec 16) ++ c.errCode ++ (0 : BitVec 5) ++ BitVec.ofBool c.err ++ BitVec.ofBool c.done ++
    BitVec.ofBool c.busy

/-- The codes of R211. -/
def ErrorKind.code : ErrorKind → BitVec 8
  | .illegalCmd => 0x01
  | .rate => 0x02
  | .noOut => 0x03
  | .noIn => 0x04
  | .outLen => 0x05
  | .fullSize => 0x06
  | .pages => 0x07
  | .dataset => 0x08

/-- The wire `done_o` (R219). -/
def State.doneWire (s : State) : Bool := s.core.done

/-- The wire `err_o` (R219). -/
def State.errWire (s : State) : Bool := s.core.err

end Sys2Proof.Machine
end

