-- ==== Sys2Proof/Machine/Operands.lean ====
section
/-! DEFINITION. Operand assembly and the byte views: 00_scope.md rule R8, 20_memory.md rules R62 and
R63, 30_encoding.md rule R94, 44_serializer.md rules R201 and R202, and the register map of 10_state.md
rule R31 with its read and write rules R30, R33 to R37. -/

namespace Sys2Proof.Machine

/-! ## Byte views -/

/-- Byte `k` of a lane, least significant first (R7). -/
def byteOfLane (v : Lane) (k : Nat) : Byte := v.extractLsb' (8 * k) 8

/-- A word with byte `j` (of 0..3) replaced: "A byte write to a word register changes only that byte of
the word" (R203). -/
def wordWithByte (w : Word) (j : Nat) (b : Byte) : Word :=
  (w &&& ~~~((0xFF : Word) <<< (8 * j))) ||| (b.setWidth 32 <<< (8 * j))

/-- `SB[k] = S[k div 8][8*(k mod 8)+7 : 8*(k mod 8)]` (R8, R201), `k` in 0..199; no rule asks for a
larger `k`. -/
def laneByte (v : Vector Lane 25) (k : Nat) : Byte :=
  if h : k / 8 < 25 then byteOfLane v[k / 8] (k % 8) else 0

/-- `SB[0], ..., SB[n-1]`: what a squeeze of `n` bytes copies out (R201). -/
def laneBytes (v : Vector Lane 25) (n : Nat) : List Byte := (List.range n).map (laneByte v)

/-- `SB[k] <- SB[k] xor b` (R133, R134), `k` in 0..199; no rule asks for a larger `k`. -/
def xorLaneByte (v : Vector Lane 25) (k : Nat) (b : Byte) : Vector Lane 25 :=
  if h : k / 8 < 25 then v.set (k / 8) (v[k / 8] ^^^ (b.setWidth 64 <<< (8 * (k % 8)))) else v

/-- `SB[k+j] <- SB[k+j] xor bs[j]` for each byte of `bs` (R133, R134). -/
def xorLaneBytes (v : Vector Lane 25) (k : Nat) : List Byte → Vector Lane 25
  | [] => v
  | b :: bs => xorLaneBytes (xorLaneByte v k b) (k + 1) bs

/-- Byte `k` of a buffer of words: `W[k div 4][8*(k mod 4)+7 : 8*(k mod 4)]` (R202).  This is `SEEDB`,
`MIXB`, `HDRB`, `RESULTB`, `MIXHASHB` (R8); no rule asks for a byte beyond the buffer. -/
def wordByte {n : Nat} (v : Vector Word n) (k : Nat) : Byte :=
  if h : k / 4 < n then byteOfWord v[k / 4] (k % 4) else 0

/-- The `m` bytes of a buffer of words from byte `k` on. -/
def wordBytes {n : Nat} (v : Vector Word n) (k m : Nat) : List Byte :=
  (List.range m).map fun j => wordByte v (k + j)

/-- Byte `k` of a buffer of words replaced (R203); no rule asks for a byte beyond the buffer. -/
def setWordByte {n : Nat} (v : Vector Word n) (k : Nat) (b : Byte) : Vector Word n :=
  if h : k / 4 < n then v.set (k / 4) (wordWithByte v[k / 4] (k % 4) b) else v

/-- `LE32(b[k .. k+3])` (R8). -/
def le32 (bs : List Byte) (k : Nat) : Word :=
  wordOfBytes (bs.getD k 0) (bs.getD (k + 1) 0) (bs.getD (k + 2) 0) (bs.getD (k + 3) 0)

/-- `bytes32(v)` (R8). -/
def bytes32 (v : Word) : List Byte :=
  [byteOfWord v 0, byteOfWord v 1, byteOfWord v 2, byteOfWord v 3]

/-- `bytes64(v)` (R8). -/
def bytes64 (v : Lane) : List Byte := (List.range 8).map (byteOfLane v)

/-! ## Wide operands (R94) -/

/-- `NONCE = NONCE_HI * 2^32 + NONCE_LO`. -/
def CoreRegs.nonce (c : CoreRegs) : BitVec 64 := c.nonceHi ++ c.nonceLo

/-- `FULLSIZE = FULLSIZE_HI * 2^32 + FULLSIZE_LO`. -/
def CoreRegs.fullSize (c : CoreRegs) : BitVec 64 := c.fullSizeHi ++ c.fullSizeLo

/-- `DSLEN = DSLEN_HI * 2^32 + DSLEN_LO`. -/
def CoreRegs.dsLen (c : CoreRegs) : BitVec 64 := c.dsLenHi ++ c.dsLenLo

/-- `BUFCFG.IN_PRESENT`, bit 0 (R34). -/
def CoreRegs.inPresent (c : CoreRegs) : Bool := c.bufCfg.getLsbD 0

/-- `BUFCFG.OUT_PRESENT`, bit 1 (R34). -/
def CoreRegs.outPresent (c : CoreRegs) : Bool := c.bufCfg.getLsbD 1

/-! ## The register map (R31) -/

/-- The register at word `q` of the map, `q` in 0..127: offset `4 * q` (R31). -/
def Reg.ofIndex (q : Nat) : Reg :=
  match q with
  | 0 => .cmd
  | 1 => .status
  | 2 => .bufCfg
  | 3 => .rate
  | 4 => .domain
  | 5 => .inLen
  | 6 => .outLen
  | 7 => .opa
  | 8 => .opb
  | 9 => .acc
  | 10 => .nonceLo
  | 11 => .nonceHi
  | 12 => .fullSizeLo
  | 13 => .fullSizeHi
  | 14 => .dsLenLo
  | 15 => .dsLenHi
  | _ =>
    if q < 24 then .hdr (Fin.ofNat 8 (q - 16))
    else if q < 32 then .result (Fin.ofNat 8 (q - 24))
    else if q < 40 then .mixHash (Fin.ofNat 8 (q - 32))
    else if q < 64 then .reserved
    else if q < 114 then
      if q % 2 = 0 then .sLo (Fin.ofNat 25 ((q - 64) / 2)) else .sHi (Fin.ofNat 25 ((q - 64) / 2))
    else .reserved

/-- The register an access names; `none` for an access that is no move of the model (R30, R64). -/
def Reg.ofAccess (a : RegAccess) : Option Reg :=
  if a.width = .w32 ∧ a.offset % 4 = 0 ∧ a.offset ≤ 0x1FC then some (Reg.ofIndex (a.offset / 4)) else none

/-- The offset of a named register (R31); of a reserved one, the first reserved offset. -/
def Reg.offset : Reg → Nat
  | .cmd => 0x000
  | .status => 0x004
  | .bufCfg => 0x008
  | .rate => 0x00C
  | .domain => 0x010
  | .inLen => 0x014
  | .outLen => 0x018
  | .opa => 0x01C
  | .opb => 0x020
  | .acc => 0x024
  | .nonceLo => 0x028
  | .nonceHi => 0x02C
  | .fullSizeLo => 0x030
  | .fullSizeHi => 0x034
  | .dsLenLo => 0x038
  | .dsLenHi => 0x03C
  | .hdr k => 0x040 + 4 * k.val
  | .result k => 0x060 + 4 * k.val
  | .mixHash k => 0x080 + 4 * k.val
  | .sLo i => 0x100 + 8 * i.val
  | .sHi i => 0x104 + 8 * i.val
  | .reserved => 0x0A0

/-- The 32-bit access to a named register. -/
def Reg.access (r : Reg) : RegAccess := { width := .w32, offset := r.offset }

/-- What a `RegRead` returns when not BUSY (R30, R31): `CMD` and reserved offsets read 0 (R33, R37),
unimplemented bits read 0 (R35), a lane half is that half of the lane (R36). -/
def CoreRegs.readReg (c : CoreRegs) : Reg → Word
  | .cmd => 0
  | .status => c.status
  | .bufCfg => c.bufCfg.setWidth 32
  | .rate => c.rate
  | .domain => c.domain.setWidth 32
  | .inLen => c.inLen
  | .outLen => c.outLen
  | .opa => c.opa
  | .opb => c.opb
  | .acc => c.acc
  | .nonceLo => c.nonceLo
  | .nonceHi => c.nonceHi
  | .fullSizeLo => c.fullSizeLo
  | .fullSizeHi => c.fullSizeHi
  | .dsLenLo => c.dsLenLo
  | .dsLenHi => c.dsLenHi
  | .hdr k => c.hdr[k]
  | .result k => c.result[k]
  | .mixHash k => c.mixHash[k]
  | .sLo i => c.lanes[i].extractLsb' 0 32
  | .sHi i => c.lanes[i].extractLsb' 32 32
  | .reserved => 0

/-- What a `RegWrite` of a register other than `CMD` does when not BUSY (R30): a read/write register
takes the value in its implemented bits (R35), one half of a lane leaves the other (R36), a read-only
register or a reserved offset ignores it (R37).  A write of `CMD` stores nothing (R33); that it accepts
a command is in Machine/HostPort.lean. -/
def CoreRegs.writeReg (c : CoreRegs) (r : Reg) (v : Word) : CoreRegs :=
  match r with
  | .cmd => c
  | .status => c
  | .bufCfg => { c with bufCfg := v.setWidth 2 }
  | .rate => { c with rate := v }
  | .domain => { c with domain := v.setWidth 8 }
  | .inLen => { c with inLen := v }
  | .outLen => { c with outLen := v }
  | .opa => { c with opa := v }
  | .opb => { c with opb := v }
  | .acc => { c with acc := v }
  | .nonceLo => { c with nonceLo := v }
  | .nonceHi => { c with nonceHi := v }
  | .fullSizeLo => { c with fullSizeLo := v }
  | .fullSizeHi => { c with fullSizeHi := v }
  | .dsLenLo => { c with dsLenLo := v }
  | .dsLenHi => { c with dsLenHi := v }
  | .hdr k => { c with hdr := c.hdr.set k v }
  | .result _ => c
  | .mixHash _ => c
  | .sLo i => { c with lanes := c.lanes.set i (c.lanes[i].extractLsb' 32 32 ++ v) }
  | .sHi i => { c with lanes := c.lanes.set i (v ++ c.lanes[i].extractLsb' 0 32) }
  | .reserved => c

end Sys2Proof.Machine
end

