-- ==== Sys2Proof/Machine/Ops.lean ====
section
/-! DEFINITION. The shared operations: the three memories (20_memory.md), the acceptance of a command
(30_encoding.md rule R91), the error termination `raise` (60_exceptions.md rule R214), which is this
hardware's only exception, and the end of a command.  There is no return from an exception: "nothing
to restore"; the status stays until the next acceptance clears it (R217), which is `clearStatus`. -/

namespace Sys2Proof.Machine

/-! ## A memory as a list of cells -/

/-- What an address that is not listed reads as.  The spec gives the memories no reset contents (R41,
R240: "the host's matter"); notes/assumptions/1.md. -/
def Memory.unlisted : Byte := 0

/-- The byte listed at an address. -/
def Memory.find? : List Host.Cell → Nat → Option Byte
  | [], _ => none
  | (k, b) :: t, a => if k = a then some b else Memory.find? t a

/-- The byte at an address. -/
def Memory.peek (m : List Host.Cell) (a : Nat) : Byte := (Memory.find? m a).getD Memory.unlisted

/-- List a byte at an address, in place of what was listed there. -/
def Memory.put : List Host.Cell → Nat → Byte → List Host.Cell
  | [], a, b => [(a, b)]
  | (k, c) :: t, a, b =>
    if a < k then (a, b) :: (k, c) :: t
    else if a = k then (a, b) :: t
    else (k, c) :: Memory.put t a b

/-- List nothing at an address. -/
def Memory.erase : List Host.Cell → Nat → List Host.Cell
  | [], _ => []
  | (k, c) :: t, a => if a = k then t else (k, c) :: Memory.erase t a

/-- Write one byte, keeping the canonical form: the value an unlisted address reads as is not
listed. -/
def Memory.poke (m : List Host.Cell) (a : Nat) (b : Byte) : List Host.Cell :=
  if b = Memory.unlisted then Memory.erase m a else Memory.put m a b

/-- List a byte at an address only where none is listed. -/
def Memory.note (m : List Host.Cell) (a : Nat) (b : Byte) : List Host.Cell :=
  match Memory.find? m a with
  | some _ => m
  | none => Memory.put m a b

/-- Addresses rise strictly, from `lo` on and below `limit`. -/
def Memory.rising (lo limit : Nat) : List Host.Cell → Bool
  | [] => true
  | (k, _) :: t => lo ≤ k && k < limit && Memory.rising (k + 1) limit t

/-- The canonical form: strictly rising addresses inside the space, and no entry equal to what an
unlisted address reads as. -/
def Memory.wf (limit : Nat) (m : List Host.Cell) : Bool :=
  Memory.rising 0 limit m && m.all fun c => c.2 != Memory.unlisted

/-! ## The three spaces (R61) -/

/-- How many addresses a space has: 32-bit addresses for `IN` and `OUT`, 64-bit for `DSET` (R61). -/
def MemSpace.bytes : MemSpace → Nat
  | .inp => 2 ^ 32
  | .out => 2 ^ 32
  | .dset => 2 ^ 64

/-- The memory at a space. -/
def State.space (s : State) : MemSpace → Space
  | .inp => s.inMem
  | .out => s.outMem
  | .dset => s.dset

/-- The state with another memory at a space. -/
def State.setSpace (s : State) (k : MemSpace) (m : Space) : State :=
  match k with
  | .inp => { s with inMem := m }
  | .out => { s with outMem := m }
  | .dset => { s with dset := m }

/-- The byte a space holds at an address. -/
def State.peek (s : State) (k : MemSpace) (a : Nat) : Byte := Memory.peek (s.space k).cells a

/-- There is memory at this address: it is inside the space (R61) and inside the extent the platform
has provided (R74, R244 H5 to H7). -/
def State.provides (s : State) (k : MemSpace) (a : Nat) : Bool :=
  decide (a < k.bytes) &&
    (match (s.space k).size with
      | none => true
      | some n => decide (a < n))

/-- The byte a CORE read of `IN` or `DSET` returns: `none` where the access is stuck (R74); the byte
that is there, or, for a byte the host has written while the command runs, "either the old or the new
byte, an unspecified choice made independently at each read" (R248). -/
def State.coreRead (s : State) (k : MemSpace) (a : Nat) : Option Byte :=
  if s.provides k a then
    match Memory.find? (s.space k).raced a with
    | none => some (s.peek k a)
    | some old => some (if Config.raceTakesOther s.draws a then old else s.peek k a)
  else none

/-- `MemRead(space, addr, n)` by the CORE (R8): lowest address first. -/
def State.memRead (s : State) (k : MemSpace) (a : Nat) : Nat → Option (List Byte)
  | 0 => some []
  | n + 1 =>
    match s.coreRead k a with
    | none => none
    | some b =>
      match State.memRead s k (a + 1) n with
      | none => none
      | some bs => some (b :: bs)

/-- The read numbered `n`, the oldest being 0, given another value; a number no read has changes
nothing. -/
def setRead (reads : List Word) (n : Nat) (w : Word) : List Word :=
  if n < reads.length then reads.set (reads.length - 1 - n) w else reads

/-- The command writes `b` to the byte `a` of `OUT`: each read of it that the host made before the write
becomes "either its old value or the value the command writes to it ..., unspecified which" (R248). -/
def settleReads (draw a : Nat) (b : Byte) : List (Nat × Nat) → List Word → List Word
  | [], reads => reads
  | (n, x) :: rest, reads =>
    settleReads draw a b rest
      (if x = a ∧ Config.readTakesWritten draw n = true then setRead reads n (b.setWidth 32) else reads)

/-- Where the host has written the byte while the command runs, "the final content of each such byte is
either the host's or the command's value" (R248): whether the host's stays. -/
def State.hostsByteStays (s : State) (a : Nat) : Bool :=
  match Memory.find? s.outMem.raced a with
  | none => false
  | some _ => Config.raceTakesOther s.draws a

/-- `MemWrite(OUT, a, 1, v)` by the CORE (R8, R70): `none` where the access is stuck (R74).  Of the byte's
two values the one that is not stored is kept as the other a host read may return (R248). -/
def State.writeOut (s : State) (a : Nat) (b : Byte) : Option State :=
  if s.provides .out a then
    some
      { s with
        outMem :=
          { s.outMem with
            cells := if s.hostsByteStays a then s.outMem.cells else Memory.poke s.outMem.cells a b }
        shadow := Memory.put s.shadow a (if s.hostsByteStays a then b else s.peek .out a)
        reads := settleReads s.draws a b s.owed s.reads
        owed := s.owed.filter fun p => p.2 != a }
  else none

/-! ## The bytes of `OUT` a reset has left unspecified (R241) -/

/-- An address lies in one of the intervals. -/
def Doubt.covers (d : List (Nat × Nat)) (a : Nat) : Bool := d.any fun p => p.1 ≤ a && a < p.2

/-- The addresses below `n` taken out. -/
def Doubt.dropBelow (n : Nat) (d : List (Nat × Nat)) : List (Nat × Nat) :=
  (d.map fun p => (max p.1 n, p.2)).filter fun p => p.1 < p.2

/-- One address taken out. -/
def Doubt.dropAt (a : Nat) (d : List (Nat × Nat)) : List (Nat × Nat) :=
  (d.flatMap fun p => [(p.1, min p.2 a), (max p.1 (a + 1), p.2)]).filter fun p => p.1 < p.2

/-- The addresses below `n` put in. -/
def Doubt.addBelow (n : Nat) (d : List (Nat × Nat)) : List (Nat × Nat) :=
  match n, Doubt.dropBelow n d with
  | 0, rest => rest
  | m + 1, [] => [(0, m + 1)]
  | m + 1, (lo, hi) :: rest => if lo = m + 1 then (0, hi) :: rest else (0, m + 1) :: (lo, hi) :: rest

/-- The bookkeeping of R248 dropped: it is about the command that runs. -/
def Space.settle (m : Space) : Space := { m with raced := [] }

/-! ## Acceptance, error termination, end of a command -/

/-- The common part of every acceptance (R91): `DONE <- 0 ; ERR <- 0 ; ERRCODE <- 0`. -/
def CoreRegs.clearStatus (c : CoreRegs) : CoreRegs := { c with done := false, err := false, errCode := 0 }

/-- `raise E` (R214): `ERR <- 1 ; ERRCODE <- code(E) ; DONE <- 1`, and the acceptance step ends. -/
def CoreRegs.raise (e : ErrorKind) (c : CoreRegs) : CoreRegs :=
  { c with err := true, errCode := e.code, done := true }

/-- The PE is started: `PE_RUN <- 1 ; RND <- 0` (R117: "Every starter of the PE sets `RND <- 0` with
`PE_RUN <- 1`"). -/
def CoreRegs.startPe (c : CoreRegs) : CoreRegs := { c with peRun := true, rnd := 0 }

/-- A write of `CMD`: while BUSY it "is ignored: it changes no state and raises no error" (R30);
otherwise it is the acceptance, one atomic step that clears the status fields and then does what
`body` says (R91). -/
def acceptance (body : CoreRegs → CoreRegs) (s : State) : Host.Outcome State Fault Refusal :=
  if s.core.busy then .next s else .next { s with core := body s.core.clearStatus }

/-- A command ends after running: `DONE <- 1`.  From here on its memory accesses are over, so the
bookkeeping of R248 is dropped. -/
def State.finish (s : State) : State :=
  { s with
    core := { s.core with done := true }
    inMem := s.inMem.settle
    outMem := s.outMem.settle
    dset := s.dset.settle
    shadow := []
    owed := [] }

/-- A value is given to the host. -/
def State.deliver (s : State) (w : Word) : State := { s with reads := w :: s.reads }

/-- A free draw has been used. -/
def State.draw (s : State) : State := { s with draws := s.draws + 1 }

end Sys2Proof.Machine
end

