-- ==== Sys2Proof/Machine/Mixing.lean ====
section
/-! DEFINITION. The Mixing Primitive, the fold accumulator, and the commands `MIX` and `FOLD`
(42_mixing.md). -/

namespace Sys2Proof.Machine

/-- `PRIME` (R5, R160). -/
def prime : Word := 0x01000193

/-- `mul32(a, b) = (a * b) mod 2^32` (R9).  The factors are written the other way round: the second
one is `PRIME` wherever the CORE multiplies, and Lean's kernel must not count up to a literal second
factor. -/
def mul32 (a b : Word) : Word := b * a

/-- `mix(x, y) = mul32(x, PRIME) xor y` (R160). -/
def mixFn (x y : Word) : Word := mul32 x prime ^^^ y

/-- `fold4(w0, w1, w2, w3) = mix(mix(mix(w0, w1), w2), w3)` (R162). -/
def fold4 (w0 w1 w2 w3 : Word) : Word := mixFn (mixFn (mixFn w0 w1) w2) w3

/-- The acceptance of `MIX` (R163): `ACC <- mix(OPA, OPB) ; DONE <- 1`. -/
def acceptMix (c : CoreRegs) : CoreRegs := { c with acc := mixFn c.opa c.opb, done := true }

/-- `MIX` (R163): it ends in its acceptance step. -/
def execMix (s : State) : Host.Outcome State Fault Refusal := acceptance acceptMix s

/-- The acceptance of `FOLD` (R164): `ACC <- mix(ACC, OPB) ; DONE <- 1`. -/
def acceptFold (c : CoreRegs) : CoreRegs := { c with acc := mixFn c.acc c.opb, done := true }

/-- `FOLD` (R164): it ends in its acceptance step. -/
def execFold (s : State) : Host.Outcome State Fault Refusal := acceptance acceptFold s

end Sys2Proof.Machine
end

