-- ==== Sys2Proof/Machine/Serializer.lean ====
section
/-! DEFINITION. The Digest Output Serializer (44_serializer.md): where the output bytes of a sponge pass
go.  It keeps no state of its own and computes nothing (R200). -/

namespace Sys2Proof.Machine

/-- `Dst(a) <- v` (R203): deliver output byte `v` at output offset `a`; `none` where the memory access is
stuck (R74). -/
def deliverByte (s : State) (a : Nat) (v : Byte) : Option State :=
  match s.core.dst with
  | .out => s.writeOut a v
  | .seed => some { s with core := { s.core with seed := setWordByte s.core.seed a v } }
  | .result => some { s with core := { s.core with result := setWordByte s.core.result a v } }

/-- `Dst(a + j) <- bs[j]` for each byte of `bs` in order (R135). -/
def deliverBytes (s : State) (a : Nat) : List Byte → Option State
  | [] => some s
  | b :: bs =>
    match deliverByte s a b with
    | none => none
    | some t => deliverBytes t (a + 1) bs

end Sys2Proof.Machine
end

