-- ==== Sys2Proof/Machine/Sponge.lean ====
section
/-! DEFINITION. The Sponge Controller and the commands `SPONGE`, `DIGEST256`, `DIGEST512`
(41_sponge.md). -/

namespace Sys2Proof.Machine

/-- `RATE_256` (R5). -/
def rate256 : BitVec 8 := 136

/-- `RATE_512` (R5). -/
def rate512 : BitVec 8 := 72

/-- `DIGEST_256` (R5). -/
def digestSize256 : Word := 32

/-- `DIGEST_512` (R5). -/
def digestSize512 : Word := 64

/-- The domain byte of both fixed instantiations (R5, R142). -/
def domainByte : Byte := 0x01

/-- `PAD_LAST` (R5). -/
def padLast : Byte := 0x80

/-- The 200-byte state of zeros (R132, R136). -/
def zeroLanes : Vector Lane 25 := Vector.replicate 25 0

/-- `StartSponge(r, d, src, n, dst, L)` (R132), part of the step that calls it. -/
def startSponge (r : BitVec 8) (d : Byte) (src : Source) (n : Word) (dst : Dest) (l : Word)
    (c : CoreRegs) : CoreRegs :=
  { c with
    lanes := zeroLanes
    rRate := r
    rDom := d
    src := src
    inPos := 0
    rem := n
    dst := dst
    outPos := 0
    orem := l
    scPhase := .absorb }

/-- `Src(a), ..., Src(a+n-1)` (R137): `none` where a read of `IN` is stuck (R74). -/
def srcBytes (s : State) (a n : Nat) : Option (List Byte) :=
  match s.core.src with
  | .inp => s.memRead .inp a n
  | .seed40 => some (wordBytes s.core.seed a n)
  | .seedMix96 =>
    some ((List.range n).map fun j =>
      if a + j < 64 then wordByte s.core.seed (a + j) else wordByte s.core.mix (a + j - 64))

/-! ## The controller's steps, each enabled when `PE_RUN = 0` -/

/-- The absorb step of a full block, given the block (R133). -/
def absorbBlock (c : CoreRegs) (block : List Byte) : CoreRegs :=
  CoreRegs.startPe
    { c with
      lanes := xorLaneBytes c.lanes 0 block
      inPos := c.inPos + c.rRate.setWidth 32
      rem := c.rem - c.rRate.setWidth 32 }

/-- SC absorb step (R133). -/
def scAbsorb (s : State) : Host.Outcome State Fault Refusal :=
  if s.core.rRate.toNat ≤ s.core.rem.toNat then
    match srcBytes s s.core.inPos.toNat s.core.rRate.toNat with
    | none => .fault (.memoryStuck .inp)
    | some block => .next (State.draw { s with core := absorbBlock s.core block })
  else .next { s with core := { s.core with scPhase := .pad } }

/-- The padding of R134: the three updates "applied one after the other to the same byte array". -/
def padLanes (v : Vector Lane 25) (r : Nat) (d : Byte) (tail : List Byte) : Vector Lane 25 :=
  xorLaneBytes (xorLaneByte (xorLaneByte v tail.length d) (r - 1) padLast) 0 tail

/-- The pad step, given the remaining input (R134). -/
def padBlock (c : CoreRegs) (tail : List Byte) : CoreRegs :=
  CoreRegs.startPe
    { c with
      lanes := padLanes c.lanes c.rRate.toNat c.rDom tail
      inPos := c.inPos + c.rem
      rem := 0
      scPhase := .squeeze }

/-- SC pad step (R134). -/
def scPad (s : State) : Host.Outcome State Fault Refusal :=
  match srcBytes s s.core.inPos.toNat s.core.rem.toNat with
  | none => .fault (.memoryStuck .inp)
  | some tail => .next (State.draw { s with core := padBlock s.core tail })

/-- The registers after a full block has been squeezed (R135). -/
def squeezeBlock (c : CoreRegs) : CoreRegs :=
  CoreRegs.startPe
    { c with outPos := c.outPos + c.rRate.setWidth 32, orem := c.orem - c.rRate.setWidth 32 }

/-- The registers after the final partial chunk has been squeezed (R135, R206). -/
def squeezeTail (c : CoreRegs) : CoreRegs :=
  { c with outPos := c.outPos + c.orem, orem := 0, scPhase := .clear }

/-- SC squeeze step (R135). -/
def scSqueeze (s : State) : Host.Outcome State Fault Refusal :=
  if s.core.rRate.toNat ≤ s.core.orem.toNat then
    match deliverBytes s s.core.outPos.toNat (laneBytes s.core.lanes s.core.rRate.toNat) with
    | none => .fault (.memoryStuck .out)
    | some t => .next (State.draw { t with core := squeezeBlock t.core })
  else
    match deliverBytes s s.core.outPos.toNat (laneBytes s.core.lanes s.core.orem.toNat) with
    | none => .fault (.memoryStuck .out)
    | some t => .next (State.draw { t with core := squeezeTail t.core })

/-- The registers after the clear step (R136), less the end of a command. -/
def clearRegs (c : CoreRegs) : CoreRegs := { c with lanes := zeroLanes, scPhase := .idle }

/-- SC clear step (R136): a pass the host's command asked for ends the command, and every byte of
`OUT[0..OUTLEN-1]` now holds what the command wrote (R247; `OUTPOS` has reached the output length). -/
def scClear (s : State) : State :=
  if s.core.hoPhase = .idle then
    State.finish
      { s with core := clearRegs s.core, doubt := Doubt.dropBelow s.core.outPos.toNat s.doubt }
  else { s with core := clearRegs s.core }

/-! ## The commands -/

/-- The two buffer checks common to the three commands, in their order, and then `go` (R131, R215). -/
def checkBuffers (go : CoreRegs → CoreRegs) (c : CoreRegs) : CoreRegs :=
  if c.outLen ≠ 0 ∧ c.outPresent = false then c.raise .noOut
  else if c.inLen ≠ 0 ∧ c.inPresent = false then c.raise .noIn
  else go c

/-- The acceptance of `SPONGE` (R139). -/
def acceptSponge (c : CoreRegs) : CoreRegs :=
  if 200 ≤ c.rate.toNat ∨ c.rate = 0 then c.raise .rate
  else
    checkBuffers (fun c => startSponge (c.rate.extractLsb' 0 8) c.domain .inp c.inLen .out c.outLen c) c

/-- `SPONGE` (R139). -/
def execSponge (s : State) : Host.Outcome State Fault Refusal := acceptance acceptSponge s

/-- The acceptance of `DIGEST256` (R140). -/
def acceptDigest256 (c : CoreRegs) : CoreRegs :=
  if digestSize256.toNat < c.outLen.toNat then c.raise .outLen
  else checkBuffers (fun c => startSponge rate256 domainByte .inp c.inLen .out c.outLen c) c

/-- `DIGEST256` (R140). -/
def execDigest256 (s : State) : Host.Outcome State Fault Refusal := acceptance acceptDigest256 s

/-- The acceptance of `DIGEST512` (R141). -/
def acceptDigest512 (c : CoreRegs) : CoreRegs :=
  if digestSize512.toNat < c.outLen.toNat then c.raise .outLen
  else checkBuffers (fun c => startSponge rate512 domainByte .inp c.inLen .out c.outLen c) c

/-- `DIGEST512` (R141). -/
def execDigest512 (s : State) : Host.Outcome State Fault Refusal := acceptance acceptDigest512 s

end Sys2Proof.Machine
end

