-- ==== Sys2Proof/Machine/Orchestrator.lean ====
section
/-! DEFINITION. The Hash Orchestrator and the command `HASH` (43_orchestrator.md). -/

namespace Sys2Proof.Machine

/-! ## Acceptance -/

/-- `RESULTB[k] <- 0 ; MIXHASHB[k] <- 0` (R172): done at every acceptance of `HASH`, before the checks. -/
def clearRecord (c : CoreRegs) : CoreRegs :=
  { c with result := Vector.replicate 8 0, mixHash := Vector.replicate 8 0 }

/-- Step 1 (R172): `SEED[k] = HDRk` for `k` in 0..7, `SEED[8] = NONCE_LO`, `SEED[9] = NONCE_HI`; bytes
40 to 63 "keep whatever they held". -/
def loadSeed (c : CoreRegs) : Vector Word 16 :=
  Vector.ofFn fun w =>
    if h : w.val < 8 then c.hdr[w.val]
    else if w.val = 8 then c.nonceLo
    else if w.val = 9 then c.nonceHi
    else c.seed[w]

/-- `HASH` with its checks passed (R172): steps 1 and 4, and the start of step 2. -/
def startHash (c : CoreRegs) : CoreRegs :=
  startSponge rate512 domainByte .seed40 40 .seed 64
    { c with seed := loadSeed c, pages := c.fullSize.extractLsb' 7 32, hoPhase := .tile }

/-- The acceptance of `HASH` (R171, R172). -/
def acceptHash (c : CoreRegs) : CoreRegs :=
  let c := clearRecord c
  if c.fullSize = 0 ∨ c.fullSize.extractLsb' 0 7 ≠ 0 then c.raise .fullSize
  else if c.fullSize.extractLsb' 39 25 ≠ 0 then c.raise .pages
  else if c.dsLen.toNat < c.fullSize.toNat then c.raise .dataset
  else startHash c

/-- `HASH` (R183). -/
def execHash (s : State) : Host.Outcome State Fault Refusal := acceptance acceptHash s

/-! ## The orchestrator's steps, each enabled when `PE_RUN = 0` and `SC_PHASE = SC_IDLE` -/

/-- `MIX[w] <- SEED[w mod 16]` (R174). -/
def tileMix (seed : Vector Word 16) : Vector Word 32 :=
  Vector.ofFn fun w => seed[w.val % 16]

/-- Step 3, the tile step (R174). -/
def hoTile (c : CoreRegs) : CoreRegs :=
  { c with mix := tileMix c.seed, i := 0, hoPhase := .access }

/-- `PageIndex(s0, i, m) = mix(s0 xor zext_32(i), m) mod PAGES`, unsigned (R176).  Never evaluated with
`PAGES = 0` (R178). -/
def pageIndex (pages s0 : Word) (i : Nat) (m : Word) : Word := mixFn (s0 ^^^ BitVec.ofNat 32 i) m % pages

/-- The page index of the access round about to be done: `PageIndex(SEED[0], I, MIX[I mod 32])` (R175). -/
def CoreRegs.nextPage (c : CoreRegs) : Word :=
  pageIndex c.pages c.seed[0] c.i.val (c.mix[c.i.val % 32])

/-- The address of word-block `2 * page_index + j`, `j` in 0..1 (R68). -/
def blockAddr (page : Word) (j : Nat) : Nat := 128 * page.toNat + 64 * j

/-- `DatasetWord(w)` of the two fetched word-blocks (R177). -/
def datasetWord (b0 b1 : List Byte) (w : Nat) : Word :=
  le32 (if w < 16 then b0 else b1) (4 * (w % 16))

/-- `MIX[w] <- mix(MIX[w], DatasetWord(w))`, all 32 at once (R177). -/
def mixBlocks (m : Vector Word 32) (b0 b1 : List Byte) : Vector Word 32 :=
  Vector.ofFn fun w => mixFn m[w] (datasetWord b0 b1 w.val)

/-- The registers after an access round that fetched `b0` and `b1` (R175). -/
def accessRegs (c : CoreRegs) (b0 b1 : List Byte) : CoreRegs :=
  if c.i = 63 then { c with mix := mixBlocks c.mix b0 b1, k := 0, hoPhase := .fold }
  else { c with mix := mixBlocks c.mix b0 b1, i := c.i + 1 }

/-- Step 5, one access round (R175). -/
def hoAccess (s : State) : Host.Outcome State Fault Refusal :=
  match s.memRead .dset (blockAddr s.core.nextPage 0) 64,
    s.memRead .dset (blockAddr s.core.nextPage 1) 64 with
  | some b0, some b1 => .next (State.draw { s with core := accessRegs s.core b0 b1 })
  | _, _ => .fault (.memoryStuck .dset)

/-- `fold4(MIX[4k .. 4k+3])` (R179). -/
def foldGroup (m : Vector Word 32) (k : Fin 8) : Word :=
  fold4 (m[4 * k.val]) (m[4 * k.val + 1]) (m[4 * k.val + 2]) (m[4 * k.val + 3])

/-- Step 6, one fold group (R179). -/
def hoFold (c : CoreRegs) : CoreRegs :=
  let c' := { c with acc := foldGroup c.mix c.k, mix := c.mix.set c.k.val (foldGroup c.mix c.k) }
  if c.k = 7 then { c' with hoPhase := .final } else { c' with k := c.k + 1 }

/-- `MIXHASHk <- MIX[k]`, `k` in 0..7 (R180). -/
def mixHashOf (m : Vector Word 32) : Vector Word 8 := Vector.ofFn fun k => m[k.val]

/-- Steps 7 and 8, the final step (R180). -/
def hoFinal (c : CoreRegs) : CoreRegs :=
  startSponge rate256 domainByte .seedMix96 96 .result 32
    { c with mixHash := mixHashOf c.mix, hoPhase := .finish }

/-- The end step (R181). -/
def hoEnd (s : State) : State := State.finish { s with core := { s.core with hoPhase := .idle } }

end Sys2Proof.Machine
end

