-- ==== Sys2Proof/Machine/Permutation.lean ====
section
/-! DEFINITION. The Permutation Engine and the command `PERMUTE` (40_permutation.md).  The two tables of
rule R112 and the constants of rule R114 are constants, not state (R40). -/

namespace Sys2Proof.Machine

/-- `rotl64(v, n)` (R9). -/
def rotl64 (v : Lane) (n : Nat) : Lane := v.rotateLeft n

/-! ## The four parts of a round -/

/-- `C[x]`, the parity of a column (R111). -/
def columnParity (v : Vector Lane 25) (x : Fin 5) : Lane :=
  v[x.val] ^^^ v[x.val + 5] ^^^ v[x.val + 10] ^^^ v[x.val + 15] ^^^ v[x.val + 20]

/-- `D[x] = C[(x+4) mod 5] xor rotl64(C[(x+1) mod 5], 1)` (R111). -/
def thetaEffect (v : Vector Lane 25) (x : Fin 5) : Lane :=
  columnParity v (x + 4) ^^^ rotl64 (columnParity v (x + 1)) 1

/-- Theta (R111): every lane of column `x` takes `D[x]`, all parities from the state before. -/
def theta (v : Vector Lane 25) : Vector Lane 25 :=
  Vector.ofFn fun i => v[i] ^^^ thetaEffect v (Fin.ofNat 5 i.val)

/-- `ROTC[0..23]` (R112). -/
def rotc : List Nat :=
  [1, 3, 6, 10, 15, 21, 28, 36, 45, 55, 2, 14] ++ [27, 41, 56, 8, 25, 43, 62, 18, 39, 61, 20, 44]

/-- `PILN[0..23]` (R112). -/
def piln : List (Fin 25) :=
  [10, 7, 11, 17, 18, 3, 5, 16, 8, 21, 24, 4] ++ [15, 23, 19, 13, 12, 2, 20, 14, 22, 9, 6, 1]

/-- The loop of Rho/Pi with its rolling temporary `t` (R112). -/
def rhoPiLoop : List (Fin 25 × Nat) → Lane → Vector Lane 25 → Vector Lane 25
  | [], _, v => v
  | (j, n) :: rest, t, v => rhoPiLoop rest v[j] (v.set j (rotl64 t n))

/-- Rho/Pi (R112). -/
def rhoPi (v : Vector Lane 25) : Vector Lane 25 := rhoPiLoop (piln.zip rotc) v[1] v

/-- Chi (R113): lane `(x, y)` takes `(not lane (x+1, y)) and lane (x+2, y)`, every lane of a row from
the row before. -/
def chi (v : Vector Lane 25) : Vector Lane 25 :=
  Vector.ofFn fun i =>
    v[i] ^^^
      (~~~v[5 * (i.val / 5) + (i.val + 1) % 5]'(by omega) &&&
        v[5 * (i.val / 5) + (i.val + 2) % 5]'(by omega))

/-- The listing of R114, line by line: `RC[n]` and, beside it, `RC[n + 12]`. -/
def rcLines : Vector (Lane × Lane) 12 :=
  #v[(0x0000000000000001, 0x000000008000808B), (0x0000000000008082, 0x800000000000008B),
    (0x800000000000808A, 0x8000000000008089), (0x8000000080008000, 0x8000000000008003),
    (0x000000000000808B, 0x8000000000008002), (0x0000000080000001, 0x8000000000000080),
    (0x8000000080008081, 0x000000000000800A), (0x8000000000008009, 0x800000008000000A),
    (0x000000000000008A, 0x8000000080008081), (0x0000000000000088, 0x8000000000008080),
    (0x0000000080008009, 0x0000000080000001), (0x000000008000000A, 0x8000000080008008)]

/-- `RC[r]` (R114). -/
def rc (r : Fin 24) : Lane :=
  if h : r.val < 12 then rcLines[r.val].1 else (rcLines[r.val - 12]'(by omega)).2

/-- Iota (R114): `S[0] <- S[0] xor RC[r]`. -/
def iota (v : Vector Lane 25) (r : Fin 24) : Vector Lane 25 := v.set 0 (v[0] ^^^ rc r)

/-- `Round(S, r)` (R115): Theta, Rho/Pi, Chi, Iota, in order. -/
def keccakRound (v : Vector Lane 25) (r : Fin 24) : Vector Lane 25 := iota (chi (rhoPi (theta v))) r

/-- `F(S)` (R116): the rounds 0, 1, ..., 23. -/
def keccakF (v : Vector Lane 25) : Vector Lane 25 := (List.finRange 24).foldl keccakRound v

/-! ## The engine and its command -/

/-- What one firing of the PE round step does to the registers (R117), less the end of a `PERMUTE`. -/
def peRegs (c : CoreRegs) : CoreRegs :=
  if c.rnd = 23 then { c with lanes := keccakRound c.lanes c.rnd, peRun := false, rnd := 0 }
  else { c with lanes := keccakRound c.lanes c.rnd, rnd := c.rnd + 1 }

/-- The PE round step (R117), enabled when `PE_RUN = 1`.  The round 23 of a `PERMUTE`, when neither
controller is running, ends the command. -/
def peStep (s : State) : State :=
  if s.core.rnd = 23 ∧ s.core.scPhase = .idle ∧ s.core.hoPhase = .idle then
    State.finish { s with core := peRegs s.core }
  else { s with core := peRegs s.core }

/-- The acceptance of `PERMUTE` (R118): no check; the PE is started. -/
def acceptPermute (c : CoreRegs) : CoreRegs := c.startPe

/-- `PERMUTE` (R118). -/
def execPermute (s : State) : Host.Outcome State Fault Refusal := acceptance acceptPermute s

end Sys2Proof.Machine
end

