-- ==== Sys2Proof/Machine/Dispatch.lean ====
section
/-! DEFINITION. The meaning of each command as the acceptance of its command word (30_encoding.md rule
R91): one arm per constructor of Instr. -/

namespace Sys2Proof.Machine

def exec (i : Instr) (s : State) : Host.Outcome State Fault Refusal :=
  match i with
  | .permute => Sys2Proof.Machine.execPermute s
  | .sponge => Sys2Proof.Machine.execSponge s
  | .digest256 => Sys2Proof.Machine.execDigest256 s
  | .digest512 => Sys2Proof.Machine.execDigest512 s
  | .mix => Sys2Proof.Machine.execMix s
  | .fold => Sys2Proof.Machine.execFold s
  | .hash => Sys2Proof.Machine.execHash s

end Sys2Proof.Machine
end

