-- ==== Sys2Proof/Machine/Sequencer.lean ====
section
/-! DEFINITION. The choice of the sequencer's next step (10_state.md rule R26): the PE before the SC,
the SC before the HO; "The inner controller always runs to its end before the outer one moves". -/

namespace Sys2Proof.Machine

/-- The SC step for a phase (R133 to R136); in `SC_IDLE` the HO step for its phase (R174 to R181); with
both idle, no step is enabled and nothing changes. -/
def controllerStep (s : State) : Host.Outcome State Fault Refusal :=
  match s.core.scPhase with
  | .absorb => scAbsorb s
  | .pad => scPad s
  | .squeeze => scSqueeze s
  | .clear => .next (scClear s)
  | .idle =>
    match s.core.hoPhase with
    | .tile => .next { s with core := hoTile s.core }
    | .access => hoAccess s
    | .fold => .next { s with core := hoFold s.core }
    | .final => .next { s with core := hoFinal s.core }
    | .finish => .next (hoEnd s)
    | .idle => .next s

/-- One step of the sequencer (R26). -/
def sequencerStep (s : State) : Host.Outcome State Fault Refusal :=
  if s.core.peRun then .next (peStep s) else controllerStep s

end Sys2Proof.Machine
end

