-- ==== Sys2Proof/Machine/HostPort.lean ====
section
/-! DEFINITION. The host agent's moves (20_memory.md rule R60): register accesses (10_state.md rule
R30), accesses to the memories it owns (R61, R71, R248), the pseudo-instruction `WAIT` (R98), and reset
(R240, R241). -/

namespace Sys2Proof.Machine

/-! ## Registers -/

/-- A write of a command word that is none of the seven (R95): accepted, it ends at once with
`E_ILLEGAL_CMD`. -/
def illegalCommand (s : State) : Host.Outcome State Fault Refusal := acceptance (CoreRegs.raise .illegalCmd) s

/-- A write of the word `w` to `CMD` (R33, R91). -/
def writeCmd (w : Word) (s : State) : Host.Outcome State Fault Refusal :=
  match decodeWord w with
  | .ok i => exec i s
  | .error _ => illegalCommand s

/-- `RegWrite(off, v)` (R30): while BUSY it is ignored, `CMD` included. -/
def regWrite (r : Reg) (v : Word) (s : State) : Host.Outcome State Fault Refusal :=
  if r = .cmd then writeCmd v s
  else if s.core.busy then .next s
  else .next { s with core := s.core.writeReg r v }

/-- `RegRead(off)` (R30): while BUSY every register but `STATUS` returns a free draw. -/
def regRead (r : Reg) (s : State) : State :=
  if s.core.busy ∧ r ≠ .status then (s.deliver (Config.busyRead s.draws)).draw
  else s.deliver (s.core.readReg r)

/-! ## Memories -/

/-- The command that runs reads `IN`: a sponge pass with `SRC = SRC_IN` is in progress. -/
def CoreRegs.readsIn (c : CoreRegs) : Bool := c.scPhase != .idle && c.src == .inp

/-- The command that runs reads `DSET`: a `HASH` is in progress. -/
def CoreRegs.readsDset (c : CoreRegs) : Bool := c.hoPhase != .idle

/-- The command that runs writes the byte `a` of `OUT` at some time: a sponge pass with
`DST = DST_OUT` and an output length above `a` is in progress (`OUTPOS + OREM` is the length, R25). -/
def CoreRegs.writesOut (c : CoreRegs) (a : Nat) : Bool :=
  c.scPhase != .idle && c.dst == .out && decide (a < c.outPos.toNat + c.orem.toNat)

/-- The host writes a byte of a memory the running command reads: the byte as it stood before the
first such write stays possible (R248). -/
def Space.writeRaced (m : Space) (a : Nat) (b : Byte) : Space :=
  { m with cells := Memory.poke m.cells a b, raced := Memory.note m.raced a (Memory.peek m.cells a) }

/-- The host writes a byte of `OUT` the running command has still to write (R248). -/
def Space.writeAhead (m : Space) (a : Nat) (b : Byte) : Space :=
  { m with cells := Memory.poke m.cells a b, raced := Memory.put m.raced a b }

/-- A host write of one byte, no command being in its way. -/
def Space.write (m : Space) (a : Nat) (b : Byte) : Space := { m with cells := Memory.poke m.cells a b }

/-- The host writes a byte of `OUT` (R61, R248): while BUSY and before the command's write of it, the byte
is stored and the choice falls at that write; after the command's write the choice falls now, and the value
that is not stored is the other one a read may return.  DESIGN CHOICE: where the host writes a byte several
times after the command's write, R248 being silent, each write chooses against the byte then stored, so an
earlier byte of the host's may be the final one (notes/assumptions/8.md).  A byte that no running command writes is stored,
while BUSY too (notes/assumptions/20.md). -/
def hostWriteOut (a : Nat) (b : Byte) (s : State) : State :=
  if s.core.writesOut a then
    if s.core.outPos.toNat ≤ a then { s with outMem := s.outMem.writeAhead a b }
    else if Config.raceTakesOther s.draws a then State.draw { s with shadow := Memory.put s.shadow a b }
    else
      State.draw
        { s with outMem := s.outMem.write a b, shadow := Memory.put s.shadow a (s.peek .out a) }
  else { s with outMem := s.outMem.write a b, doubt := Doubt.dropAt a s.doubt }

/-- A host write of one byte where there is memory (R61, R248).  The spec forbids the host to write `IN`
while BUSY (R61, R71) and says what a breach does only for a command that reads `IN`; that the write is an
ordinary one while another command runs is the model's choice (notes/assumptions/20.md). -/
def hostWriteByte (k : MemSpace) (a : Nat) (b : Byte) (s : State) : State :=
  match k with
  | .inp => { s with inMem := if s.core.readsIn then s.inMem.writeRaced a b else s.inMem.write a b }
  | .dset => { s with dset := if s.core.readsDset then s.dset.writeRaced a b else s.dset.write a b }
  | .out => hostWriteOut a b s

/-- A host read of a byte of `OUT` that the running command writes (R248, second point): once it has been
written, either of its two values; before, the old byte for now, and the read is owed the choice at the
command's write. -/
def readWhileWritten (a : Nat) (s : State) : State :=
  if s.core.outPos.toNat ≤ a then
    State.deliver { s with owed := (s.reads.length, a) :: s.owed } ((s.peek .out a).setWidth 32)
  else
    let other := (Memory.find? s.shadow a).getD (s.peek .out a)
    (s.deliver ((if Config.raceTakesOther s.draws a then other else s.peek .out a).setWidth 32)).draw

/-- A host read of one byte where there is memory (R61): a byte of `OUT` that a reset has left unspecified
is a free draw (R241), one that a running command writes is as R248 says; any other is the byte there, while
BUSY too (notes/assumptions/15.md, 20.md). -/
def hostReadByte (k : MemSpace) (a : Nat) (s : State) : State :=
  if k = .out ∧ Doubt.covers s.doubt a then
    (s.deliver ((Config.abandonedOutByte s.draws).setWidth 32)).draw
  else if k = .out ∧ s.core.writesOut a then readWhileWritten a s
  else s.deliver ((s.peek k a).setWidth 32)

/-- A host access to a memory: outside the address width there is no such address (R61); where the
platform has put no memory the access is stuck (R74). -/
def hostMemory (k : MemSpace) (a : Nat) (move : State → State) (s : State) : Host.Outcome State Fault Refusal :=
  if k.bytes ≤ a then .fault (.noSuchAddress k a)
  else if s.provides k a then .next (move s)
  else .fault (.memoryStuck k)

/-! ## Reset, and the moves together -/

/-- How many bytes of `OUT` the running command writes in all: `OUTPOS + OREM` of a sponge pass with
`DST = DST_OUT` (R25), and otherwise none. -/
def CoreRegs.outputLength (c : CoreRegs) : Nat :=
  if c.scPhase ≠ .idle ∧ c.dst = .out then c.outPos.toNat + c.orem.toNat else 0

/-- Reset (R240, R241): the CORE takes its reset state, whether or not a command runs; the memories
keep what they hold, but the host can rely on no byte of the output of a command so abandoned. -/
def resetMove (s : State) : State :=
  { s with
    core := CoreRegs.reset
    doubt := Doubt.addBelow s.core.outputLength s.doubt
    inMem := s.inMem.settle
    outMem := s.outMem.settle
    dset := s.dset.settle
    shadow := []
    owed := [] }

/-- The platform's memory at a space has the given extent. -/
def provide (k : MemSpace) (size : Option Nat) (s : State) : State :=
  s.setSpace k { s.space k with size := size }

/-- `WAIT` (R98): "the host takes no other step until the sequencer has no enabled step"; the read of
`STATUS` that ends it returns `BUSY = 0`. -/
def waitMove (s : State) : Host.Outcome State Fault Refusal :=
  if s.core.busy then sequencerStep { s with host := .wait :: s.host } else .next (s.deliver s.core.status)

/-- One move of the schedule. -/
def hostMove (m : HostMove) (s : State) : Host.Outcome State Fault Refusal :=
  match m with
  | .tick => sequencerStep s
  | .wait => waitMove s
  | .reset => .next (resetMove s)
  | .regRead a =>
    match Reg.ofAccess a with
    | none => .refused .oddRegisterAccess
    | some r => .next (regRead r s)
  | .regWrite a v =>
    match Reg.ofAccess a with
    | none => .refused .oddRegisterAccess
    | some r => regWrite r v s
  | .memRead k a => hostMemory k a (hostReadByte k a) s
  | .memWrite k a b => hostMemory k a (hostWriteByte k a b) s
  | .provide k size => .next (provide k size s)

/-! ## Fetching a command word -/

/-- The move that issues the command word whose bits, numbered as the opcode table numbers them, are the
low `nbits` bits of `w` (R91). -/
def commandMove (nbits w : Nat) : HostMove := .regWrite Reg.cmd.access (BitVec.ofNat 32 (w % 2 ^ nbits))

/-- The CORE idle, so that a `CMD` write is accepted; nothing else changes. -/
def CoreRegs.madeIdle (c : CoreRegs) : CoreRegs := { c with peRun := false, scPhase := .idle, hoPhase := .idle }

/-- The state in which the very next step is the acceptance of that command word. -/
def issueCommand (s : State) (nbits w : Nat) : State :=
  { s with core := s.core.madeIdle, host := commandMove nbits w :: s.host }

end Sys2Proof.Machine
end

