-- ==== Sys2Proof/Machine/Step.lean ====
section
/-! DEFINITION. One step of the machine: the next move of the schedule, or, when none is left, a step of
the sequencer. -/

namespace Sys2Proof.Machine

/-- One atomic step (R26, R30, R60). -/
def step (s : State) : Host.Outcome State Fault Refusal :=
  match s.host with
  | [] => sequencerStep s
  | m :: rest => hostMove m { s with host := rest }

/-- The state in which the next step is the `RegWrite` of this word to an idle CORE's `CMD`: the CORE
fetches nothing (R24), so the word comes from the host's schedule. -/
def State.withFetchWord (s : State) (nbits w : Nat) : State := issueCommand s nbits w

end Sys2Proof.Machine
end

