-- ==== Sys2Proof/Machine/Reference.lean ====
section
/-! DEFINITION. The functions the spec says the sequencer computes, as plain functions on byte strings:
`Sponge` (41_sponge.md rule R130), `Keccak256` and `Keccak512` (R142), and `Hash` (43_orchestrator.md
rule R182).  No step uses them; the statements compare the steps with them. -/

namespace Sys2Proof.Machine

/-- `b` turns of the absorb loop of R130, each over the next `r` bytes of `m`. -/
def absorbLoop (r : Nat) : Nat → Vector Lane 25 → List Byte → Vector Lane 25
  | 0, a, _ => a
  | b + 1, a, m => absorbLoop r b (keccakF (xorLaneBytes a 0 (m.take r))) (m.drop r)

/-- `b` turns of the squeeze loop of R130, and then the final partial chunk of `o` bytes. -/
def squeezeLoop (r o : Nat) : Nat → Vector Lane 25 → List Byte
  | 0, a => laneBytes a o
  | b + 1, a => laneBytes a r ++ squeezeLoop r o b (keccakF a)

/-- The state after the absorb and pad phases of R130.  The absorb loop runs while at least `r` bytes
remain, which is `n div r` times, and leaves `n mod r` (R138). -/
def absorbAll (m : List Byte) (r : Nat) (d : Byte) : Vector Lane 25 :=
  keccakF
    (padLanes (absorbLoop r (m.length / r) zeroLanes m) r d (m.drop (r * (m.length / r))))

/-- `Sponge(L, M, r, d)` (R130). -/
def spongeFn (l : Nat) (m : List Byte) (r : Nat) (d : Byte) : List Byte :=
  squeezeLoop r (l % r) (l / r) (absorbAll m r d)

/-- `Keccak256(M) = Sponge(32, M, 136, 0x01)` (R142). -/
def keccak256 (m : List Byte) : List Byte := spongeFn 32 m 136 0x01

/-- `Keccak512(M) = Sponge(64, M, 72, 0x01)` (R142). -/
def keccak512 (m : List Byte) : List Byte := spongeFn 64 m 72 0x01

/-- One access round of R182: the mix words `m`, the expanded seed's first word `s0`, `p` pages, the
dataset `d`. -/
def hashRound (s0 p : Word) (d : Nat → Byte) (m : Vector Word 32) (i : Nat) : Vector Word 32 :=
  let page := (mixFn (s0 ^^^ BitVec.ofNat 32 i) (m[i % 32]'(Nat.mod_lt i (by omega))) % p).toNat
  Vector.ofFn fun w =>
    mixFn m[w]
      (wordOfBytes (d (128 * page + 4 * w.val)) (d (128 * page + 4 * w.val + 1))
        (d (128 * page + 4 * w.val + 2)) (d (128 * page + 4 * w.val + 3)))

/-- The expanded seed `s` of R182. -/
def hashSeed (h : List Byte) (nonce : BitVec 64) : List Byte := keccak512 (h ++ bytes64 nonce)

/-- The 32 mix words of R182 after the 64 access rounds over the expanded seed `s`. -/
def hashMix (s : List Byte) (pages : Word) (d : Nat → Byte) : Vector Word 32 :=
  (List.range 64).foldl (hashRound (le32 s 0) pages d)
    (Vector.ofFn fun w => le32 s (4 * (w.val % 16)))

/-- The eight compressed words `c` of R182. -/
def hashCompressed (m : Vector Word 32) : Vector Word 8 := Vector.ofFn fun k => foldGroup m k

/-- `mix_hash` of R182, from the compressed words. -/
def hashMixHash (words : Vector Word 8) : List Byte :=
  (List.finRange 8).flatMap fun k => bytes32 words[k]

/-- `Hash(h, nonce, full_size, D) = (result, mix_hash)` (R182); `full_size` is taken as its 32-bit page
count, `full_size div 128`. -/
def hashFn (h : List Byte) (nonce : BitVec 64) (pages : Word) (d : Nat → Byte) : List Byte × List Byte :=
  let s := hashSeed h nonce
  let mixHash := hashMixHash (hashCompressed (hashMix s pages d))
  (keccak256 (s ++ mixHash), mixHash)

end Sys2Proof.Machine
end

