-- ==== Sys2Proof/Machine/Script.lean ====
section
/-! DEFINITION. The host-script notation and the pseudo-instructions of 30_encoding.md rules R97 and R98,
as schedules of the host's moves. -/

namespace Sys2Proof.Machine

/-- `WR <reg>, <value>` (R97). -/
def wr (r : Reg) (v : Word) : HostMove := .regWrite r.access v

/-- `RD <reg>` (R97). -/
def rd (r : Reg) : HostMove := .regRead r.access

/-- `<MNEMONIC>`: `WR CMD, <opcode>` (R97). -/
def issue (i : Instr) : HostMove := wr .cmd (encode i)

/-- `IN[a..b] = <bytes>`, `DSET[a..b] = <bytes>`, from address `a` (R97). -/
def fill (k : MemSpace) (a : Nat) (bs : List Byte) : List HostMove :=
  (List.range bs.length).map fun j => .memWrite k (a + j) (bs.getD j 0)

/-- `OUT[a..b] -> <bytes>`, `n` bytes from address `a` (R97). -/
def dump (k : MemSpace) (a n : Nat) : List HostMove := (List.range n).map fun j => .memRead k (a + j)

/-- `WAIT` (R98). -/
def wait : HostMove := .wait

/-- `LDHDR h` (R98). -/
def ldHdr (h : List Byte) : List HostMove :=
  (List.finRange 8).map fun k => wr (.hdr k) (le32 h (4 * k.val))

/-- `LDNONCE n` (R98). -/
def ldNonce (n : BitVec 64) : List HostMove :=
  [wr .nonceLo (n.extractLsb' 0 32), wr .nonceHi (n.extractLsb' 32 32)]

/-- `LDSIZE n` (R98). -/
def ldSize (n : BitVec 64) : List HostMove :=
  [wr .fullSizeLo (n.extractLsb' 0 32), wr .fullSizeHi (n.extractLsb' 32 32)]

/-- `LDDSLEN n` (R98). -/
def ldDsLen (n : BitVec 64) : List HostMove :=
  [wr .dsLenLo (n.extractLsb' 0 32), wr .dsLenHi (n.extractLsb' 32 32)]

/-- `LDSTATE b` (R98). -/
def ldState (b : List Byte) : List HostMove :=
  (List.finRange 25).flatMap fun i =>
    [wr (.sLo i) (le32 b (8 * i.val)), wr (.sHi i) (le32 b (8 * i.val + 4))]

/-- `RDSTATE` (R98). -/
def rdState : List HostMove := (List.finRange 25).flatMap fun i => [rd (.sLo i), rd (.sHi i)]

/-- `RDRESULT` (R98). -/
def rdResult : List HostMove := (List.finRange 8).map fun k => rd (.result k)

/-- `RDMIXHASH` (R98). -/
def rdMixHash : List HostMove := (List.finRange 8).map fun k => rd (.mixHash k)

/-- `ATTACH in, out` (R98): `WR BUFCFG, in + 2*out`. -/
def attach (inp out : Bool) : HostMove :=
  wr .bufCfg ((0 : BitVec 30) ++ BitVec.ofBool out ++ BitVec.ofBool inp)

end Sys2Proof.Machine
end

