-- ==== Sys2Proof/Safety.lean ====
section
/-! DEFINITION. The terms claims are stated in: runs, what a state must satisfy on every run, which
checks a command makes, and what counts as unchanged. -/

namespace Sys2Proof.Machine

/-! ## Runs -/

/-- `n` steps of the machine, stopping at the first fault or refusal. -/
def runSteps : Nat → State → Host.Outcome State Fault Refusal
  | 0, s => .next s
  | n + 1, s =>
    match step s with
    | .next t => runSteps n t
    | .fault f => .fault f
    | .refused r => .refused r

/-- The host's schedule is empty: every step from here on is the sequencer's. -/
def State.unattended (s : State) : Prop := s.host = []

/-- The next step is the sequencer's: no move is left, or a `tick` is next, or a `WAIT` that must still
wait. -/
def State.stepIsSequencers (s : State) : Prop :=
  s.host = [] ∨ (∃ rest, s.host = .tick :: rest) ∨ (s.core.busy = true ∧ ∃ rest, s.host = .wait :: rest)

/-- The next move is a host write of the byte `a` of a space. -/
def State.hostWritesNext (s : State) (k : MemSpace) (a : Nat) : Prop :=
  ∃ v rest, s.host = .memWrite k a v :: rest

/-- What the host's read numbered `n` gave, the oldest being 0. -/
def State.readNo (s : State) (n : Nat) : Option Word := s.reads.reverse[n]?

/-! ## The bytes a sequencer step reaches -/

/-- The sequencer's enabled step reads the byte `a` of `IN` (R133, R134) or of `DSET` (R68, R175), or writes
the byte `a` of `OUT` (R135). -/
def CoreRegs.reaches (c : CoreRegs) (k : MemSpace) (a : Nat) : Prop :=
  match k with
  | .inp =>
    c.peRun = false ∧ c.src = .inp ∧ c.inPos.toNat ≤ a ∧
      (c.scPhase = .absorb ∧ c.rRate.toNat ≤ c.rem.toNat ∧ a < c.inPos.toNat + c.rRate.toNat ∨
        c.scPhase = .pad ∧ a < c.inPos.toNat + c.rem.toNat)
  | .out =>
    c.peRun = false ∧ c.dst = .out ∧ c.scPhase = .squeeze ∧ c.outPos.toNat ≤ a ∧
      a < c.outPos.toNat + min c.rRate.toNat c.orem.toNat
  | .dset =>
    c.peRun = false ∧ c.scPhase = .idle ∧ c.hoPhase = .access ∧
      ∃ b j, b < 2 ∧ j < 64 ∧ a = blockAddr c.nextPage b + j

/-! ## Invariants -/

/-- Every memory is in its one canonical form, and so are the lists of the bytes the host has written under
a running command (R248). -/
def State.memoryCanonical (s : State) : Prop :=
  ∀ k : MemSpace,
    Memory.wf k.bytes (s.space k).cells = true ∧ Memory.rising 0 k.bytes (s.space k).raced = true

/-- Nothing the host wrote races with a running command (R71 point 4 is kept so far). -/
def State.quiet (s : State) : Prop := ∀ k : MemSpace, (s.space k).raced = []

/-- The list of the other values of the bytes a command has written (R248) is in canonical order too. -/
def State.shadowCanonical (s : State) : Prop := Memory.rising 0 MemSpace.out.bytes s.shadow = true

/-- An idle CORE has no race pending, no byte with two values and no read still owed a choice: R248 is about
a command that runs. -/
def State.racesOnlyWhileBusy (s : State) : Prop :=
  s.core.busy = false → s.quiet ∧ s.shadow = [] ∧ s.owed = []

/-- The invariants of R32, and R211's "never produced" of the codes above 0x08. -/
structure CoreRegs.StatusConsistent (c : CoreRegs) : Prop where
  /-- "`BUSY = 1` implies `DONE = 0` and `ERR = 0`" -/
  busyFlags : c.busy = true → c.done = false ∧ c.err = false
  /-- "`ERR = 1` implies `DONE = 1` and `ERRCODE != 0`" -/
  errFlags : c.err = true → c.done = true ∧ c.errCode ≠ 0
  /-- "`ERR = 0` implies `ERRCODE = 0`" -/
  noErrCode : c.err = false → c.errCode = 0
  /-- "`0x09 .. 0xFF` | reserved | never produced" -/
  codeRange : c.errCode.toNat ≤ 8

/-- Where the bytes of the sponge pass in progress come from and go to, and how many there are, by the
orchestrator's phase: a host command's pass (R139 to R141), the expansion pass (R172, R173), the final
pass (R180); no pass runs in the other phases. -/
def CoreRegs.passRouted (c : CoreRegs) : Prop :=
  match c.hoPhase with
  | .idle =>
    c.src = .inp ∧ c.dst = .out ∧ c.inPos.toNat + c.rem.toNat = c.inLen.toNat ∧
      c.outPos.toNat + c.orem.toNat = c.outLen.toNat
  | .tile =>
    c.src = .seed40 ∧ c.dst = .seed ∧ c.rRate = 72 ∧ c.rDom = 1 ∧
      c.inPos.toNat + c.rem.toNat = 40 ∧ c.outPos.toNat + c.orem.toNat = 64
  | .finish =>
    c.src = .seedMix96 ∧ c.dst = .result ∧ c.rRate = 136 ∧ c.rDom = 1 ∧
      c.inPos.toNat + c.rem.toNat = 96 ∧ c.outPos.toNat + c.orem.toNat = 32
  | .access => False
  | .fold => False
  | .final => False

/-- What R24, R25, R27 and R178 say of the sequencer's registers in every state of a run. -/
structure CoreRegs.SequencerSound (c : CoreRegs) : Prop where
  /-- "the step at 23 clears `PE_RUN` and `RND`" (R27): `RND` is 0 unless the PE runs. -/
  rndIdle : c.peRun = false → c.rnd = 0
  /-- `R_RATE` is 1..199 during a pass (R25). -/
  rateRange : c.scPhase ≠ .idle → 1 ≤ c.rRate.toNat ∧ c.rRate.toNat ≤ 199
  /-- In `SC_PAD` the PE is at rest and "`0 <= REM < R_RATE`" (R134). -/
  padTail : c.scPhase = .pad → c.peRun = false ∧ c.rem.toNat < c.rRate.toNat
  /-- Nothing has been output before the pad step (R138). -/
  outUntouched : c.scPhase = .absorb ∨ c.scPhase = .pad → c.outPos = 0
  /-- After the pad step no input is left (R138). -/
  inConsumed : c.scPhase = .squeeze ∨ c.scPhase = .clear → c.rem = 0
  /-- In `SC_CLEAR` the PE is at rest and no output is left (R135). -/
  outDelivered : c.scPhase = .clear → c.peRun = false ∧ c.orem = 0
  /-- The pass in progress is one of the three kinds, and `INPOS + REM` and `OUTPOS + OREM` are its two
  lengths (R25). -/
  routed : c.scPhase ≠ .idle → c.passRouted
  /-- With the SC at rest, only `PERMUTE` runs the PE (R117). -/
  peOwner : c.scPhase = .idle → c.hoPhase ≠ .idle → c.peRun = false
  /-- "`PAGES >= 1` in every access round" (R178), and in all of a `HASH`. -/
  pagesPositive : c.hoPhase ≠ .idle → c.pages ≠ 0

/-! ## Memory there for a command -/

/-- The memory at a space is there for the addresses below `n`: the duty H5 of R244. -/
def State.holds (s : State) (k : MemSpace) (n : Nat) : Prop := ∀ a, a < n → s.provides k a = true

/-- Every memory covers its whole address space, so that "every `MemRead` of `IN` or `DSET` returns
bytes and every `MemWrite` of `OUT` succeeds" (R74). -/
def State.wholeMemories (s : State) : Prop := ∀ k : MemSpace, (s.space k).size = none

/-- The `n` bytes of a space from address 0. -/
def State.bytes (s : State) (k : MemSpace) (n : Nat) : List Byte := (List.range n).map (s.peek k)

/-! ## The checks of a command (R213, R215) -/

/-- The checks each command makes, in the order of R215, each with the error it reports. -/
def commandChecks (i : Instr) (c : CoreRegs) : List (Bool × ErrorKind) :=
  let noOut := (decide (0 < c.outLen.toNat ∧ c.outPresent = false), ErrorKind.noOut)
  let noIn := (decide (0 < c.inLen.toNat ∧ c.inPresent = false), ErrorKind.noIn)
  match i with
  | .permute => []
  | .sponge => [(decide (c.rate.toNat = 0 ∨ 200 ≤ c.rate.toNat), .rate), noOut, noIn]
  | .digest256 => [(decide (32 < c.outLen.toNat), .outLen), noOut, noIn]
  | .digest512 => [(decide (64 < c.outLen.toNat), .outLen), noOut, noIn]
  | .mix => []
  | .fold => []
  | .hash =>
    [(decide (c.fullSize.toNat = 0 ∨ c.fullSize.toNat % 128 ≠ 0), .fullSize),
      (decide (2 ^ 39 ≤ c.fullSize.toNat), .pages),
      (decide (c.dsLen.toNat < c.fullSize.toNat), .dataset)]

/-- The error of the first failing check (R215): "the first failing check in this fixed order is the one
reported". -/
def firstError (i : Instr) (c : CoreRegs) : Option ErrorKind :=
  ((commandChecks i c).find? fun p => p.1).map fun p => p.2

/-! ## What a host may store in a register (R31, R35) -/

/-- The bits of a register that a write stores: all of them, `DOMAIN[7:0]`, `BUFCFG[1:0]`, or none. -/
def Reg.writableBits : Reg → Word
  | .bufCfg => 0x00000003
  | .domain => 0x000000FF
  | .cmd => 0
  | .status => 0
  | .result _ => 0
  | .mixHash _ => 0
  | .reserved => 0
  | .rate => 0xFFFFFFFF
  | .inLen => 0xFFFFFFFF
  | .outLen => 0xFFFFFFFF
  | .opa => 0xFFFFFFFF
  | .opb => 0xFFFFFFFF
  | .acc => 0xFFFFFFFF
  | .nonceLo => 0xFFFFFFFF
  | .nonceHi => 0xFFFFFFFF
  | .fullSizeLo => 0xFFFFFFFF
  | .fullSizeHi => 0xFFFFFFFF
  | .dsLenLo => 0xFFFFFFFF
  | .dsLenHi => 0xFFFFFFFF
  | .hdr _ => 0xFFFFFFFF
  | .sLo _ => 0xFFFFFFFF
  | .sHi _ => 0xFFFFFFFF

/-! ## What stays as it was -/

/-- Every byte of every memory reads as before. -/
def State.SameMemory (s t : State) : Prop := ∀ (k : MemSpace) (a : Nat), t.peek k a = s.peek k a

/-- The operand registers (R29), the PE's window apart. -/
structure CoreRegs.SameOperands (c d : CoreRegs) : Prop where
  hdr : d.hdr = c.hdr
  nonce : d.nonceLo = c.nonceLo ∧ d.nonceHi = c.nonceHi
  fullSize : d.fullSizeLo = c.fullSizeLo ∧ d.fullSizeHi = c.fullSizeHi
  dsLen : d.dsLenLo = c.dsLenLo ∧ d.dsLenHi = c.dsLenHi
  rate : d.rate = c.rate
  domain : d.domain = c.domain
  inLen : d.inLen = c.inLen
  outLen : d.outLen = c.outLen
  bufCfg : d.bufCfg = c.bufCfg
  opa : d.opa = c.opa
  opb : d.opb = c.opb

/-- The byte a pass has put at output offset `a`, by where it sends its bytes (R203). -/
def State.outputByte (s : State) (d : Dest) (a : Nat) : Byte :=
  match d with
  | .out => s.peek .out a
  | .seed => wordByte s.core.seed a
  | .result => wordByte s.core.result a

/-- How many output offsets a destination has (R203). -/
def Dest.capacity : Dest → Nat
  | .out => 2 ^ 32
  | .seed => 64
  | .result => 32

end Sys2Proof.Machine
end

