-- ==== Sys2Proof/Certificates/Slice0/Obligations.lean ====
section
/-! DEFINITION. The statements about the model, one `def Obligations.<Name> : Prop` each.  Those that
formalise a numbered rule of spec/ quote it in OBLIGATIONS.json; a statement about an interpretation of the model's own
says so in its docstring. -/

open Sys2Proof Sys2Proof.Machine

/-! ## Reset, steps, decoding -/

/-- R41, R240: after reset every element of R20's tuple is zero, or idle, or its first select value, and
`STATUS` reads 0; the CORE leaves reset idle.  The reset move may be taken in any state, BUSY or not: it
gives the CORE these values and changes no byte of any memory. -/
def Obligations.ResetStateIsZeroAndIdle : Prop :=
  State.reset.core =
      { lanes := Vector.replicate 25 0, seed := Vector.replicate 16 0, mix := Vector.replicate 32 0,
        opa := 0, opb := 0, acc := 0, peRun := false, rnd := 0, scPhase := .idle, hoPhase := .idle,
        i := 0, k := 0, rRate := 0, rDom := 0, src := .inp, inPos := 0, rem := 0, dst := .out,
        outPos := 0, orem := 0, pages := 0, result := Vector.replicate 8 0,
        mixHash := Vector.replicate 8 0, hdr := Vector.replicate 8 0, nonceLo := 0, nonceHi := 0,
        fullSizeLo := 0, fullSizeHi := 0, dsLenLo := 0, dsLenHi := 0, rate := 0, domain := 0,
        inLen := 0, outLen := 0, bufCfg := 0, done := false, err := false, errCode := 0 } ∧
    State.reset.core.status = 0 ∧ State.reset.core.busy = false ∧
    ∀ (s : State) (rest : List HostMove),
      ∃ t, step { s with host := HostMove.reset :: rest } = .next t ∧ t.core = State.reset.core ∧
        s.SameMemory t ∧ t.host = rest ∧ t.reads = s.reads

/-- The invariants below hold at reset. -/
def Obligations.ResetMeetsTheInvariants : Prop :=
  State.reset.memoryCanonical ∧ State.reset.shadowCanonical ∧ State.reset.racesOnlyWhileBusy ∧
    State.reset.core.StatusConsistent ∧ State.reset.core.SequencerSound

/-- R241, R247 (and U1 of 93_implementation_defined.md): after a reset that abandons a command, the bytes
of `OUT` the command was to write are unspecified for the host, and stay so until a command that writes
them has ended (the clear step) or the host has written them with no running command about to write them.
The last clause says it of every step: nothing else takes a byte out, and nothing but a reset puts one in.
The bookkeeping is the model's own (notes/assumptions/9.md); what the host then reads is in
`HostReadsBackWhatItWrote`. -/
def Obligations.AbandonedOutputIsUnspecified : Prop :=
  (∀ (s : State) (rest : List HostMove),
    ∃ t, step { s with host := HostMove.reset :: rest } = .next t ∧
      ∀ a, Doubt.covers t.doubt a = true ↔
        s.core.writesOut a = true ∨ Doubt.covers s.doubt a = true) ∧
    (∀ s : State, s.core.peRun = false → s.core.scPhase = .clear →
      ∃ t, sequencerStep s = .next t ∧
        ∀ a, Doubt.covers t.doubt a = true ↔
          Doubt.covers s.doubt a = true ∧ ¬(s.core.hoPhase = .idle ∧ a < s.core.outPos.toNat)) ∧
    (∀ (s : State) (a : Nat) (v : Byte) (rest : List HostMove), s.provides .out a = true →
      ∃ t, step { s with host := HostMove.memWrite .out a v :: rest } = .next t ∧
        ∀ b, Doubt.covers t.doubt b = true ↔
          Doubt.covers s.doubt b = true ∧ ¬(b = a ∧ s.core.writesOut a = false)) ∧
    ∀ (s t : State) (a : Nat), step s = .next t →
      (Doubt.covers s.doubt a = true → Doubt.covers t.doubt a = false →
        (s.stepIsSequencers ∧ s.core.peRun = false ∧ s.core.scPhase = .clear ∧ s.core.hoPhase = .idle ∧
            a < s.core.outPos.toNat) ∨
          (s.hostWritesNext .out a ∧ s.core.writesOut a = false)) ∧
        (Doubt.covers s.doubt a = false → Doubt.covers t.doubt a = true →
          (∃ rest, s.host = HostMove.reset :: rest) ∧ s.core.writesOut a = true)

/-- A step runs the decoded command: where the next move of the schedule is the write of a word to `CMD`
(as a 32-bit access to offset 0) and the word decodes to `i`, the step is `exec i` in the state with
that move taken off the schedule.  The state `withFetchWord` builds is such a state. -/
def Obligations.StepRunsDecodedCommand : Prop :=
  (∀ (s : State) (w : Word) (i : Instr) (rest : List HostMove),
    s.host = HostMove.regWrite { width := .w32, offset := 0 } w :: rest → decodeWord w = .ok i →
      step s = exec i { s with host := rest }) ∧
    ∀ (s : State) (i : Instr),
      step (s.withFetchWord 32 (encode i).toNat) = exec i { s with core := s.core.madeIdle }

/-- R26, R60: with nothing left in the host's schedule, and at each `tick` of it, the step is the
sequencer's; an idle CORE then stays as it is, for "no sequencer step is enabled" (R26).  R98: a `WAIT`
keeps the host from any other step while the CORE is BUSY, the steps being the sequencer's, and then gives
it `STATUS` (notes/assumptions/11.md), whose bit 0 is 0. -/
def Obligations.UnattendedStepIsSequencerStep : Prop :=
  (∀ s : State, s.host = [] → step s = sequencerStep s) ∧
    (∀ (s : State) (rest : List HostMove), s.host = HostMove.tick :: rest →
      step s = sequencerStep { s with host := rest }) ∧
    (∀ (s : State) (rest : List HostMove), s.host = HostMove.wait :: rest →
      (s.core.busy = true → step s = sequencerStep s) ∧
        (s.core.busy = false →
          step s = .next { s with host := rest, reads := s.core.status :: s.reads } ∧
            s.core.status.getLsbD 0 = false)) ∧
    ∀ s : State, s.core.busy = false → sequencerStep s = .next s

/-- R92, R95: the seven command words, and some that are illegal. -/
def Obligations.CommandWordsDecode : Prop :=
  decodeWord 0x00000001 = .ok .permute ∧ decodeWord 0x00000002 = .ok .sponge ∧
    decodeWord 0x00000003 = .ok .digest256 ∧ decodeWord 0x00000004 = .ok .digest512 ∧
    decodeWord 0x00000005 = .ok .mix ∧ decodeWord 0x00000006 = .ok .fold ∧
    decodeWord 0x00000007 = .ok .hash ∧ decodeWord 0x00000000 = .error .opcodeUnassigned ∧
    decodeWord 0x00000008 = .error .opcodeUnassigned ∧
    decodeWord 0x00000107 = .error .zeroFieldNonzero

/-- R90, R92: decoding and encoding are inverse on byte strings.  A string decodes to `i`, with the rest
left over, exactly when it is the four bytes of `i`'s command word followed by that rest. -/
def Obligations.DecodeInvertsEncode : Prop :=
  ∀ (bs rest : List Byte) (i : Instr), decode bs = .ok (i, rest) ↔ bs = encodeBytes i ++ rest

/-- R91, R95: "The decoder is total: every 32-bit `w` is either one of the seven commands or
`E_ILLEGAL_CMD`": a word decodes to a command exactly when bits 31:8 are 0 and bits 7:0 are one of the
seven opcodes, and then it is that command's word. -/
def Obligations.EveryWordIsOneCommandOrIllegal : Prop :=
  ∀ w : Word,
    ((CommandWord.ofWord w).wellFormed = true ↔ ∃ i, decodeWord w = .ok i) ∧
      (∀ i, decodeWord w = .ok i ↔ w = encode i) ∧
      ((CommandWord.ofWord w).wellFormed = false ↔ w.toNat = 0 ∨ 8 ≤ w.toNat)

/-! ## Commands that end at acceptance -/

/-- R95: "An illegal word is accepted, changes nothing but the status fields, and ends at once with
`ERR = 1`, `ERRCODE = E_ILLEGAL_CMD`". -/
def Obligations.IllegalWordChangesOnlyStatus : Prop :=
  ∀ (s : State) (w : Word) (rest : List HostMove),
    s.core.busy = false → w.toNat = 0 ∨ 8 ≤ w.toNat →
      step { s with host := HostMove.regWrite { width := .w32, offset := 0 } w :: rest } =
        .next
          { s with
            host := rest
            core := { s.core with done := true, err := true, errCode := 0x01 } }

/-- R163: `MIX` completes at acceptance with `ACC = mix(OPA, OPB)`, and changes nothing else but the
status.  The last clauses are the rule's command word, its corner cases and its worked example. -/
def Obligations.MixWritesAccumulator : Prop :=
  (∀ s : State, s.core.busy = false →
    exec .mix s =
      .next
        { s with
          core :=
            { s.core with
              acc := (0x01000193 * s.core.opa) ^^^ s.core.opb
              done := true
              err := false
              errCode := 0 } }) ∧
    encode .mix = 0x00000005 ∧ mixFn 0xFFFFFFFF 0 = 0xFEFFFE6D ∧ mixFn 0x00000100 0 = 0x00019300 ∧
    (∀ y, mixFn 0x80000000 y = 0x80000000 ^^^ y) ∧ mixFn 0x12345678 0x9ABCDEF0 = 0xBAD8C018

/-- R164: `FOLD` completes at acceptance with `ACC = mix(ACC, OPB)`, and changes nothing else but the
status. -/
def Obligations.FoldWritesAccumulator : Prop :=
  ∀ s : State, s.core.busy = false →
    exec .fold s =
      .next
        { s with
          core :=
            { s.core with
              acc := (0x01000193 * s.core.acc) ^^^ s.core.opb
              done := true
              err := false
              errCode := 0 } }

/-- R162, R164: the host computes `fold4` with one write of `ACC` and three writes of `OPB`, each
followed by `FOLD`; after those seven host steps `ACC` is `fold4(w0, w1, w2, w3)`, the left-to-right fold
`mix(mix(mix(w0, w1), w2), w3)`, and beside it only `OPB` and the status have changed. -/
def Obligations.ThreeFoldsComputeFold4 : Prop :=
  ∀ (s : State) (w0 w1 w2 w3 : Word), s.core.busy = false →
    fold4 w0 w1 w2 w3 = mixFn (mixFn (mixFn w0 w1) w2) w3 ∧
    runSteps 7
        { s with
          host :=
            [wr .acc w0, wr .opb w1, issue .fold, wr .opb w2, issue .fold, wr .opb w3, issue .fold] } =
      .next
        { s with
          host := []
          core :=
            { s.core with
              acc := fold4 w0 w1 w2 w3
              opb := w3
              done := true
              err := false
              errCode := 0 } }

/-- R160, R161: `mix(x, y) = ((x * 16777619) mod 2^32) xor y`.  "For a fixed `y`, `x -> mix(x, y)` is a
bijection on 32-bit values ...; for a fixed `x`, `y -> mix(x, y)` is a bijection"; `mix` is not
commutative and not associative. -/
def Obligations.MixIsPrimeProductXorAndBijective : Prop :=
  (∀ x y : Word, (mixFn x y).toNat = (16777619 * x.toNat % 2 ^ 32) ^^^ y.toNat) ∧
    (∀ y, Function.Bijective fun x => mixFn x y) ∧ (∀ x, Function.Bijective fun y => mixFn x y) ∧
    (∃ x y, mixFn x y ≠ mixFn y x) ∧ ∃ x y z, mixFn (mixFn x y) z ≠ mixFn x (mixFn y z)

/-! ## Checks and errors -/

/-- R213, R214, R215, R216: a command's checks are made at its acceptance, in order, on the operand
registers as they are then.  If one fails, the first failing one is reported and the command changes
nothing but the status, and for `HASH` the result record, which is cleared; if none fails, no error is
reported. -/
def Obligations.FirstFailingCheckIsReported : Prop :=
  ∀ (i : Instr) (s : State), s.core.busy = false →
    (∀ e, firstError i s.core = some e →
      exec i s =
        .next
          { s with
            core :=
              { s.core with
                result := if i = .hash then Vector.replicate 8 0 else s.core.result
                mixHash := if i = .hash then Vector.replicate 8 0 else s.core.mixHash
                done := true
                err := true
                errCode := e.code } }) ∧
      (firstError i s.core = none →
        ∃ t, exec i s = .next t ∧ t.core.err = false ∧ t.core.errCode = 0)

/-- R211: the codes, and R215's order where several checks fail together: with an absurd rate and both
buffers absent `SPONGE` reports `E_RATE`, and with an output length above the digest size and both
buffers absent a digest reports `E_OUTLEN`; with the output buffer absent too, `E_NO_OUT` comes before
`E_NO_IN`. -/
def Obligations.SeveralFailingChecksReportTheFirst : Prop :=
  ∀ s : State, s.core.busy = false → s.core.bufCfg = 0 → 0 < s.core.inLen.toNat →
    0 < s.core.outLen.toNat →
    (200 ≤ s.core.rate.toNat → ∃ t, exec .sponge s = .next t ∧ t.core.status = 0x00000206) ∧
      (1 ≤ s.core.rate.toNat → s.core.rate.toNat < 200 →
        ∃ t, exec .sponge s = .next t ∧ t.core.status = 0x00000306) ∧
      (64 < s.core.outLen.toNat →
        (∃ t, exec .digest256 s = .next t ∧ t.core.status = 0x00000506) ∧
          ∃ t, exec .digest512 s = .next t ∧ t.core.status = 0x00000506) ∧
      (s.core.outLen.toNat ≤ 32 →
        (∃ t, exec .digest256 s = .next t ∧ t.core.status = 0x00000306) ∧
          ∃ t, exec .digest512 s = .next t ∧ t.core.status = 0x00000306)

/-- R218: "Re-issuing the same command with the same operand registers gives the same error": whatever
else has changed meanwhile, the command ends with the same code; issued again at once, it leaves the
machine exactly as it is. -/
def Obligations.ReissuedCommandFailsAgain : Prop :=
  ∀ (i : Instr) (s t : State), s.core.busy = false → exec i s = .next t → t.core.err = true →
    exec i t = .next t ∧
      ∀ s' : State, s'.core.busy = false → s.core.SameOperands s'.core →
        ∃ t', exec i s' = .next t' ∧ t'.core.err = true ∧ t'.core.errCode = t.core.errCode ∧
          t'.core.done = true ∧ t'.core.busy = false

/-- R213: "No error can be raised after acceptance": no step of the sequencer writes `ERR` or
`ERRCODE`. -/
def Obligations.SequencerRaisesNoError : Prop :=
  ∀ s t : State, sequencerStep s = .next t →
    t.core.err = s.core.err ∧ t.core.errCode = s.core.errCode

/-! ## What acceptance starts, and what it leaves alone -/

/-- R118: the acceptance of `PERMUTE` starts the PE at round 0 and changes nothing else but the
status. -/
def Obligations.PermuteAcceptanceStartsEngine : Prop :=
  ∀ s : State, s.core.busy = false →
    exec .permute s =
      .next
        { s with
          core := { s.core with peRun := true, rnd := 0, done := false, err := false, errCode := 0 } }

/-- R132, R139, R140, R141: when no check fails, a sponge-type command's acceptance zeroes `S`, samples
its operands into the working registers and starts the absorb phase, and changes nothing else but the
status: `SPONGE` with the rate and domain of its operand registers, the two digests with their fixed
ones. -/
def Obligations.SpongeAcceptanceStartsPass : Prop :=
  ∀ (s : State) (i : Instr) (r : BitVec 8) (d : Byte), s.core.busy = false →
    firstError i s.core = none →
    (i = .sponge ∧ r.toNat = s.core.rate.toNat ∧ d = s.core.domain) ∨
        (i = .digest256 ∧ r = 136 ∧ d = 0x01) ∨ (i = .digest512 ∧ r = 72 ∧ d = 0x01) →
      exec i s =
        .next
          { s with
            core :=
              { s.core with
                lanes := Vector.replicate 25 0
                rRate := r
                rDom := d
                src := .inp
                inPos := 0
                rem := s.core.inLen
                dst := .out
                outPos := 0
                orem := s.core.outLen
                scPhase := .absorb
                done := false
                err := false
                errCode := 0 } }

/-- R172: when no check fails, the acceptance of `HASH` clears the result record, loads the header and
the nonce into `SEED[0..9]` and leaves `SEED[10..15]`, takes the page count, and starts the expansion
pass; it changes nothing else but the status. -/
def Obligations.HashAcceptanceStartsExpansion : Prop :=
  ∀ s : State, s.core.busy = false → firstError .hash s.core = none →
    ∃ seed : Vector Word 16, ∃ pages : Word,
      (∀ k : Fin 8, seed[k.val] = s.core.hdr[k]) ∧ seed[8] = s.core.nonceLo ∧
        seed[9] = s.core.nonceHi ∧ (∀ w : Fin 16, 10 ≤ w.val → seed[w] = s.core.seed[w]) ∧
        pages.toNat * 128 = s.core.fullSizeHi.toNat * 2 ^ 32 + s.core.fullSizeLo.toNat ∧
        exec .hash s =
          .next
            { s with
              core :=
                { s.core with
                  result := Vector.replicate 8 0
                  mixHash := Vector.replicate 8 0
                  seed := seed
                  pages := pages
                  lanes := Vector.replicate 25 0
                  rRate := 72
                  rDom := 0x01
                  src := .seed40
                  inPos := 0
                  rem := 40
                  dst := .seed
                  outPos := 0
                  orem := 64
                  scPhase := .absorb
                  hoPhase := .tile
                  done := false
                  err := false
                  errCode := 0 } }

/-- R30, R93: the frame of every command's acceptance, whatever it answers next.  No byte of any memory
changes, nor the host's side; beside `DONE`, `ERR`, `ERRCODE`, `PERMUTE` changes at most `PE_RUN` and
`RND`; `MIX` and `FOLD` at most `ACC`; the three sponge-type commands at most `S`, `SC_PHASE` and the
sponge working registers; `HASH` at most those, `SEED`, `PAGES`, `HO_PHASE` and the result record. -/
def Obligations.AcceptanceFrame : Prop :=
  ∀ (i : Instr) (s t : State), exec i s = .next t →
    s.SameMemory t ∧ t.inMem = s.inMem ∧ t.outMem = s.outMem ∧ t.dset = s.dset ∧ t.host = s.host ∧
      t.reads = s.reads ∧ t.draws = s.draws ∧ t.doubt = s.doubt ∧ t.shadow = s.shadow ∧
      t.owed = s.owed ∧
      (i = .permute →
        t.core =
          { s.core with
            peRun := t.core.peRun, rnd := t.core.rnd, done := t.core.done, err := t.core.err
            errCode := t.core.errCode }) ∧
      (i = .mix ∨ i = .fold →
        t.core =
          { s.core with
            acc := t.core.acc, done := t.core.done, err := t.core.err, errCode := t.core.errCode }) ∧
      (i = .sponge ∨ i = .digest256 ∨ i = .digest512 →
        t.core =
          { s.core with
            lanes := t.core.lanes, scPhase := t.core.scPhase, rRate := t.core.rRate
            rDom := t.core.rDom, src := t.core.src, inPos := t.core.inPos, rem := t.core.rem
            dst := t.core.dst, outPos := t.core.outPos, orem := t.core.orem, done := t.core.done
            err := t.core.err, errCode := t.core.errCode }) ∧
      (i = .hash →
        t.core =
          { s.core with
            lanes := t.core.lanes, scPhase := t.core.scPhase, rRate := t.core.rRate
            rDom := t.core.rDom, src := t.core.src, inPos := t.core.inPos, rem := t.core.rem
            dst := t.core.dst, outPos := t.core.outPos, orem := t.core.orem, seed := t.core.seed
            pages := t.core.pages, hoPhase := t.core.hoPhase, result := t.core.result
            mixHash := t.core.mixHash, done := t.core.done, err := t.core.err
            errCode := t.core.errCode })

/-! ## The host's register interface -/

/-- R30: while BUSY a `RegWrite` of any offset, `CMD` included, "**is ignored**: it changes no state and
raises no error"; a read of `STATUS` returns it, with bit 0 set; a read of any other register returns
the free draw of that moment, and draws are not used twice.  No access changes the CORE or a
memory. -/
def Obligations.BusyRegisterAccesses : Prop :=
  ∀ (s : State) (a : RegAccess) (v : Word) (rest : List HostMove),
    s.core.busy = true → a.wellFormed = true →
      step { s with host := HostMove.regWrite a v :: rest } = .next { s with host := rest } ∧
        (a.offset = 0x004 →
          step { s with host := HostMove.regRead a :: rest } =
              .next { s with host := rest, reads := s.core.status :: s.reads } ∧
            s.core.status.getLsbD 0 = true) ∧
        (a.offset ≠ 0x004 →
          step { s with host := HostMove.regRead a :: rest } =
            .next
              { s with
                host := rest, reads := Config.busyRead s.draws :: s.reads, draws := s.draws + 1 })

/-- R30, R66: when not BUSY a `RegRead` returns the register's value and has no side effect on any
register or memory; in particular reading `STATUS` does not clear it.  R31, R33 to R37: the contents of each
register, at every offset that reaches it, each reserved offset included. -/
def Obligations.IdleRegisterReadHasNoSideEffect : Prop :=
  (∀ (s : State) (a : RegAccess) (r : Reg) (rest : List HostMove), s.core.busy = false →
    Reg.ofAccess a = some r →
      step { s with host := HostMove.regRead a :: rest } =
        .next { s with host := rest, reads := s.core.readReg r :: s.reads }) ∧
    ∀ c : CoreRegs,
      c.readReg .cmd = 0 ∧ c.readReg .reserved = 0 ∧ c.readReg .status = c.status ∧
        (c.readReg .bufCfg).toNat = c.bufCfg.toNat ∧ (c.readReg .domain).toNat = c.domain.toNat ∧
        c.readReg .rate = c.rate ∧ c.readReg .inLen = c.inLen ∧ c.readReg .outLen = c.outLen ∧
        c.readReg .opa = c.opa ∧ c.readReg .opb = c.opb ∧ c.readReg .acc = c.acc ∧
        c.readReg .nonceLo = c.nonceLo ∧ c.readReg .nonceHi = c.nonceHi ∧
        c.readReg .fullSizeLo = c.fullSizeLo ∧ c.readReg .fullSizeHi = c.fullSizeHi ∧
        c.readReg .dsLenLo = c.dsLenLo ∧ c.readReg .dsLenHi = c.dsLenHi ∧
        (∀ k : Fin 8, c.readReg (.hdr k) = c.hdr[k] ∧ c.readReg (.result k) = c.result[k] ∧
          c.readReg (.mixHash k) = c.mixHash[k]) ∧
        ∀ i : Fin 25,
          (c.lanes[i]).toNat = (c.readReg (.sHi i)).toNat * 2 ^ 32 + (c.readReg (.sLo i)).toNat

/-- R64: a register access is a move of the model exactly when it is a 32-bit access at a multiple of 4
in `0x000 .. 0x1FC`; any other is refused, BUSY or not, read or write. -/
def Obligations.OddRegisterAccessIsRefused : Prop :=
  ∀ a : RegAccess,
    (Reg.ofAccess a = none ↔ ¬(a.width = .w32 ∧ a.offset % 4 = 0 ∧ a.offset ≤ 0x1FC)) ∧
      ∀ (s : State) (v : Word) (rest : List HostMove), Reg.ofAccess a = none →
        step { s with host := HostMove.regRead a :: rest } = .refused .oddRegisterAccess ∧
          step { s with host := HostMove.regWrite a v :: rest } = .refused .oddRegisterAccess

/-- R31: each named register is reached at its offset, and at no other: the map is one to one on them.
An offset that reaches none is reserved. -/
def Obligations.RegisterMapIsOneToOne : Prop :=
  (∀ r : Reg, Reg.ofAccess r.access = some r) ∧
    (∀ (a : RegAccess) (r : Reg), Reg.ofAccess a = some r → r ≠ .reserved → a = r.access) ∧
    ∀ a : RegAccess, Reg.ofAccess a = some .reserved ↔
      a.wellFormed = true ∧
        ((0x0A0 ≤ a.offset ∧ a.offset ≤ 0x0FC) ∨ (0x1C8 ≤ a.offset ∧ a.offset ≤ 0x1FC))

/-- R31, R35, R37: what a `RegWrite` stores is what a `RegRead` then returns: a read/write register
returns the value in its implemented bits, a read-only register and a reserved offset are as before.  The
access is any that reaches the register. -/
def Obligations.RegisterReadsBackWhatWasWritten : Prop :=
  ∀ (s : State) (a : RegAccess) (r : Reg) (v : Word) (rest : List HostMove), s.core.busy = false →
    Reg.ofAccess a = some r → r ≠ .cmd →
    ∃ t, step { s with host := HostMove.regWrite a v :: rest } = .next t ∧
      t.core.readReg r =
        (if r.writableBits = 0 then s.core.readReg r else v &&& r.writableBits)

/-- R30, R36: a `RegWrite` of one register other than `CMD` leaves every other as it reads, one half of a
lane leaving the other half; no memory changes, the CORE stays idle, and the registers the host cannot
reach are as before. -/
def Obligations.RegisterWriteLeavesTheOthers : Prop :=
  ∀ (s : State) (a : RegAccess) (r q : Reg) (v : Word) (rest : List HostMove), s.core.busy = false →
    Reg.ofAccess a = some r → r ≠ .cmd → q ≠ r →
    ∃ t, step { s with host := HostMove.regWrite a v :: rest } = .next t ∧
      t = { s with host := rest, core := t.core } ∧ t.core.readReg q = s.core.readReg q ∧
      t.core.busy = false ∧ s.SameMemory t ∧ t.core.seed = s.core.seed ∧ t.core.mix = s.core.mix ∧
      t.core.rnd = s.core.rnd ∧ t.core.i = s.core.i ∧ t.core.k = s.core.k ∧
      t.core.rRate = s.core.rRate ∧ t.core.rDom = s.core.rDom ∧ t.core.src = s.core.src ∧
      t.core.inPos = s.core.inPos ∧ t.core.rem = s.core.rem ∧ t.core.dst = s.core.dst ∧
      t.core.outPos = s.core.outPos ∧ t.core.orem = s.core.orem ∧ t.core.pages = s.core.pages

/-- R32: the fields of `STATUS`. -/
def Obligations.StatusWordFields : Prop :=
  ∀ c : CoreRegs,
    c.status.getLsbD 0 = c.busy ∧ c.status.getLsbD 1 = c.done ∧ c.status.getLsbD 2 = c.err ∧
      c.status.extractLsb' 3 5 = 0 ∧ c.status.extractLsb' 8 8 = c.errCode ∧
      c.status.extractLsb' 16 16 = 0

/-- R94, R98: after `LDHDR h`, `LDNONCE n`, `LDSIZE f`, `LDDSLEN d` on an idle CORE, the operands the
commands assemble are `h`, `n`, `f`, `d`. -/
def Obligations.OperandScriptsAssemble : Prop :=
  ∀ (s : State) (h : List Byte) (n f d : BitVec 64), s.core.busy = false → h.length = 32 →
    ∃ t, runSteps 14 { s with host := ldHdr h ++ ldNonce n ++ ldSize f ++ ldDsLen d } = .next t ∧
      (List.range 32).map (wordByte t.core.hdr) = h ∧ t.core.nonce = n ∧ t.core.fullSize = f ∧
      t.core.dsLen = d

/-- R61, R241: the host's accesses to the memories while the CORE is idle.  A byte written is read back
and no other byte of any memory changes; a byte read is the byte there, but one that a reset has left
unspecified is a free draw until it is written (notes/assumptions/9.md).

R248, second point: a read, while BUSY, of a byte of `OUT` that the running command writes gives its old
value or the command's.  Before the command's write the read gives the old byte for now and is owed the
choice; the step that writes the byte may turn such a read into the byte written, and no step changes any
other read.  After it the read gives the byte there or the one the write replaced, which stays known until
the command ends (notes/assumptions/6.md).  The clauses after the third are these. -/
def Obligations.HostReadsBackWhatItWrote : Prop :=
  (∀ (s : State) (k : MemSpace) (a : Nat) (v : Byte) (rest : List HostMove),
    s.memoryCanonical → s.core.busy = false → s.provides k a = true →
    (∃ t, step { s with host := HostMove.memWrite k a v :: HostMove.memRead k a :: rest } = .next t ∧
      t.core = s.core ∧ t.peek k a = v ∧ (∀ j b, j ≠ k ∨ b ≠ a → t.peek j b = s.peek j b) ∧
      step t = .next { t with host := rest, reads := v.setWidth 32 :: s.reads }) ∧
    (k ≠ .out ∨ Doubt.covers s.doubt a = false →
      step { s with host := HostMove.memRead k a :: rest } =
        .next { s with host := rest, reads := (s.peek k a).setWidth 32 :: s.reads }) ∧
    (k = .out → Doubt.covers s.doubt a = true →
      step { s with host := HostMove.memRead k a :: rest } =
        .next
          { s with
            host := rest
            reads := (Config.abandonedOutByte s.draws).setWidth 32 :: s.reads
            draws := s.draws + 1 })) ∧
    (∀ (s : State) (a : Nat) (rest : List HostMove), s.provides .out a = true →
      s.core.writesOut a = true → Doubt.covers s.doubt a = false →
      (s.core.outPos.toNat ≤ a →
        step { s with host := HostMove.memRead .out a :: rest } =
          .next
            { s with
              host := rest
              reads := (s.peek .out a).setWidth 32 :: s.reads
              owed := (s.reads.length, a) :: s.owed }) ∧
        (a < s.core.outPos.toNat →
          ∃ b : Byte, (b = s.peek .out a ∨ Memory.find? s.shadow a = some b) ∧
            step { s with host := HostMove.memRead .out a :: rest } =
              .next
                { s with
                  host := rest, reads := b.setWidth 32 :: s.reads, draws := s.draws + 1 })) ∧
    (∀ (s t : State) (n : Nat), step s = .next t → n < s.reads.length →
      t.readNo n = s.readNo n ∨
        s.stepIsSequencers ∧
          ∃ a, (n, a) ∈ s.owed ∧ s.core.reaches .out a ∧
            t.readNo n = some ((laneByte s.core.lanes (a - s.core.outPos.toNat)).setWidth 32)) ∧
    (∀ (s t : State) (a : Nat), s.memoryCanonical → sequencerStep s = .next t → s.core.reaches .out a →
      (∀ n, (n, a) ∉ t.owed) ∧
        (Memory.find? s.outMem.raced a = none →
          t.peek .out a = laneByte s.core.lanes (a - s.core.outPos.toNat) ∧
            Memory.find? t.shadow a = some (s.peek .out a))) ∧
    ∀ (s t : State) (a : Nat), step s = .next t → t.core.busy = true → ¬s.hostWritesNext .out a →
      ¬(s.stepIsSequencers ∧ s.core.reaches .out a) →
      Memory.find? t.shadow a = Memory.find? s.shadow a ∧ ∀ n, (n, a) ∈ s.owed → (n, a) ∈ t.owed

/-! ## The Permutation Engine -/

/-- R112: the simultaneous form of Rho/Pi, lane by lane: destination, source, rotation; in coordinates,
the lane at `(x, y)` goes to `(y, (2x + 3y) mod 5)`, and every count but lane 0's is in 1..62. -/
def Obligations.RhoPiMovesEveryLane : Prop :=
  ∀ v : Vector Lane 25,
    ∀ row ∈ ([(0, 0, 0), (1, 6, 44), (2, 12, 43), (3, 18, 21), (4, 24, 14), (5, 3, 28), (6, 9, 20),
        (7, 10, 3), (8, 16, 45), (9, 22, 61), (10, 1, 1), (11, 7, 6), (12, 13, 25), (13, 19, 8),
        (14, 20, 18), (15, 4, 27), (16, 5, 36), (17, 11, 10), (18, 17, 15), (19, 23, 56),
        (20, 2, 62), (21, 8, 55), (22, 14, 39), (23, 15, 41), (24, 21, 2)] :
        List (Fin 25 × Fin 25 × Nat)),
      (rhoPi v)[row.1] = (v[row.2.1]).rotateLeft row.2.2 ∧
        row.1.val = row.2.1.val / 5 + 5 * ((2 * (row.2.1.val % 5) + 3 * (row.2.1.val / 5)) % 5) ∧
        (row.1 = 0 ∨ 1 ≤ row.2.2 ∧ row.2.2 ≤ 62)

/-- R111, R113: Theta and Chi at lane `(x, y)`, with `par` the five column parities of the state before
Theta. -/
def Obligations.ThetaAndChiByCoordinates : Prop :=
  ∀ (v : Vector Lane 25) (par : Fin 5 → Lane),
    (∀ x : Fin 5, par x =
      v[x.val] ^^^ v[x.val + 5] ^^^ v[x.val + 10] ^^^ v[x.val + 15] ^^^ v[x.val + 20]) →
    ∀ x y : Fin 5,
      (theta v)[x.val + 5 * y.val]'(by omega) =
          v[x.val + 5 * y.val]'(by omega) ^^^ (par (x + 4) ^^^ (par (x + 1)).rotateLeft 1) ∧
        (chi v)[x.val + 5 * y.val]'(by omega) =
          v[x.val + 5 * y.val]'(by omega) ^^^
            (~~~v[(x + 1 : Fin 5).val + 5 * y.val]'(by omega) &&&
              v[(x + 2 : Fin 5).val + 5 * y.val]'(by omega))

/-- R117: the PE round step, which has priority over every controller step (R26): it applies one round
and counts; at round 23 it stops the engine, and ends the command when that was a `PERMUTE`.  R114: Iota
XORs the constant of its round into lane 0 and leaves the other 24. -/
def Obligations.EngineStepAppliesOneRound : Prop :=
  (∀ s : State, s.core.peRun = true →
    ∃ t, sequencerStep s = .next t ∧ s.SameMemory t ∧
      t.core =
        { s.core with
          lanes := iota (chi (rhoPi (theta s.core.lanes))) s.core.rnd
          peRun := decide (s.core.rnd ≠ 23)
          rnd := if s.core.rnd = 23 then 0 else s.core.rnd + 1
          done :=
            s.core.done ||
              decide (s.core.rnd = 23 ∧ s.core.scPhase = .idle ∧ s.core.hoPhase = .idle) }) ∧
    ∀ v : Vector Lane 25,
      (∀ row ∈
        ([(0, 0x0000000000000001), (1, 0x0000000000008082), (2, 0x800000000000808A),
          (3, 0x8000000080008000), (4, 0x000000000000808B), (5, 0x0000000080000001),
          (6, 0x8000000080008081), (7, 0x8000000000008009), (8, 0x000000000000008A),
          (9, 0x0000000000000088), (10, 0x0000000080008009), (11, 0x000000008000000A),
          (12, 0x000000008000808B), (13, 0x800000000000008B), (14, 0x8000000000008089),
          (15, 0x8000000000008003), (16, 0x8000000000008002), (17, 0x8000000000000080),
          (18, 0x000000000000800A), (19, 0x800000008000000A), (20, 0x8000000080008081),
          (21, 0x8000000000008080), (22, 0x0000000080000001), (23, 0x8000000080008008)] :
          List (Fin 24 × Lane)),
        (iota v row.1)[0] = v[0] ^^^ row.2) ∧
      ∀ (r : Fin 24) (i : Fin 25), i ≠ 0 → (iota v r)[i] = v[i]

/-- R118: the net effect of `PERMUTE`, from its acceptance to its end 24 steps later (R249):
`S <- F(S)`, `DONE`, and nothing else; no memory changes. -/
def Obligations.PermuteAppliesF : Prop :=
  ∀ s : State, s.core.busy = false → s.unattended →
    ∃ u t, exec .permute s = .next u ∧ u.core.busy = true ∧ runSteps 24 u = .next t ∧
      t.core =
        { s.core with
          lanes := keccakF s.core.lanes, rnd := 0, done := true, err := false, errCode := 0 } ∧
      s.SameMemory t ∧ t.reads = s.reads

/-! ## The Sponge Controller -/

/-- R133: a full block is absorbed: the first `R_RATE` bytes of `S` take the next input bytes, the
counts move, and the PE is started; with less than a block left the SC moves to its pad phase.  The
statement is for input from `IN`, whole and not raced. -/
def Obligations.AbsorbStepXorsOneBlock : Prop :=
  ∀ s : State, s.core.peRun = false → s.core.scPhase = .absorb → s.core.src = .inp → s.quiet →
    s.core.inPos.toNat + s.core.rem.toNat < 2 ^ 32 → s.core.rRate.toNat ≤ 199 →
    s.holds .inp (s.core.inPos.toNat + s.core.rem.toNat) →
    (s.core.rRate.toNat ≤ s.core.rem.toNat →
      ∃ t, sequencerStep s = .next t ∧ s.SameMemory t ∧
        (∀ k, k < 200 →
          laneByte t.core.lanes k =
            laneByte s.core.lanes k ^^^
              (if k < s.core.rRate.toNat then s.peek .inp (s.core.inPos.toNat + k) else 0)) ∧
        t.core.inPos.toNat = s.core.inPos.toNat + s.core.rRate.toNat ∧
        t.core.rem.toNat = s.core.rem.toNat - s.core.rRate.toNat ∧
        t.core =
          { s.core with
            lanes := t.core.lanes, inPos := t.core.inPos, rem := t.core.rem, peRun := true
            rnd := 0 }) ∧
      (s.core.rem.toNat < s.core.rRate.toNat →
        sequencerStep s = .next { s with core := { s.core with scPhase := .pad } })

/-- R134: the pad step, byte by byte.  Where the domain byte and `0x80` name one byte
(`REM = R_RATE - 1`) both XORs take effect.  The statement is for input from `IN`, whole and not
raced. -/
def Obligations.PadStepXorsDomainLastBitAndTail : Prop :=
  ∀ s : State, s.core.peRun = false → s.core.scPhase = .pad → s.core.src = .inp → s.quiet →
    s.core.inPos.toNat + s.core.rem.toNat < 2 ^ 32 → s.core.rem.toNat < s.core.rRate.toNat →
    s.core.rRate.toNat ≤ 199 → s.holds .inp (s.core.inPos.toNat + s.core.rem.toNat) →
    ∃ t, sequencerStep s = .next t ∧ s.SameMemory t ∧
      (∀ k, k < 200 →
        laneByte t.core.lanes k =
          laneByte s.core.lanes k ^^^ (if k = s.core.rem.toNat then s.core.rDom else 0) ^^^
            (if k = s.core.rRate.toNat - 1 then 0x80 else 0) ^^^
            (if k < s.core.rem.toNat then s.peek .inp (s.core.inPos.toNat + k) else 0)) ∧
      t.core.inPos.toNat = s.core.inPos.toNat + s.core.rem.toNat ∧
      t.core =
        { s.core with
          lanes := t.core.lanes, inPos := t.core.inPos, rem := 0, peRun := true, rnd := 0
          scPhase := .squeeze }

/-- R135, R203, R206: one squeeze step with its output going to `OUT`, whole and not raced.  It stores
`SB[0], SB[1], ...` at `OUTPOS, OUTPOS + 1, ...`: a full block of `R_RATE` bytes, or the `OREM` bytes
that remain; every other byte of `OUT` reads as before, and so does every byte of the other memories.
A full block starts the PE again; the final chunk ends the phase. -/
def Obligations.SqueezeStepStoresStateBytes : Prop :=
  ∀ s : State, s.core.peRun = false → s.core.scPhase = .squeeze → s.core.dst = .out → s.quiet →
    s.memoryCanonical → s.core.outPos.toNat + s.core.orem.toNat < 2 ^ 32 →
    1 ≤ s.core.rRate.toNat → s.core.rRate.toNat ≤ 199 →
    s.holds .out (s.core.outPos.toNat + s.core.orem.toNat) →
    ∃ t n, n = min s.core.rRate.toNat s.core.orem.toNat ∧ sequencerStep s = .next t ∧
      (∀ a, t.peek .out a =
        if s.core.outPos.toNat ≤ a ∧ a < s.core.outPos.toNat + n then
          laneByte s.core.lanes (a - s.core.outPos.toNat)
        else s.peek .out a) ∧
      (∀ a, t.peek .inp a = s.peek .inp a ∧ t.peek .dset a = s.peek .dset a) ∧
      t.core.outPos.toNat = s.core.outPos.toNat + n ∧ t.core.orem.toNat = s.core.orem.toNat - n ∧
      (s.core.rRate.toNat ≤ s.core.orem.toNat →
        t.core =
          { s.core with
            outPos := t.core.outPos, orem := t.core.orem, peRun := true, rnd := 0 }) ∧
      (s.core.orem.toNat < s.core.rRate.toNat →
        t.core = { s.core with outPos := t.core.outPos, orem := 0, scPhase := .clear })

/-- R136: the clear step zeroes `S` and idles the SC, and ends the command unless the pass was the
HO's. -/
def Obligations.ClearStepZeroesLanes : Prop :=
  ∀ s : State, s.core.peRun = false → s.core.scPhase = .clear →
    ∃ t, sequencerStep s = .next t ∧ s.SameMemory t ∧
      t.core =
        { s.core with
          lanes := Vector.replicate 25 0
          scPhase := .idle
          done := s.core.done || decide (s.core.hoPhase = .idle) }

/-- R138: the steps compute the function.  From the start of a pass (R132) of any of the routes, with
`1 <= r <= 199`, its input bytes `m` there to be read and not raced, and room for its output, the
machine left to itself ends the pass after `25 * ((n div r) + 1 + (L div r)) + 3` steps (R249), one of
them each of the `(n div r) + 1 + (L div r)` runs of the PE: the bytes at output offsets `0 .. L-1` are
`Sponge(L, m, r, d)`, no byte beyond them has changed, `S` is zero and the PE at rest.  Input and output
may be the same buffer. -/
def Obligations.SpongePassComputesSponge : Prop :=
  ∀ (s : State) (r : BitVec 8) (d : Byte) (src : Source) (n : Word) (dst : Dest) (l : Word)
    (m : List Byte) (c : CoreRegs),
    s.core = startSponge r d src n dst l c → c.peRun = false → s.unattended → s.quiet →
    s.memoryCanonical → 1 ≤ r.toNat → r.toNat ≤ 199 → srcBytes s 0 n.toNat = some m →
    l.toNat ≤ dst.capacity → (dst = .out → s.holds .out l.toNat) →
    ∃ t, runSteps (25 * (n.toNat / r.toNat + 1 + l.toNat / r.toNat) + 3) s = .next t ∧
      (∀ a, t.outputByte dst a =
        if a < l.toNat then (spongeFn l.toNat m r.toNat d).getD a 0 else s.outputByte dst a) ∧
      t.core =
        { s.core with
          lanes := Vector.replicate 25 0
          rnd := 0
          scPhase := .idle
          inPos := n
          rem := 0
          outPos := l
          orem := 0
          seed := t.core.seed
          result := t.core.result
          done := s.core.done || decide (c.hoPhase = .idle) } ∧
      (dst ≠ .seed → t.core.seed = s.core.seed) ∧ (dst ≠ .result → t.core.result = s.core.result) ∧
      (∀ a, t.peek .inp a = s.peek .inp a ∧ t.peek .dset a = s.peek .dset a) ∧
      (dst ≠ .out → ∀ a, t.peek .out a = s.peek .out a)

/-- R139: the net effect of `SPONGE` when its checks pass: `OUT[0..OUTLEN-1]` is
`Sponge(OUTLEN, IN[0..INLEN-1], RATE, DOMAIN)`, the bytes at `OUTLEN` and above are unchanged, `S` is
zero, `DONE` is set without error. -/
def Obligations.SpongeCommandWritesSpongeOutput : Prop :=
  ∀ s : State, s.core.busy = false → s.unattended → s.quiet → s.memoryCanonical →
    firstError .sponge s.core = none → s.holds .inp s.core.inLen.toNat →
    s.holds .out s.core.outLen.toNat →
    ∃ u t, exec .sponge s = .next u ∧
      runSteps
          (25 * (s.core.inLen.toNat / s.core.rate.toNat + 1 +
            s.core.outLen.toNat / s.core.rate.toNat) + 3) u = .next t ∧
      (∀ a, t.peek .out a =
        if a < s.core.outLen.toNat then
          (spongeFn s.core.outLen.toNat (s.bytes .inp s.core.inLen.toNat) s.core.rate.toNat
            s.core.domain).getD a 0
        else s.peek .out a) ∧
      (∀ a, t.peek .inp a = s.peek .inp a ∧ t.peek .dset a = s.peek .dset a) ∧
      t.core.lanes = Vector.replicate 25 0 ∧ t.core.busy = false ∧ t.core.done = true ∧
      t.core.err = false ∧ t.core.errCode = 0 ∧ s.core.SameOperands t.core ∧
      t.core.seed = s.core.seed ∧ t.core.mix = s.core.mix ∧ t.core.acc = s.core.acc ∧
      t.core.result = s.core.result ∧ t.core.mixHash = s.core.mixHash

/-- R140, R141: the net effect of the two digests when their checks pass: `OUT[0..OUTLEN-1]` is the
first `OUTLEN` bytes of `Keccak256`, or `Keccak512`, of `IN[0..INLEN-1]`, after
`25 * ((INLEN div rate) + 1) + 3` steps (R249; the squeeze never starts the PE). -/
def Obligations.DigestCommandsWriteKeccakDigests : Prop :=
  ∀ (s : State) (i : Instr) (digest : List Byte) (r : Nat), s.core.busy = false → s.unattended →
    s.quiet → s.memoryCanonical → firstError i s.core = none →
    s.holds .inp s.core.inLen.toNat → s.holds .out s.core.outLen.toNat →
    (i = .digest256 ∧ r = 136 ∧ digest = keccak256 (s.bytes .inp s.core.inLen.toNat)) ∨
        (i = .digest512 ∧ r = 72 ∧ digest = keccak512 (s.bytes .inp s.core.inLen.toNat)) →
    ∃ u t, exec i s = .next u ∧
      runSteps (25 * (s.core.inLen.toNat / r + 1) + 3) u = .next t ∧
      (∀ a, t.peek .out a =
        if a < s.core.outLen.toNat then digest.getD a 0 else s.peek .out a) ∧
      (∀ a, t.peek .inp a = s.peek .inp a ∧ t.peek .dset a = s.peek .dset a) ∧
      t.core.lanes = Vector.replicate 25 0 ∧ t.core.busy = false ∧ t.core.done = true ∧
      t.core.err = false ∧ t.core.errCode = 0 ∧ s.core.SameOperands t.core ∧
      t.core.seed = s.core.seed ∧ t.core.mix = s.core.mix ∧ t.core.acc = s.core.acc ∧
      t.core.result = s.core.result ∧ t.core.mixHash = s.core.mixHash

/-- R206, R142: "A truncated digest (`OUTLEN` below the nominal size) is a prefix of the full one": a
shorter output of `Sponge` is the beginning of a longer one, for any rate. -/
def Obligations.ShorterSpongeOutputIsBeginning : Prop :=
  ∀ (l l' r : Nat) (m : List Byte) (d : Byte), 1 ≤ r → r ≤ 199 → l ≤ l' →
    spongeFn l m r d = (spongeFn l' m r d).take l ∧ (spongeFn l m r d).length = l

/-! ## The Hash Orchestrator -/

/-- R68, R176, R178: with `PAGES >= 1` the page index of a round is below `PAGES`, so each of the 128
bytes it fetches is below `128 * PAGES`, which is `FULLSIZE`. -/
def Obligations.FetchesStayInsideThePages : Prop :=
  ∀ (pages s0 m : Word) (i j b : Nat), pages ≠ 0 → j < 2 → b < 64 →
    (pageIndex pages s0 i m).toNat =
        (((16777619 * (s0 ^^^ BitVec.ofNat 32 i).toNat) % 2 ^ 32) ^^^ m.toNat) % pages.toNat ∧
      blockAddr (pageIndex pages s0 i m) j + b < 128 * pages.toNat

/-- R175, R177: one access round, with the page there to be read and not raced: every mix word `w` becomes
`mix(MIX[w], LE32(DSET[128 * page_index + 4 * w ..]))`, the page index taken from `SEED[0]`, `I` and
`MIX[I mod 32]` as they were; the round is counted, and the 64th moves on to the fold. -/
def Obligations.AccessRoundMixesOnePage : Prop :=
  ∀ s : State, s.core.peRun = false → s.core.scPhase = .idle → s.core.hoPhase = .access →
    s.core.pages ≠ 0 → s.quiet → s.holds .dset (128 * s.core.pages.toNat) →
    ∃ t page, page = (pageIndex s.core.pages s.core.seed[0] s.core.i.val
        (s.core.mix[s.core.i.val % 32])).toNat ∧
      sequencerStep s = .next t ∧ s.SameMemory t ∧
      (∀ w : Fin 32, t.core.mix[w] =
        (0x01000193 * s.core.mix[w]) ^^^
          wordOfBytes (s.peek .dset (128 * page + 4 * w.val))
            (s.peek .dset (128 * page + 4 * w.val + 1)) (s.peek .dset (128 * page + 4 * w.val + 2))
            (s.peek .dset (128 * page + 4 * w.val + 3))) ∧
      t.core =
        { s.core with
          mix := t.core.mix
          i := if s.core.i = 63 then 63 else s.core.i + 1
          k := if s.core.i = 63 then 0 else s.core.k
          hoPhase := if s.core.i = 63 then .fold else .access }

/-- R179, R185: the eight fold steps, in place: each compressed word is the `fold4` of its group of the
mix as it was before the first of them, `MIX[8..31]` stay, and `ACC` ends as the last. -/
def Obligations.EightFoldsCompressInPlace : Prop :=
  ∀ s : State, s.unattended → s.core.peRun = false → s.core.scPhase = .idle →
    s.core.hoPhase = .fold → s.core.k = 0 →
    ∃ t, runSteps 8 s = .next t ∧ s.SameMemory t ∧
      (∀ k : Fin 8, t.core.mix[k.val] =
        fold4 (s.core.mix[4 * k.val]) (s.core.mix[4 * k.val + 1]) (s.core.mix[4 * k.val + 2])
          (s.core.mix[4 * k.val + 3])) ∧
      (∀ w : Fin 32, 8 ≤ w.val → t.core.mix[w] = s.core.mix[w]) ∧
      t.core =
        { s.core with mix := t.core.mix, acc := t.core.mix[7], k := 7, hoPhase := .final }

/-- R174, R180, R181: the tile step copies `SEED` twice into `MIX` and starts the access rounds; the
final step gives `MIXHASHk = MIX[k]` and starts the second pass with rate 136 over the 96 bytes of
`SEED` and `MIX[0..7]`, to `RESULT`; the end step idles the HO and sets `DONE`. -/
def Obligations.TileFinalAndEndSteps : Prop :=
  ∀ s : State, s.core.peRun = false → s.core.scPhase = .idle →
    (s.core.hoPhase = .tile →
      ∃ mix : Vector Word 32,
        (∀ w : Fin 16, mix[w.val] = s.core.seed[w] ∧ mix[w.val + 16] = s.core.seed[w]) ∧
          sequencerStep s =
            .next { s with core := { s.core with mix := mix, i := 0, hoPhase := .access } }) ∧
      (s.core.hoPhase = .final →
        ∃ mh : Vector Word 8, (∀ k : Fin 8, mh[k] = s.core.mix[k.val]) ∧
          sequencerStep s =
            .next
              { s with
                core :=
                  { s.core with
                    mixHash := mh
                    lanes := Vector.replicate 25 0
                    rRate := 136
                    rDom := 0x01
                    src := .seedMix96
                    inPos := 0
                    rem := 96
                    dst := .result
                    outPos := 0
                    orem := 32
                    scPhase := .absorb
                    hoPhase := .finish } }) ∧
      (s.core.hoPhase = .finish →
        ∃ t, sequencerStep s = .next t ∧ s.SameMemory t ∧ t.core.busy = false ∧
          t.core = { s.core with hoPhase := .idle, done := true })

/-- R173: the expansion pass.  28 steps after a `HASH` that passes its checks is accepted,
`SEEDB[0..63]` is `Keccak512` of the header and the nonce, `S` is zero and the tile step is next. -/
def Obligations.ExpansionPassFillsSeed : Prop :=
  ∀ s : State, s.core.busy = false → s.unattended → s.quiet → s.memoryCanonical →
    firstError .hash s.core = none →
    ∃ u t, exec .hash s = .next u ∧ runSteps 28 u = .next t ∧
      (List.range 64).map (wordByte t.core.seed) =
        keccak512 ((List.range 32).map (wordByte s.core.hdr) ++ bytes64 s.core.nonce) ∧
      t.core.lanes = Vector.replicate 25 0 ∧ t.core.scPhase = .idle ∧ t.core.peRun = false ∧
      t.core.hoPhase = .tile ∧ s.SameMemory t

/-- R182, R183: the net effect of `HASH` when no check fails, 131 steps after its acceptance (R249): the
result record is `Hash(HDRB, NONCE, FULLSIZE, DSET)`, `SEED` holds the expanded seed, `MIX[0..7]` the
compressed words, `ACC = MIX[7]`, `S` is zero, `PAGES = FULLSIZE div 128`, `DONE` is set without error;
the operand registers and all memories are unchanged. -/
def Obligations.HashCommandComputesHash : Prop :=
  ∀ s : State, s.core.busy = false → s.unattended → s.quiet → s.memoryCanonical →
    firstError .hash s.core = none → s.holds .dset s.core.fullSize.toNat →
    ∃ u t pages, exec .hash s = .next u ∧ runSteps 131 u = .next t ∧
      pages = BitVec.ofNat 32 (s.core.fullSize.toNat / 128) ∧
      ((List.range 32).map (wordByte t.core.result), (List.range 32).map (wordByte t.core.mixHash)) =
        hashFn ((List.range 32).map (wordByte s.core.hdr)) s.core.nonce pages (s.peek .dset) ∧
      (List.range 64).map (wordByte t.core.seed) =
        hashSeed ((List.range 32).map (wordByte s.core.hdr)) s.core.nonce ∧
      (∀ k : Fin 8, t.core.mix[k.val] = t.core.mixHash[k]) ∧ t.core.acc = t.core.mix[7] ∧
      t.core.lanes = Vector.replicate 25 0 ∧ t.core.pages = pages ∧ t.core.busy = false ∧
      t.core.done = true ∧ t.core.err = false ∧ t.core.errCode = 0 ∧
      s.core.SameOperands t.core ∧ s.SameMemory t

/-- R184, *Determinism*: two invocations with the same header, nonce, size and dataset give the same
record, whatever earlier commands left in every other register and memory; `DSET` bytes at `FULLSIZE`
and above have no influence (R68, R246). -/
def Obligations.HashDependsOnItsInputsOnly : Prop :=
  ∀ s s' : State, s.core.busy = false → s'.core.busy = false → s.unattended →
    s'.unattended → s.quiet → s'.quiet → s.memoryCanonical → s'.memoryCanonical →
    firstError .hash s.core = none → firstError .hash s'.core = none →
    s.holds .dset s.core.fullSize.toNat → s'.holds .dset s.core.fullSize.toNat →
    s'.core.hdr = s.core.hdr → s'.core.nonce = s.core.nonce →
    s'.core.fullSize = s.core.fullSize →
    (∀ a, a < s.core.fullSize.toNat → s'.peek .dset a = s.peek .dset a) →
    ∃ u u' t t', exec .hash s = .next u ∧ runSteps 131 u = .next t ∧
      exec .hash s' = .next u' ∧ runSteps 131 u' = .next t' ∧ t.core.done = true ∧ t'.core.done = true ∧
      t'.core.result = t.core.result ∧ t'.core.mixHash = t.core.mixHash

/-! ## Invariants of every step -/

/-- The memories keep their canonical form, and so does the bookkeeping of R248.  The form is the model's
own choice (notes/assumptions/1.md). -/
def Obligations.EveryStepKeepsMemoryCanonical : Prop :=
  ∀ s t : State, step s = .next t →
    (s.memoryCanonical → t.memoryCanonical) ∧ (s.shadowCanonical → t.shadowCanonical)

/-- An idle CORE has no race pending, no byte with two values and no read owed a choice (R248 is about a
running command). -/
def Obligations.EveryStepKeepsRacesToBusy : Prop :=
  ∀ s t : State, s.racesOnlyWhileBusy → step s = .next t → t.racesOnlyWhileBusy

/-- R32: its invariants hold along every run, and no reserved error code is produced (R211). -/
def Obligations.EveryStepKeepsStatusConsistent : Prop :=
  ∀ s t : State, s.core.StatusConsistent → step s = .next t → t.core.StatusConsistent

/-- R24, R25, R27, R134, R178: the sequencer's registers stay in their ranges and in step with each
other. -/
def Obligations.EveryStepKeepsSequencerSound : Prop :=
  ∀ s t : State, s.core.SequencerSound → step s = .next t → t.core.SequencerSound

/-! ## Rules of the whole machine -/

/-- R29, R61, R65: the CORE never writes an operand register, `IN` or `DSET`; and only a squeeze step
writes `OUT`.  What the host has read stays, but for the reads R248 still owes a choice
(notes/assumptions/6.md). -/
def Obligations.SequencerLeavesOperandsAndInputs : Prop :=
  ∀ s t : State, sequencerStep s = .next t →
    s.core.SameOperands t.core ∧ (∀ a, t.peek .inp a = s.peek .inp a) ∧
      (∀ a, t.peek .dset a = s.peek .dset a) ∧
      (s.core.peRun = true ∨ s.core.scPhase ≠ .squeeze ∨ s.core.dst ≠ .out →
        ∀ a, t.peek .out a = s.peek .out a) ∧
      t.host = s.host ∧ t.reads.length = s.reads.length ∧
      ∀ n, t.readNo n = s.readNo n ∨ ∃ a, (n, a) ∈ s.owed

/-- R22, R23, R28: only `HASH` writes `SEED`, `MIX` and the result record, and of the commands that run
only `HASH` writes `ACC`: no sequencer step changes them while the HO is idle, in any state a run can
reach; and the result record changes only in the final step and while the second pass runs. -/
def Obligations.OnlyHashWritesRecordAndBuffers : Prop :=
  ∀ s t : State, s.core.SequencerSound → sequencerStep s = .next t →
    (s.core.hoPhase = .idle →
      t.core.seed = s.core.seed ∧ t.core.mix = s.core.mix ∧ t.core.acc = s.core.acc ∧
        t.core.result = s.core.result ∧ t.core.mixHash = s.core.mixHash) ∧
      (s.core.hoPhase ≠ .finish → t.core.result = s.core.result) ∧
      (s.core.hoPhase ≠ .final → t.core.mixHash = s.core.mixHash)

/-- R74: where every memory covers its whole address space no access of the CORE fails: in a state a run
can reach the sequencer's step answers a next state. -/
def Obligations.SequencerNeverStopsOnWholeMemories : Prop :=
  ∀ s : State, s.wholeMemories → s.core.SequencerSound → ∃ t, sequencerStep s = .next t

/-- R220, R249: "Every command terminates": from any state a run can reach, with whole memories and the
host making no further move, the CORE is idle, with `DONE` set, after finitely many steps. -/
def Obligations.EveryCommandTerminates : Prop :=
  ∀ s : State, s.wholeMemories → s.core.SequencerSound → s.unattended → s.core.busy = true →
    ∃ n t, runSteps n s = .next t ∧ t.core.busy = false ∧ t.core.done = true

/-- R74, R244: the sequencer stops exactly where a byte its step reaches is not there (a byte of the block
absorbed, of the tail padded, of the block or rest squeezed, of the two word-blocks fetched), and then by
the name of that memory; it is never refused. -/
def Obligations.SequencerStopsOnlyWhereMemoryIsMissing : Prop :=
  ∀ s : State,
    (∀ f, sequencerStep s = .fault f ↔
      ∃ k a, f = .memoryStuck k ∧ s.core.reaches k a ∧ s.provides k a = false) ∧
      ∀ r, sequencerStep s ≠ .refused r

/-! ## Races between the host and a running command (R248) -/

/-- R248, first point: a byte of `IN` or `DSET` that the host writes while a command that reads the space
runs reads, from then on, as the old byte or the new one; any other byte as before.  The clauses: what the
host's write does, the first of a byte or a later one; what a read by the CORE returns; that while the
command runs no step but another host write of the byte changes either value; and that a step which reads
uses its draw up, so that the choice is "made independently at each read".  The old byte is the one that
stood there before the host's first write of it during the command (notes/assumptions/7.md). -/
def Obligations.RacedReadIsOldOrNew : Prop :=
  (∀ (s : State) (k : MemSpace) (a : Nat) (v : Byte) (rest : List HostMove),
    s.memoryCanonical → s.provides k a = true →
    (k = .inp ∧ s.core.readsIn = true) ∨ (k = .dset ∧ s.core.readsDset = true) →
    ∃ t, step { s with host := HostMove.memWrite k a v :: rest } = .next t ∧
      t.core = s.core ∧ t.host = rest ∧ t.draws = s.draws ∧ t.peek k a = v ∧
      Memory.find? (t.space k).raced a =
        some ((Memory.find? (s.space k).raced a).getD (s.peek k a)) ∧
      ∀ j b, j ≠ k ∨ b ≠ a →
        t.peek j b = s.peek j b ∧ t.provides j b = s.provides j b ∧
          Memory.find? (t.space j).raced b = Memory.find? (s.space j).raced b) ∧
    (∀ (s : State) (k : MemSpace) (a : Nat), s.provides k a = true →
      s.coreRead k a = some (s.peek k a) ∨
        ∃ old, Memory.find? (s.space k).raced a = some old ∧ s.coreRead k a = some old) ∧
    (∀ (s t : State) (k : MemSpace) (a : Nat), k ≠ .out → step s = .next t → t.core.busy = true →
      ¬s.hostWritesNext k a →
      t.peek k a = s.peek k a ∧ Memory.find? (t.space k).raced a = Memory.find? (s.space k).raced a) ∧
    ∀ (s t : State) (k : MemSpace) (a : Nat), k ≠ .out → s.core.reaches k a → sequencerStep s = .next t →
      t.draws = s.draws + 1

/-- R248, third point: a byte of `OUT` that the host writes while the command that is to write it runs
ends, at the command's write, as the host's value or the command's; no other byte changes.  The clauses: a
host write before the command's; the two writes one after the other; the step of the sequencer that writes
the byte, in any state; that while the command runs nothing but these two writes changes the byte; and a
host write after the command's, where the choice falls at once.  Of the two values the one that does not
stay is the other one a host read may give.  When the choice falls, and that each of several host writes
after the command's chooses against the byte then stored, is the model's own (notes/assumptions/8.md). -/
def Obligations.RacedOutputIsHostsOrCommands : Prop :=
  (∀ (s : State) (a : Nat) (v w : Byte) (rest : List HostMove),
    s.memoryCanonical → s.core.writesOut a = true → s.core.outPos.toNat ≤ a →
    s.provides .out a = true →
    ∃ u t, step { s with host := HostMove.memWrite .out a v :: rest } = .next u ∧ u.core = s.core ∧
      u.host = rest ∧ u.peek .out a = v ∧ Memory.find? u.outMem.raced a = some v ∧
      (∀ j b, j ≠ .out ∨ b ≠ a →
        u.peek j b = s.peek j b ∧ Memory.find? (u.space j).raced b = Memory.find? (s.space j).raced b) ∧
      u.writeOut a w = some t ∧ (t.peek .out a = v ∨ t.peek .out a = w) ∧
      ∀ j b, j ≠ .out ∨ b ≠ a → t.peek j b = s.peek j b) ∧
    (∀ (s t : State) (a : Nat), s.memoryCanonical → sequencerStep s = .next t →
      (s.core.reaches .out a →
        (t.peek .out a = laneByte s.core.lanes (a - s.core.outPos.toNat) ∧
            Memory.find? t.shadow a = some (s.peek .out a)) ∨
          (Memory.find? s.outMem.raced a ≠ none ∧ t.peek .out a = s.peek .out a ∧
            Memory.find? t.shadow a = some (laneByte s.core.lanes (a - s.core.outPos.toNat)))) ∧
        (¬s.core.reaches .out a → t.peek .out a = s.peek .out a)) ∧
    (∀ (s t : State) (a : Nat), step s = .next t → t.core.busy = true → ¬s.hostWritesNext .out a →
      ¬(s.stepIsSequencers ∧ s.core.reaches .out a) →
      t.peek .out a = s.peek .out a ∧ Memory.find? t.outMem.raced a = Memory.find? s.outMem.raced a) ∧
    ∀ (s : State) (a : Nat) (v : Byte) (rest : List HostMove), s.memoryCanonical →
      s.core.writesOut a = true → a < s.core.outPos.toNat → s.provides .out a = true →
      ∃ u, step { s with host := HostMove.memWrite .out a v :: rest } = .next u ∧ u.core = s.core ∧
        u.host = rest ∧
        ((u.peek .out a = v ∧ Memory.find? u.shadow a = some (s.peek .out a)) ∨
          (u.peek .out a = s.peek .out a ∧ Memory.find? u.shadow a = some v)) ∧
        ∀ j b, j ≠ .out ∨ b ≠ a → u.peek j b = s.peek j b
end

