-- ==== Sys2Proof/Laws/State.lean ====
section
/-! SUPPORT. One lemma per field per shared update of the state, each true by unfolding, for simp. -/

namespace Sys2Proof.Machine

/-! ## Updates of the CORE's registers -/

/-! ### `clearStatus` -/
@[simp] theorem CoreRegs.clearStatus_lanes (c : CoreRegs) : (c.clearStatus).lanes = c.lanes := rfl
@[simp] theorem CoreRegs.clearStatus_seed (c : CoreRegs) : (c.clearStatus).seed = c.seed := rfl
@[simp] theorem CoreRegs.clearStatus_mix (c : CoreRegs) : (c.clearStatus).mix = c.mix := rfl
@[simp] theorem CoreRegs.clearStatus_opa (c : CoreRegs) : (c.clearStatus).opa = c.opa := rfl
@[simp] theorem CoreRegs.clearStatus_opb (c : CoreRegs) : (c.clearStatus).opb = c.opb := rfl
@[simp] theorem CoreRegs.clearStatus_acc (c : CoreRegs) : (c.clearStatus).acc = c.acc := rfl
@[simp] theorem CoreRegs.clearStatus_peRun (c : CoreRegs) : (c.clearStatus).peRun = c.peRun := rfl
@[simp] theorem CoreRegs.clearStatus_rnd (c : CoreRegs) : (c.clearStatus).rnd = c.rnd := rfl
@[simp] theorem CoreRegs.clearStatus_scPhase (c : CoreRegs) : (c.clearStatus).scPhase = c.scPhase := rfl
@[simp] theorem CoreRegs.clearStatus_hoPhase (c : CoreRegs) : (c.clearStatus).hoPhase = c.hoPhase := rfl
@[simp] theorem CoreRegs.clearStatus_i (c : CoreRegs) : (c.clearStatus).i = c.i := rfl
@[simp] theorem CoreRegs.clearStatus_k (c : CoreRegs) : (c.clearStatus).k = c.k := rfl
@[simp] theorem CoreRegs.clearStatus_rRate (c : CoreRegs) : (c.clearStatus).rRate = c.rRate := rfl
@[simp] theorem CoreRegs.clearStatus_rDom (c : CoreRegs) : (c.clearStatus).rDom = c.rDom := rfl
@[simp] theorem CoreRegs.clearStatus_src (c : CoreRegs) : (c.clearStatus).src = c.src := rfl
@[simp] theorem CoreRegs.clearStatus_inPos (c : CoreRegs) : (c.clearStatus).inPos = c.inPos := rfl
@[simp] theorem CoreRegs.clearStatus_rem (c : CoreRegs) : (c.clearStatus).rem = c.rem := rfl
@[simp] theorem CoreRegs.clearStatus_dst (c : CoreRegs) : (c.clearStatus).dst = c.dst := rfl
@[simp] theorem CoreRegs.clearStatus_outPos (c : CoreRegs) : (c.clearStatus).outPos = c.outPos := rfl
@[simp] theorem CoreRegs.clearStatus_orem (c : CoreRegs) : (c.clearStatus).orem = c.orem := rfl
@[simp] theorem CoreRegs.clearStatus_pages (c : CoreRegs) : (c.clearStatus).pages = c.pages := rfl
@[simp] theorem CoreRegs.clearStatus_result (c : CoreRegs) : (c.clearStatus).result = c.result := rfl
@[simp] theorem CoreRegs.clearStatus_mixHash (c : CoreRegs) : (c.clearStatus).mixHash = c.mixHash := rfl
@[simp] theorem CoreRegs.clearStatus_hdr (c : CoreRegs) : (c.clearStatus).hdr = c.hdr := rfl
@[simp] theorem CoreRegs.clearStatus_nonceLo (c : CoreRegs) : (c.clearStatus).nonceLo = c.nonceLo := rfl
@[simp] theorem CoreRegs.clearStatus_nonceHi (c : CoreRegs) : (c.clearStatus).nonceHi = c.nonceHi := rfl
@[simp] theorem CoreRegs.clearStatus_fullSizeLo (c : CoreRegs) : (c.clearStatus).fullSizeLo = c.fullSizeLo := rfl
@[simp] theorem CoreRegs.clearStatus_fullSizeHi (c : CoreRegs) : (c.clearStatus).fullSizeHi = c.fullSizeHi := rfl
@[simp] theorem CoreRegs.clearStatus_dsLenLo (c : CoreRegs) : (c.clearStatus).dsLenLo = c.dsLenLo := rfl
@[simp] theorem CoreRegs.clearStatus_dsLenHi (c : CoreRegs) : (c.clearStatus).dsLenHi = c.dsLenHi := rfl
@[simp] theorem CoreRegs.clearStatus_rate (c : CoreRegs) : (c.clearStatus).rate = c.rate := rfl
@[simp] theorem CoreRegs.clearStatus_domain (c : CoreRegs) : (c.clearStatus).domain = c.domain := rfl
@[simp] theorem CoreRegs.clearStatus_inLen (c : CoreRegs) : (c.clearStatus).inLen = c.inLen := rfl
@[simp] theorem CoreRegs.clearStatus_outLen (c : CoreRegs) : (c.clearStatus).outLen = c.outLen := rfl
@[simp] theorem CoreRegs.clearStatus_bufCfg (c : CoreRegs) : (c.clearStatus).bufCfg = c.bufCfg := rfl
@[simp] theorem CoreRegs.clearStatus_done (c : CoreRegs) : (c.clearStatus).done = false := rfl
@[simp] theorem CoreRegs.clearStatus_err (c : CoreRegs) : (c.clearStatus).err = false := rfl
@[simp] theorem CoreRegs.clearStatus_errCode (c : CoreRegs) : (c.clearStatus).errCode = 0 := rfl
/-! ### `raise` -/
@[simp] theorem CoreRegs.raise_lanes (c : CoreRegs) (e : ErrorKind) : (c.raise e).lanes = c.lanes := rfl
@[simp] theorem CoreRegs.raise_seed (c : CoreRegs) (e : ErrorKind) : (c.raise e).seed = c.seed := rfl
@[simp] theorem CoreRegs.raise_mix (c : CoreRegs) (e : ErrorKind) : (c.raise e).mix = c.mix := rfl
@[simp] theorem CoreRegs.raise_opa (c : CoreRegs) (e : ErrorKind) : (c.raise e).opa = c.opa := rfl
@[simp] theorem CoreRegs.raise_opb (c : CoreRegs) (e : ErrorKind) : (c.raise e).opb = c.opb := rfl
@[simp] theorem CoreRegs.raise_acc (c : CoreRegs) (e : ErrorKind) : (c.raise e).acc = c.acc := rfl
@[simp] theorem CoreRegs.raise_peRun (c : CoreRegs) (e : ErrorKind) : (c.raise e).peRun = c.peRun := rfl
@[simp] theorem CoreRegs.raise_rnd (c : CoreRegs) (e : ErrorKind) : (c.raise e).rnd = c.rnd := rfl
@[simp] theorem CoreRegs.raise_scPhase (c : CoreRegs) (e : ErrorKind) : (c.raise e).scPhase = c.scPhase := rfl
@[simp] theorem CoreRegs.raise_hoPhase (c : CoreRegs) (e : ErrorKind) : (c.raise e).hoPhase = c.hoPhase := rfl
@[simp] theorem CoreRegs.raise_i (c : CoreRegs) (e : ErrorKind) : (c.raise e).i = c.i := rfl
@[simp] theorem CoreRegs.raise_k (c : CoreRegs) (e : ErrorKind) : (c.raise e).k = c.k := rfl
@[simp] theorem CoreRegs.raise_rRate (c : CoreRegs) (e : ErrorKind) : (c.raise e).rRate = c.rRate := rfl
@[simp] theorem CoreRegs.raise_rDom (c : CoreRegs) (e : ErrorKind) : (c.raise e).rDom = c.rDom := rfl
@[simp] theorem CoreRegs.raise_src (c : CoreRegs) (e : ErrorKind) : (c.raise e).src = c.src := rfl
@[simp] theorem CoreRegs.raise_inPos (c : CoreRegs) (e : ErrorKind) : (c.raise e).inPos = c.inPos := rfl
@[simp] theorem CoreRegs.raise_rem (c : CoreRegs) (e : ErrorKind) : (c.raise e).rem = c.rem := rfl
@[simp] theorem CoreRegs.raise_dst (c : CoreRegs) (e : ErrorKind) : (c.raise e).dst = c.dst := rfl
@[simp] theorem CoreRegs.raise_outPos (c : CoreRegs) (e : ErrorKind) : (c.raise e).outPos = c.outPos := rfl
@[simp] theorem CoreRegs.raise_orem (c : CoreRegs) (e : ErrorKind) : (c.raise e).orem = c.orem := rfl
@[simp] theorem CoreRegs.raise_pages (c : CoreRegs) (e : ErrorKind) : (c.raise e).pages = c.pages := rfl
@[simp] theorem CoreRegs.raise_result (c : CoreRegs) (e : ErrorKind) : (c.raise e).result = c.result := rfl
@[simp] theorem CoreRegs.raise_mixHash (c : CoreRegs) (e : ErrorKind) : (c.raise e).mixHash = c.mixHash := rfl
@[simp] theorem CoreRegs.raise_hdr (c : CoreRegs) (e : ErrorKind) : (c.raise e).hdr = c.hdr := rfl
@[simp] theorem CoreRegs.raise_nonceLo (c : CoreRegs) (e : ErrorKind) : (c.raise e).nonceLo = c.nonceLo := rfl
@[simp] theorem CoreRegs.raise_nonceHi (c : CoreRegs) (e : ErrorKind) : (c.raise e).nonceHi = c.nonceHi := rfl
@[simp] theorem CoreRegs.raise_fullSizeLo (c : CoreRegs) (e : ErrorKind) : (c.raise e).fullSizeLo = c.fullSizeLo := rfl
@[simp] theorem CoreRegs.raise_fullSizeHi (c : CoreRegs) (e : ErrorKind) : (c.raise e).fullSizeHi = c.fullSizeHi := rfl
@[simp] theorem CoreRegs.raise_dsLenLo (c : CoreRegs) (e : ErrorKind) : (c.raise e).dsLenLo = c.dsLenLo := rfl
@[simp] theorem CoreRegs.raise_dsLenHi (c : CoreRegs) (e : ErrorKind) : (c.raise e).dsLenHi = c.dsLenHi := rfl
@[simp] theorem CoreRegs.raise_rate (c : CoreRegs) (e : ErrorKind) : (c.raise e).rate = c.rate := rfl
@[simp] theorem CoreRegs.raise_domain (c : CoreRegs) (e : ErrorKind) : (c.raise e).domain = c.domain := rfl
@[simp] theorem CoreRegs.raise_inLen (c : CoreRegs) (e : ErrorKind) : (c.raise e).inLen = c.inLen := rfl
@[simp] theorem CoreRegs.raise_outLen (c : CoreRegs) (e : ErrorKind) : (c.raise e).outLen = c.outLen := rfl
@[simp] theorem CoreRegs.raise_bufCfg (c : CoreRegs) (e : ErrorKind) : (c.raise e).bufCfg = c.bufCfg := rfl
@[simp] theorem CoreRegs.raise_done (c : CoreRegs) (e : ErrorKind) : (c.raise e).done = true := rfl
@[simp] theorem CoreRegs.raise_err (c : CoreRegs) (e : ErrorKind) : (c.raise e).err = true := rfl
@[simp] theorem CoreRegs.raise_errCode (c : CoreRegs) (e : ErrorKind) : (c.raise e).errCode = e.code := rfl
/-! ### `startPe` -/
@[simp] theorem CoreRegs.startPe_lanes (c : CoreRegs) : (c.startPe).lanes = c.lanes := rfl
@[simp] theorem CoreRegs.startPe_seed (c : CoreRegs) : (c.startPe).seed = c.seed := rfl
@[simp] theorem CoreRegs.startPe_mix (c : CoreRegs) : (c.startPe).mix = c.mix := rfl
@[simp] theorem CoreRegs.startPe_opa (c : CoreRegs) : (c.startPe).opa = c.opa := rfl
@[simp] theorem CoreRegs.startPe_opb (c : CoreRegs) : (c.startPe).opb = c.opb := rfl
@[simp] theorem CoreRegs.startPe_acc (c : CoreRegs) : (c.startPe).acc = c.acc := rfl
@[simp] theorem CoreRegs.startPe_peRun (c : CoreRegs) : (c.startPe).peRun = true := rfl
@[simp] theorem CoreRegs.startPe_rnd (c : CoreRegs) : (c.startPe).rnd = 0 := rfl
@[simp] theorem CoreRegs.startPe_scPhase (c : CoreRegs) : (c.startPe).scPhase = c.scPhase := rfl
@[simp] theorem CoreRegs.startPe_hoPhase (c : CoreRegs) : (c.startPe).hoPhase = c.hoPhase := rfl
@[simp] theorem CoreRegs.startPe_i (c : CoreRegs) : (c.startPe).i = c.i := rfl
@[simp] theorem CoreRegs.startPe_k (c : CoreRegs) : (c.startPe).k = c.k := rfl
@[simp] theorem CoreRegs.startPe_rRate (c : CoreRegs) : (c.startPe).rRate = c.rRate := rfl
@[simp] theorem CoreRegs.startPe_rDom (c : CoreRegs) : (c.startPe).rDom = c.rDom := rfl
@[simp] theorem CoreRegs.startPe_src (c : CoreRegs) : (c.startPe).src = c.src := rfl
@[simp] theorem CoreRegs.startPe_inPos (c : CoreRegs) : (c.startPe).inPos = c.inPos := rfl
@[simp] theorem CoreRegs.startPe_rem (c : CoreRegs) : (c.startPe).rem = c.rem := rfl
@[simp] theorem CoreRegs.startPe_dst (c : CoreRegs) : (c.startPe).dst = c.dst := rfl
@[simp] theorem CoreRegs.startPe_outPos (c : CoreRegs) : (c.startPe).outPos = c.outPos := rfl
@[simp] theorem CoreRegs.startPe_orem (c : CoreRegs) : (c.startPe).orem = c.orem := rfl
@[simp] theorem CoreRegs.startPe_pages (c : CoreRegs) : (c.startPe).pages = c.pages := rfl
@[simp] theorem CoreRegs.startPe_result (c : CoreRegs) : (c.startPe).result = c.result := rfl
@[simp] theorem CoreRegs.startPe_mixHash (c : CoreRegs) : (c.startPe).mixHash = c.mixHash := rfl
@[simp] theorem CoreRegs.startPe_hdr (c : CoreRegs) : (c.startPe).hdr = c.hdr := rfl
@[simp] theorem CoreRegs.startPe_nonceLo (c : CoreRegs) : (c.startPe).nonceLo = c.nonceLo := rfl
@[simp] theorem CoreRegs.startPe_nonceHi (c : CoreRegs) : (c.startPe).nonceHi = c.nonceHi := rfl
@[simp] theorem CoreRegs.startPe_fullSizeLo (c : CoreRegs) : (c.startPe).fullSizeLo = c.fullSizeLo := rfl
@[simp] theorem CoreRegs.startPe_fullSizeHi (c : CoreRegs) : (c.startPe).fullSizeHi = c.fullSizeHi := rfl
@[simp] theorem CoreRegs.startPe_dsLenLo (c : CoreRegs) : (c.startPe).dsLenLo = c.dsLenLo := rfl
@[simp] theorem CoreRegs.startPe_dsLenHi (c : CoreRegs) : (c.startPe).dsLenHi = c.dsLenHi := rfl
@[simp] theorem CoreRegs.startPe_rate (c : CoreRegs) : (c.startPe).rate = c.rate := rfl
@[simp] theorem CoreRegs.startPe_domain (c : CoreRegs) : (c.startPe).domain = c.domain := rfl
@[simp] theorem CoreRegs.startPe_inLen (c : CoreRegs) : (c.startPe).inLen = c.inLen := rfl
@[simp] theorem CoreRegs.startPe_outLen (c : CoreRegs) : (c.startPe).outLen = c.outLen := rfl
@[simp] theorem CoreRegs.startPe_bufCfg (c : CoreRegs) : (c.startPe).bufCfg = c.bufCfg := rfl
@[simp] theorem CoreRegs.startPe_done (c : CoreRegs) : (c.startPe).done = c.done := rfl
@[simp] theorem CoreRegs.startPe_err (c : CoreRegs) : (c.startPe).err = c.err := rfl
@[simp] theorem CoreRegs.startPe_errCode (c : CoreRegs) : (c.startPe).errCode = c.errCode := rfl
/-! ### `clearRecord` -/
@[simp] theorem CoreRegs.clearRecord_lanes (c : CoreRegs) : (clearRecord c).lanes = c.lanes := rfl
@[simp] theorem CoreRegs.clearRecord_seed (c : CoreRegs) : (clearRecord c).seed = c.seed := rfl
@[simp] theorem CoreRegs.clearRecord_mix (c : CoreRegs) : (clearRecord c).mix = c.mix := rfl
@[simp] theorem CoreRegs.clearRecord_opa (c : CoreRegs) : (clearRecord c).opa = c.opa := rfl
@[simp] theorem CoreRegs.clearRecord_opb (c : CoreRegs) : (clearRecord c).opb = c.opb := rfl
@[simp] theorem CoreRegs.clearRecord_acc (c : CoreRegs) : (clearRecord c).acc = c.acc := rfl
@[simp] theorem CoreRegs.clearRecord_peRun (c : CoreRegs) : (clearRecord c).peRun = c.peRun := rfl
@[simp] theorem CoreRegs.clearRecord_rnd (c : CoreRegs) : (clearRecord c).rnd = c.rnd := rfl
@[simp] theorem CoreRegs.clearRecord_scPhase (c : CoreRegs) : (clearRecord c).scPhase = c.scPhase := rfl
@[simp] theorem CoreRegs.clearRecord_hoPhase (c : CoreRegs) : (clearRecord c).hoPhase = c.hoPhase := rfl
@[simp] theorem CoreRegs.clearRecord_i (c : CoreRegs) : (clearRecord c).i = c.i := rfl
@[simp] theorem CoreRegs.clearRecord_k (c : CoreRegs) : (clearRecord c).k = c.k := rfl
@[simp] theorem CoreRegs.clearRecord_rRate (c : CoreRegs) : (clearRecord c).rRate = c.rRate := rfl
@[simp] theorem CoreRegs.clearRecord_rDom (c : CoreRegs) : (clearRecord c).rDom = c.rDom := rfl
@[simp] theorem CoreRegs.clearRecord_src (c : CoreRegs) : (clearRecord c).src = c.src := rfl
@[simp] theorem CoreRegs.clearRecord_inPos (c : CoreRegs) : (clearRecord c).inPos = c.inPos := rfl
@[simp] theorem CoreRegs.clearRecord_rem (c : CoreRegs) : (clearRecord c).rem = c.rem := rfl
@[simp] theorem CoreRegs.clearRecord_dst (c : CoreRegs) : (clearRecord c).dst = c.dst := rfl
@[simp] theorem CoreRegs.clearRecord_outPos (c : CoreRegs) : (clearRecord c).outPos = c.outPos := rfl
@[simp] theorem CoreRegs.clearRecord_orem (c : CoreRegs) : (clearRecord c).orem = c.orem := rfl
@[simp] theorem CoreRegs.clearRecord_pages (c : CoreRegs) : (clearRecord c).pages = c.pages := rfl
@[simp] theorem CoreRegs.clearRecord_result (c : CoreRegs) : (clearRecord c).result = Vector.replicate 8 0 := rfl
@[simp] theorem CoreRegs.clearRecord_mixHash (c : CoreRegs) : (clearRecord c).mixHash = Vector.replicate 8 0 := rfl
@[simp] theorem CoreRegs.clearRecord_hdr (c : CoreRegs) : (clearRecord c).hdr = c.hdr := rfl
@[simp] theorem CoreRegs.clearRecord_nonceLo (c : CoreRegs) : (clearRecord c).nonceLo = c.nonceLo := rfl
@[simp] theorem CoreRegs.clearRecord_nonceHi (c : CoreRegs) : (clearRecord c).nonceHi = c.nonceHi := rfl
@[simp] theorem CoreRegs.clearRecord_fullSizeLo (c : CoreRegs) : (clearRecord c).fullSizeLo = c.fullSizeLo := rfl
@[simp] theorem CoreRegs.clearRecord_fullSizeHi (c : CoreRegs) : (clearRecord c).fullSizeHi = c.fullSizeHi := rfl
@[simp] theorem CoreRegs.clearRecord_dsLenLo (c : CoreRegs) : (clearRecord c).dsLenLo = c.dsLenLo := rfl
@[simp] theorem CoreRegs.clearRecord_dsLenHi (c : CoreRegs) : (clearRecord c).dsLenHi = c.dsLenHi := rfl
@[simp] theorem CoreRegs.clearRecord_rate (c : CoreRegs) : (clearRecord c).rate = c.rate := rfl
@[simp] theorem CoreRegs.clearRecord_domain (c : CoreRegs) : (clearRecord c).domain = c.domain := rfl
@[simp] theorem CoreRegs.clearRecord_inLen (c : CoreRegs) : (clearRecord c).inLen = c.inLen := rfl
@[simp] theorem CoreRegs.clearRecord_outLen (c : CoreRegs) : (clearRecord c).outLen = c.outLen := rfl
@[simp] theorem CoreRegs.clearRecord_bufCfg (c : CoreRegs) : (clearRecord c).bufCfg = c.bufCfg := rfl
@[simp] theorem CoreRegs.clearRecord_done (c : CoreRegs) : (clearRecord c).done = c.done := rfl
@[simp] theorem CoreRegs.clearRecord_err (c : CoreRegs) : (clearRecord c).err = c.err := rfl
@[simp] theorem CoreRegs.clearRecord_errCode (c : CoreRegs) : (clearRecord c).errCode = c.errCode := rfl
/-! ### `startSponge` -/
@[simp] theorem CoreRegs.startSponge_lanes (r : BitVec 8) (d : Byte) (sc : Source) (n : Word) (ds : Dest) (l : Word)
    (c : CoreRegs) : (startSponge r d sc n ds l c).lanes = zeroLanes := rfl
@[simp] theorem CoreRegs.startSponge_seed (r : BitVec 8) (d : Byte) (sc : Source) (n : Word) (ds : Dest) (l : Word)
    (c : CoreRegs) : (startSponge r d sc n ds l c).seed = c.seed := rfl
@[simp] theorem CoreRegs.startSponge_mix (r : BitVec 8) (d : Byte) (sc : Source) (n : Word) (ds : Dest) (l : Word)
    (c : CoreRegs) : (startSponge r d sc n ds l c).mix = c.mix := rfl
@[simp] theorem CoreRegs.startSponge_opa (r : BitVec 8) (d : Byte) (sc : Source) (n : Word) (ds : Dest) (l : Word)
    (c : CoreRegs) : (startSponge r d sc n ds l c).opa = c.opa := rfl
@[simp] theorem CoreRegs.startSponge_opb (r : BitVec 8) (d : Byte) (sc : Source) (n : Word) (ds : Dest) (l : Word)
    (c : CoreRegs) : (startSponge r d sc n ds l c).opb = c.opb := rfl
@[simp] theorem CoreRegs.startSponge_acc (r : BitVec 8) (d : Byte) (sc : Source) (n : Word) (ds : Dest) (l : Word)
    (c : CoreRegs) : (startSponge r d sc n ds l c).acc = c.acc := rfl
@[simp] theorem CoreRegs.startSponge_peRun (r : BitVec 8) (d : Byte) (sc : Source) (n : Word) (ds : Dest) (l : Word)
    (c : CoreRegs) : (startSponge r d sc n ds l c).peRun = c.peRun := rfl
@[simp] theorem CoreRegs.startSponge_rnd (r : BitVec 8) (d : Byte) (sc : Source) (n : Word) (ds : Dest) (l : Word)
    (c : CoreRegs) : (startSponge r d sc n ds l c).rnd = c.rnd := rfl
@[simp] theorem CoreRegs.startSponge_scPhase (r : BitVec 8) (d : Byte) (sc : Source) (n : Word) (ds : Dest) (l : Word)
    (c : CoreRegs) : (startSponge r d sc n ds l c).scPhase = .absorb := rfl
@[simp] theorem CoreRegs.startSponge_hoPhase (r : BitVec 8) (d : Byte) (sc : Source) (n : Word) (ds : Dest) (l : Word)
    (c : CoreRegs) : (startSponge r d sc n ds l c).hoPhase = c.hoPhase := rfl
@[simp] theorem CoreRegs.startSponge_i (r : BitVec 8) (d : Byte) (sc : Source) (n : Word) (ds : Dest) (l : Word)
    (c : CoreRegs) : (startSponge r d sc n ds l c).i = c.i := rfl
@[simp] theorem CoreRegs.startSponge_k (r : BitVec 8) (d : Byte) (sc : Source) (n : Word) (ds : Dest) (l : Word)
    (c : CoreRegs) : (startSponge r d sc n ds l c).k = c.k := rfl
@[simp] theorem CoreRegs.startSponge_rRate (r : BitVec 8) (d : Byte) (sc : Source) (n : Word) (ds : Dest) (l : Word)
    (c : CoreRegs) : (startSponge r d sc n ds l c).rRate = r := rfl
@[simp] theorem CoreRegs.startSponge_rDom (r : BitVec 8) (d : Byte) (sc : Source) (n : Word) (ds : Dest) (l : Word)
    (c : CoreRegs) : (startSponge r d sc n ds l c).rDom = d := rfl
@[simp] theorem CoreRegs.startSponge_src (r : BitVec 8) (d : Byte) (sc : Source) (n : Word) (ds : Dest) (l : Word)
    (c : CoreRegs) : (startSponge r d sc n ds l c).src = sc := rfl
@[simp] theorem CoreRegs.startSponge_inPos (r : BitVec 8) (d : Byte) (sc : Source) (n : Word) (ds : Dest) (l : Word)
    (c : CoreRegs) : (startSponge r d sc n ds l c).inPos = 0 := rfl
@[simp] theorem CoreRegs.startSponge_rem (r : BitVec 8) (d : Byte) (sc : Source) (n : Word) (ds : Dest) (l : Word)
    (c : CoreRegs) : (startSponge r d sc n ds l c).rem = n := rfl
@[simp] theorem CoreRegs.startSponge_dst (r : BitVec 8) (d : Byte) (sc : Source) (n : Word) (ds : Dest) (l : Word)
    (c : CoreRegs) : (startSponge r d sc n ds l c).dst = ds := rfl
@[simp] theorem CoreRegs.startSponge_outPos (r : BitVec 8) (d : Byte) (sc : Source) (n : Word) (ds : Dest) (l : Word)
    (c : CoreRegs) : (startSponge r d sc n ds l c).outPos = 0 := rfl
@[simp] theorem CoreRegs.startSponge_orem (r : BitVec 8) (d : Byte) (sc : Source) (n : Word) (ds : Dest) (l : Word)
    (c : CoreRegs) : (startSponge r d sc n ds l c).orem = l := rfl
@[simp] theorem CoreRegs.startSponge_pages (r : BitVec 8) (d : Byte) (sc : Source) (n : Word) (ds : Dest) (l : Word)
    (c : CoreRegs) : (startSponge r d sc n ds l c).pages = c.pages := rfl
@[simp] theorem CoreRegs.startSponge_result (r : BitVec 8) (d : Byte) (sc : Source) (n : Word) (ds : Dest) (l : Word)
    (c : CoreRegs) : (startSponge r d sc n ds l c).result = c.result := rfl
@[simp] theorem CoreRegs.startSponge_mixHash (r : BitVec 8) (d : Byte) (sc : Source) (n : Word) (ds : Dest) (l : Word)
    (c : CoreRegs) : (startSponge r d sc n ds l c).mixHash = c.mixHash := rfl
@[simp] theorem CoreRegs.startSponge_hdr (r : BitVec 8) (d : Byte) (sc : Source) (n : Word) (ds : Dest) (l : Word)
    (c : CoreRegs) : (startSponge r d sc n ds l c).hdr = c.hdr := rfl
@[simp] theorem CoreRegs.startSponge_nonceLo (r : BitVec 8) (d : Byte) (sc : Source) (n : Word) (ds : Dest) (l : Word)
    (c : CoreRegs) : (startSponge r d sc n ds l c).nonceLo = c.nonceLo := rfl
@[simp] theorem CoreRegs.startSponge_nonceHi (r : BitVec 8) (d : Byte) (sc : Source) (n : Word) (ds : Dest) (l : Word)
    (c : CoreRegs) : (startSponge r d sc n ds l c).nonceHi = c.nonceHi := rfl
@[simp] theorem CoreRegs.startSponge_fullSizeLo (r : BitVec 8) (d : Byte) (sc : Source) (n : Word) (ds : Dest) (l : Word)
    (c : CoreRegs) : (startSponge r d sc n ds l c).fullSizeLo = c.fullSizeLo := rfl
@[simp] theorem CoreRegs.startSponge_fullSizeHi (r : BitVec 8) (d : Byte) (sc : Source) (n : Word) (ds : Dest) (l : Word)
    (c : CoreRegs) : (startSponge r d sc n ds l c).fullSizeHi = c.fullSizeHi := rfl
@[simp] theorem CoreRegs.startSponge_dsLenLo (r : BitVec 8) (d : Byte) (sc : Source) (n : Word) (ds : Dest) (l : Word)
    (c : CoreRegs) : (startSponge r d sc n ds l c).dsLenLo = c.dsLenLo := rfl
@[simp] theorem CoreRegs.startSponge_dsLenHi (r : BitVec 8) (d : Byte) (sc : Source) (n : Word) (ds : Dest) (l : Word)
    (c : CoreRegs) : (startSponge r d sc n ds l c).dsLenHi = c.dsLenHi := rfl
@[simp] theorem CoreRegs.startSponge_rate (r : BitVec 8) (d : Byte) (sc : Source) (n : Word) (ds : Dest) (l : Word)
    (c : CoreRegs) : (startSponge r d sc n ds l c).rate = c.rate := rfl
@[simp] theorem CoreRegs.startSponge_domain (r : BitVec 8) (d : Byte) (sc : Source) (n : Word) (ds : Dest) (l : Word)
    (c : CoreRegs) : (startSponge r d sc n ds l c).domain = c.domain := rfl
@[simp] theorem CoreRegs.startSponge_inLen (r : BitVec 8) (d : Byte) (sc : Source) (n : Word) (ds : Dest) (l : Word)
    (c : CoreRegs) : (startSponge r d sc n ds l c).inLen = c.inLen := rfl
@[simp] theorem CoreRegs.startSponge_outLen (r : BitVec 8) (d : Byte) (sc : Source) (n : Word) (ds : Dest) (l : Word)
    (c : CoreRegs) : (startSponge r d sc n ds l c).outLen = c.outLen := rfl
@[simp] theorem CoreRegs.startSponge_bufCfg (r : BitVec 8) (d : Byte) (sc : Source) (n : Word) (ds : Dest) (l : Word)
    (c : CoreRegs) : (startSponge r d sc n ds l c).bufCfg = c.bufCfg := rfl
@[simp] theorem CoreRegs.startSponge_done (r : BitVec 8) (d : Byte) (sc : Source) (n : Word) (ds : Dest) (l : Word)
    (c : CoreRegs) : (startSponge r d sc n ds l c).done = c.done := rfl
@[simp] theorem CoreRegs.startSponge_err (r : BitVec 8) (d : Byte) (sc : Source) (n : Word) (ds : Dest) (l : Word)
    (c : CoreRegs) : (startSponge r d sc n ds l c).err = c.err := rfl
@[simp] theorem CoreRegs.startSponge_errCode (r : BitVec 8) (d : Byte) (sc : Source) (n : Word) (ds : Dest) (l : Word)
    (c : CoreRegs) : (startSponge r d sc n ds l c).errCode = c.errCode := rfl

/-! ## Updates of the whole state -/

/-! ### `finish` -/
@[simp] theorem State.finish_core (s : State) : (s.finish).core = { s.core with done := true } := rfl
@[simp] theorem State.finish_inMem (s : State) : (s.finish).inMem = s.inMem.settle := rfl
@[simp] theorem State.finish_outMem (s : State) : (s.finish).outMem = s.outMem.settle := rfl
@[simp] theorem State.finish_dset (s : State) : (s.finish).dset = s.dset.settle := rfl
@[simp] theorem State.finish_host (s : State) : (s.finish).host = s.host := rfl
@[simp] theorem State.finish_reads (s : State) : (s.finish).reads = s.reads := rfl
@[simp] theorem State.finish_draws (s : State) : (s.finish).draws = s.draws := rfl
@[simp] theorem State.finish_doubt (s : State) : (s.finish).doubt = s.doubt := rfl
@[simp] theorem State.finish_shadow (s : State) : (s.finish).shadow = [] := rfl
@[simp] theorem State.finish_owed (s : State) : (s.finish).owed = [] := rfl
/-! ### `deliver` -/
@[simp] theorem State.deliver_core (s : State) (w : Word) : (s.deliver w).core = s.core := rfl
@[simp] theorem State.deliver_inMem (s : State) (w : Word) : (s.deliver w).inMem = s.inMem := rfl
@[simp] theorem State.deliver_outMem (s : State) (w : Word) : (s.deliver w).outMem = s.outMem := rfl
@[simp] theorem State.deliver_dset (s : State) (w : Word) : (s.deliver w).dset = s.dset := rfl
@[simp] theorem State.deliver_host (s : State) (w : Word) : (s.deliver w).host = s.host := rfl
@[simp] theorem State.deliver_reads (s : State) (w : Word) : (s.deliver w).reads = w :: s.reads := rfl
@[simp] theorem State.deliver_draws (s : State) (w : Word) : (s.deliver w).draws = s.draws := rfl
@[simp] theorem State.deliver_doubt (s : State) (w : Word) : (s.deliver w).doubt = s.doubt := rfl
@[simp] theorem State.deliver_shadow (s : State) (w : Word) : (s.deliver w).shadow = s.shadow := rfl
@[simp] theorem State.deliver_owed (s : State) (w : Word) : (s.deliver w).owed = s.owed := rfl
/-! ### `draw` -/
@[simp] theorem State.draw_core (s : State) : (s.draw).core = s.core := rfl
@[simp] theorem State.draw_inMem (s : State) : (s.draw).inMem = s.inMem := rfl
@[simp] theorem State.draw_outMem (s : State) : (s.draw).outMem = s.outMem := rfl
@[simp] theorem State.draw_dset (s : State) : (s.draw).dset = s.dset := rfl
@[simp] theorem State.draw_host (s : State) : (s.draw).host = s.host := rfl
@[simp] theorem State.draw_reads (s : State) : (s.draw).reads = s.reads := rfl
@[simp] theorem State.draw_draws (s : State) : (s.draw).draws = s.draws + 1 := rfl
@[simp] theorem State.draw_doubt (s : State) : (s.draw).doubt = s.doubt := rfl
@[simp] theorem State.draw_shadow (s : State) : (s.draw).shadow = s.shadow := rfl
@[simp] theorem State.draw_owed (s : State) : (s.draw).owed = s.owed := rfl
/-! ### `resetMove` -/
@[simp] theorem State.resetMove_core (s : State) : (resetMove s).core = CoreRegs.reset := rfl
@[simp] theorem State.resetMove_inMem (s : State) : (resetMove s).inMem = s.inMem.settle := rfl
@[simp] theorem State.resetMove_outMem (s : State) : (resetMove s).outMem = s.outMem.settle := rfl
@[simp] theorem State.resetMove_dset (s : State) : (resetMove s).dset = s.dset.settle := rfl
@[simp] theorem State.resetMove_host (s : State) : (resetMove s).host = s.host := rfl
@[simp] theorem State.resetMove_reads (s : State) : (resetMove s).reads = s.reads := rfl
@[simp] theorem State.resetMove_draws (s : State) : (resetMove s).draws = s.draws := rfl
@[simp] theorem State.resetMove_doubt (s : State) :
    (resetMove s).doubt = Doubt.addBelow s.core.outputLength s.doubt := rfl
@[simp] theorem State.resetMove_shadow (s : State) : (resetMove s).shadow = [] := rfl
@[simp] theorem State.resetMove_owed (s : State) : (resetMove s).owed = [] := rfl

/-! ## Memories -/

@[simp] theorem Space.settle_cells (m : Space) : m.settle.cells = m.cells := rfl
@[simp] theorem Space.settle_raced (m : Space) : m.settle.raced = [] := rfl
@[simp] theorem Space.settle_size (m : Space) : m.settle.size = m.size := rfl
@[simp] theorem State.space_inp (s : State) : s.space .inp = s.inMem := rfl
@[simp] theorem State.space_out (s : State) : s.space .out = s.outMem := rfl
@[simp] theorem State.space_dset (s : State) : s.space .dset = s.dset := rfl

theorem State.space_setSpace (s : State) (k : MemSpace) (m : Space) : (s.setSpace k m).space k = m := by
  cases k <;> rfl

theorem State.space_setSpace_other (s : State) (k j : MemSpace) (m : Space) (h : j ≠ k) :
    (s.setSpace k m).space j = s.space j := by
  cases k <;> cases j <;> first | rfl | exact absurd rfl h

@[simp] theorem State.setSpace_core (s : State) (k : MemSpace) (m : Space) :
    (s.setSpace k m).core = s.core := by cases k <;> rfl
@[simp] theorem State.setSpace_host (s : State) (k : MemSpace) (m : Space) :
    (s.setSpace k m).host = s.host := by cases k <;> rfl
@[simp] theorem State.setSpace_reads (s : State) (k : MemSpace) (m : Space) :
    (s.setSpace k m).reads = s.reads := by cases k <;> rfl
@[simp] theorem State.setSpace_draws (s : State) (k : MemSpace) (m : Space) :
    (s.setSpace k m).draws = s.draws := by cases k <;> rfl
@[simp] theorem State.setSpace_doubt (s : State) (k : MemSpace) (m : Space) :
    (s.setSpace k m).doubt = s.doubt := by cases k <;> rfl
@[simp] theorem State.setSpace_shadow (s : State) (k : MemSpace) (m : Space) :
    (s.setSpace k m).shadow = s.shadow := by cases k <;> rfl
@[simp] theorem State.setSpace_owed (s : State) (k : MemSpace) (m : Space) :
    (s.setSpace k m).owed = s.owed := by cases k <;> rfl

/-! ## The bytes of `OUT` a reset has left unspecified -/

theorem Doubt.covers_dropBelow (n : Nat) (d : List (Nat × Nat)) (a : Nat) :
    Doubt.covers (Doubt.dropBelow n d) a = (decide (n ≤ a) && Doubt.covers d a) := by
  rw [Bool.eq_iff_iff]
  simp only [Doubt.covers, Doubt.dropBelow, List.any_eq_true, List.mem_filter, List.mem_map,
    Bool.and_eq_true, decide_eq_true_eq]
  constructor
  · rintro ⟨p, ⟨⟨q, hq, rfl⟩, -⟩, h1, h2⟩
    exact ⟨by omega, q, hq, by omega, h2⟩
  · rintro ⟨hn, q, hq, h1, h2⟩
    exact ⟨(max q.1 n, q.2), ⟨⟨q, hq, rfl⟩, by dsimp only; omega⟩, by dsimp only; omega, h2⟩

theorem Doubt.covers_dropAt (n : Nat) (d : List (Nat × Nat)) (a : Nat) :
    Doubt.covers (Doubt.dropAt n d) a = (decide (a ≠ n) && Doubt.covers d a) := by
  rw [Bool.eq_iff_iff]
  simp only [Doubt.covers, Doubt.dropAt, List.any_eq_true, List.mem_filter, List.mem_flatMap,
    List.mem_cons, List.not_mem_nil, or_false, Bool.and_eq_true, decide_eq_true_eq]
  constructor
  · rintro ⟨p, ⟨⟨q, hq, rfl | rfl⟩, h0⟩, h1, h2⟩ <;> dsimp only at h0 h1 h2 <;>
      exact ⟨by omega, q, hq, by omega, by omega⟩
  · rintro ⟨hn, q, hq, h1, h2⟩
    by_cases h : a < n
    · exact ⟨(q.1, min q.2 n), ⟨⟨q, hq, .inl rfl⟩, by dsimp only; omega⟩, h1, by dsimp only; omega⟩
    · exact ⟨(max q.1 (n + 1), q.2), ⟨⟨q, hq, .inr rfl⟩, by dsimp only; omega⟩, by dsimp only; omega, h2⟩

theorem Doubt.covers_addBelow (n : Nat) (d : List (Nat × Nat)) (a : Nat) :
    Doubt.covers (Doubt.addBelow n d) a = (decide (a < n) || Doubt.covers d a) := by
  have h := Doubt.covers_dropBelow n d a
  unfold Doubt.addBelow
  split
  · simpa using h
  · rename_i m hr
    rw [hr] at h
    by_cases ha : a < m + 1
    · simp [Doubt.covers, ha]
    · have : m + 1 ≤ a := by omega
      simp only [this, decide_true, Bool.true_and] at h
      rw [← h]; simp [Doubt.covers, ha]
  · rename_i m lo hi rest hr
    rw [hr] at h
    by_cases ha : a < m + 1
    · split <;> simp only [Doubt.covers, List.any_cons, ha, decide_true, Bool.true_or]
      · have : lo < hi := by
          have hm : (lo, hi) ∈ Doubt.dropBelow (m + 1) d := by rw [hr]; simp
          simpa [Doubt.dropBelow] using (List.mem_filter.mp hm).2
        have : a < hi := by omega
        simp [this]
      · simp
    · have hm : m + 1 ≤ a := by omega
      simp only [hm, decide_true, Bool.true_and] at h
      rw [← h]
      split
      · rename_i hl; subst hl; simp [Doubt.covers, ha, hm]
      · simp [Doubt.covers, ha]

/-! ## `BUSY` -/

@[simp] theorem CoreRegs.busy_clearStatus (c : CoreRegs) : c.clearStatus.busy = c.busy := rfl
@[simp] theorem CoreRegs.busy_raise (c : CoreRegs) (e : ErrorKind) : (c.raise e).busy = c.busy := rfl
@[simp] theorem CoreRegs.busy_clearRecord (c : CoreRegs) : (clearRecord c).busy = c.busy := rfl

/-- An idle CORE has all three controllers at rest (R26). -/
theorem CoreRegs.busy_eq_false (c : CoreRegs) :
    c.busy = false ↔ c.peRun = false ∧ c.scPhase = .idle ∧ c.hoPhase = .idle := by
  simp [CoreRegs.busy, and_assoc]

/-- A busy CORE has one of them running (R26). -/
theorem CoreRegs.busy_eq_true (c : CoreRegs) :
    c.busy = true ↔ c.peRun = true ∨ c.scPhase ≠ .idle ∨ c.hoPhase ≠ .idle := by
  simp [CoreRegs.busy, or_assoc]

/-! ## Outcomes -/

@[simp] theorem acceptance_of_busy (body : CoreRegs → CoreRegs) (s : State) (h : s.core.busy = true) :
    acceptance body s = .next s := by simp [acceptance, h]

@[simp] theorem acceptance_of_idle (body : CoreRegs → CoreRegs) (s : State) (h : s.core.busy = false) :
    acceptance body s = .next { s with core := body s.core.clearStatus } := by simp [acceptance, h]

/-- All an acceptance can do: nothing on a busy CORE, else what its body does to the registers. -/
theorem acceptance_cases {body : CoreRegs → CoreRegs} {s t : State} (h : acceptance body s = .next t) :
    (s.core.busy = true ∧ t = s) ∨
      (s.core.busy = false ∧ t = { s with core := body s.core.clearStatus }) := by
  cases hb : s.core.busy
  · simp [hb] at h; exact .inr ⟨rfl, h.symm⟩
  · simp [hb] at h; exact .inl ⟨rfl, h.symm⟩

end Sys2Proof.Machine
end

