-- ==== Sys2Proof/Laws/Bytes.lean ====
section
/-! SUPPORT. The byte views of the lane file and of the word buffers: what one write of a byte, or one
XOR into a byte, does to every byte of the view (00_scope.md rule R8, 44_serializer.md rules R201 to
R203). -/

namespace Sys2Proof.Machine

/-! ## The lane file -/

theorem byteOfLane_xor (u v : Lane) (j : Nat) :
    byteOfLane (u ^^^ v) j = byteOfLane u j ^^^ byteOfLane v j := by
  simp only [byteOfLane]
  ext i hi
  simp

/-- A byte shifted to place `j` of a lane is byte `j` of it, and every other byte is zero. -/
theorem byteOfLane_shift (b : Byte) (i j : Nat) (hi : i < 8) (hj : j < 8) :
    byteOfLane (b.setWidth 64 <<< (8 * j)) i = if i = j then b else 0 := by
  simp only [byteOfLane]
  ext n hn
  simp only [BitVec.getElem_extractLsb', BitVec.getLsbD_shiftLeft, BitVec.getLsbD_setWidth]
  split
  · subst_vars
    simp [show 8 * j + n < 64 by omega, show ¬ 8 * j + n < 8 * j by omega,
      show 8 * j + n - 8 * j = n by omega, show n < 64 by omega, hn]
  · rename_i h
    by_cases hl : i < j
    · simp [show 8 * i + n < 8 * j by omega]
    · have : b.getLsbD (8 * i + n - 8 * j) = false := by
        apply BitVec.getLsbD_of_ge; omega
      simp [this]

theorem laneByte_xorLaneByte (v : Vector Lane 25) (j k : Nat) (b : Byte) (hj : j < 200) (hk : k < 200) :
    laneByte (xorLaneByte v j b) k = if k = j then laneByte v k ^^^ b else laneByte v k := by
  have hj' : j / 8 < 25 := by omega
  have hk' : k / 8 < 25 := by omega
  simp only [laneByte, xorLaneByte, hj', hk', dite_true]
  by_cases hd : j / 8 = k / 8
  · simp only [hd, Vector.getElem_set_self, byteOfLane_xor,
      byteOfLane_shift b (k % 8) (j % 8) (by omega) (by omega)]
    by_cases h : k = j
    · subst h; simp
    · have : k % 8 ≠ j % 8 := by omega
      simp [h, this]
  · have : k ≠ j := fun e => hd (by rw [e])
    simp [Vector.getElem_set_ne _ _ hd, this]

/-- XORing a string of bytes in from byte `j` on: byte `j + i` takes byte `i` of the string. -/
theorem laneByte_xorLaneBytes (bs : List Byte) (v : Vector Lane 25) (j k : Nat)
    (hj : j + bs.length ≤ 200) (hk : k < 200) :
    laneByte (xorLaneBytes v j bs) k =
      laneByte v k ^^^ (if j ≤ k then bs.getD (k - j) 0 else 0) := by
  induction bs generalizing v j with
  | nil => simp [xorLaneBytes]
  | cons b bs ih =>
    simp only [List.length_cons] at hj
    rw [xorLaneBytes, ih _ _ (by omega), laneByte_xorLaneByte _ _ _ _ (by omega) hk]
    rcases Nat.lt_trichotomy k j with h | h | h
    · simp [show k ≠ j by omega, show ¬ j + 1 ≤ k by omega, show ¬ j ≤ k by omega]
    · subst h; simp
    · obtain ⟨d, rfl⟩ : ∃ d, k = j + 1 + d := ⟨k - j - 1, by omega⟩
      simp [show j + 1 + d ≠ j by omega, show j + 1 + d - j = d + 1 by omega]
      intro hc; omega

@[simp] theorem laneByte_zeroLanes (k : Nat) : laneByte zeroLanes k = 0 := by
  simp only [laneByte, zeroLanes]
  split
  · simp [byteOfLane]
  · rfl

@[simp] theorem laneBytes_length (v : Vector Lane 25) (n : Nat) : (laneBytes v n).length = n := by
  simp [laneBytes]

theorem laneBytes_getD (v : Vector Lane 25) (n k : Nat) (h : k < n) :
    (laneBytes v n).getD k 0 = laneByte v k := by
  simp [laneBytes, h]

/-! ## Word buffers -/

theorem byteOfWord_withByte (w : Word) (i j : Nat) (b : Byte) (hi : i < 4) (hj : j < 4) :
    byteOfWord (wordWithByte w j b) i = if i = j then b else byteOfWord w i := by
  simp only [byteOfWord, wordWithByte]
  ext n hn
  have hff : ∀ m, (0xFF#32).getLsbD m = decide (m < 8) := by
    intro m
    by_cases hm : m < 32
    · interval_cases m <;> rfl
    · rw [BitVec.getLsbD_of_ge _ _ (by omega)]; simp; omega
  simp only [BitVec.getElem_extractLsb', BitVec.getLsbD_or, BitVec.getLsbD_and, BitVec.getLsbD_not,
    BitVec.getLsbD_shiftLeft, BitVec.getLsbD_setWidth, BitVec.ofNat_eq_ofNat, hff]
  split
  · subst_vars
    simp [show 8 * j + n < 32 by omega, show ¬ 8 * j + n < 8 * j by omega,
      show 8 * j + n - 8 * j = n by omega, show n < 32 by omega, hn]
  · rename_i h
    by_cases hl : i < j
    · simp [show 8 * i + n < 8 * j by omega, show 8 * i + n < 32 by omega]
    · have h1 : b.getLsbD (8 * i + n - 8 * j) = false := by
        apply BitVec.getLsbD_of_ge; omega
      simp [h1, show 8 * i + n < 32 by omega, show ¬ 8 * i + n - 8 * j < 8 by omega]

theorem wordByte_setWordByte {n : Nat} (v : Vector Word n) (j k : Nat) (b : Byte) (hj : j < 4 * n)
    (hk : k < 4 * n) :
    wordByte (setWordByte v j b) k = if k = j then b else wordByte v k := by
  have hj' : j / 4 < n := by omega
  have hk' : k / 4 < n := by omega
  simp only [wordByte, setWordByte, hj', hk', dite_true]
  by_cases hd : j / 4 = k / 4
  · simp only [hd, Vector.getElem_set_self,
      byteOfWord_withByte _ (k % 4) (j % 4) b (by omega) (by omega)]
    by_cases h : k = j
    · subst h; simp
    · have : k % 4 ≠ j % 4 := by omega
      simp [h, this]
  · have : k ≠ j := fun e => hd (by rw [e])
    simp [Vector.getElem_set_ne _ _ hd, this]

theorem wordByte_beyond {n : Nat} (v : Vector Word n) (k : Nat) (h : 4 * n ≤ k) : wordByte v k = 0 := by
  simp [wordByte, show ¬ k / 4 < n by omega]

/-- As `wordByte_setWordByte`, for a read at any index: beyond the buffer both sides are 0. -/
theorem wordByte_setWordByte_any {n : Nat} (v : Vector Word n) (j k : Nat) (b : Byte) (hj : j < 4 * n) :
    wordByte (setWordByte v j b) k = if k = j then b else wordByte v k := by
  by_cases hk : k < 4 * n
  · exact wordByte_setWordByte v j k b hj hk
  · rw [wordByte_beyond _ _ (by omega), wordByte_beyond _ _ (by omega), if_neg (by omega)]

@[simp] theorem wordBytes_length {n : Nat} (v : Vector Word n) (k m : Nat) :
    (wordBytes v k m).length = m := by
  simp [wordBytes]

/-- A word is the little-endian number of its four bytes (R8). -/
theorem wordOfBytes_byteOfWord (w : Word) :
    wordOfBytes (byteOfWord w 0) (byteOfWord w 1) (byteOfWord w 2) (byteOfWord w 3) = w := by
  simp only [wordOfBytes, byteOfWord]
  ext i hi
  simp only [BitVec.getElem_append, BitVec.getElem_extractLsb']
  split
  · simp [BitVec.getLsbD_eq_getElem hi]
  · split
    · rw [show 8 * 1 + (i - 8) = i by omega, BitVec.getLsbD_eq_getElem hi]
    · split
      · rw [show 8 * 2 + (i - 8 - 8) = i by omega, BitVec.getLsbD_eq_getElem hi]
      · rw [show 8 * 3 + (i - 8 - 8 - 8) = i by omega, BitVec.getLsbD_eq_getElem hi]

/-- Byte `k` of four bytes assembled is the `k`-th of them (R8). -/
theorem byteOfWord_wordOfBytes (b0 b1 b2 b3 : Byte) :
    byteOfWord (wordOfBytes b0 b1 b2 b3) 0 = b0 ∧ byteOfWord (wordOfBytes b0 b1 b2 b3) 1 = b1 ∧
      byteOfWord (wordOfBytes b0 b1 b2 b3) 2 = b2 ∧ byteOfWord (wordOfBytes b0 b1 b2 b3) 3 = b3 := by
  refine ⟨?_, ?_, ?_, ?_⟩
  all_goals
    simp only [wordOfBytes, byteOfWord]
    ext i hi
    simp only [BitVec.getElem_extractLsb', BitVec.getLsbD_append]
    repeat' split
    all_goals first
      | (exfalso; omega)
      | (rw [BitVec.getLsbD_eq_getElem (by omega)]; congr 1; omega)

end Sys2Proof.Machine
end

