-- ==== Sys2Proof/Laws/Memory.lean ====
section
/-! SUPPORT. The laws of a memory as a list of cells: a read after a write, and that every operation
keeps the canonical form. -/

namespace Sys2Proof.Machine.Memory

/-! ## Reads after writes -/

@[simp] theorem find?_nil (a : Nat) : find? [] a = none := rfl

theorem find?_put_self (m : List Host.Cell) (a : Nat) (b : Byte) : find? (put m a b) a = some b := by
  induction m with
  | nil => simp [put, find?]
  | cons c t ih =>
    obtain ⟨k, v⟩ := c
    simp only [put]
    split
    · simp [find?]
    · split
      · simp [find?]
      · rename_i _ h; simp [find?, Ne.symm h, ih]

theorem find?_put_other (m : List Host.Cell) (a a' : Nat) (b : Byte) (h : a' ≠ a) :
    find? (put m a b) a' = find? m a' := by
  induction m with
  | nil => simp [put, find?, Ne.symm h]
  | cons c t ih =>
    obtain ⟨k, v⟩ := c
    simp only [put]
    split
    · simp [find?, Ne.symm h]
    · split
      · rename_i _ e; subst e; simp [find?, Ne.symm h]
      · simp only [find?, ih]

theorem find?_erase_other (m : List Host.Cell) (a a' : Nat) (h : a' ≠ a) :
    find? (erase m a) a' = find? m a' := by
  induction m with
  | nil => rfl
  | cons c t ih =>
    obtain ⟨k, v⟩ := c
    simp only [erase]
    split
    · rename_i e; subst e; simp [find?, Ne.symm h]
    · simp only [find?, ih]

theorem find?_note_self (m : List Host.Cell) (a : Nat) (b : Byte) :
    find? (note m a b) a = some ((find? m a).getD b) := by
  unfold note
  split
  · rename_i h; rw [h]; rfl
  · rename_i h; rw [find?_put_self, h]; rfl

theorem find?_note_other (m : List Host.Cell) (a a' : Nat) (b : Byte) (h : a' ≠ a) :
    find? (note m a b) a' = find? m a' := by
  unfold note
  split
  · rfl
  · exact find?_put_other _ _ _ _ h

/-! ## The canonical form -/

theorem rising_mono {lo lo' limit : Nat} {m : List Host.Cell} (h : lo' ≤ lo)
    (hm : rising lo limit m = true) : rising lo' limit m = true := by
  cases m with
  | nil => rfl
  | cons c t =>
    simp [rising] at hm ⊢
    exact ⟨⟨Nat.le_trans h hm.1.1, hm.1.2⟩, hm.2⟩

/-- Below where a rising list starts nothing is listed. -/
theorem find?_below {lo limit a : Nat} {m : List Host.Cell} (hm : rising lo limit m = true)
    (h : a < lo) : find? m a = none := by
  induction m generalizing lo with
  | nil => rfl
  | cons c t ih =>
    simp [rising] at hm
    obtain ⟨⟨h1, h2⟩, h3⟩ := hm
    have : c.1 ≠ a := by omega
    simp [find?, this, ih h3 (by omega)]

theorem find?_erase_self {lo limit a : Nat} {m : List Host.Cell} (hm : rising lo limit m = true) :
    find? (erase m a) a = none := by
  induction m generalizing lo with
  | nil => rfl
  | cons c t ih =>
    simp [rising] at hm
    obtain ⟨_, h3⟩ := hm
    simp only [erase]
    split
    · rename_i e; exact find?_below h3 (by omega)
    · rename_i e; simp [find?, Ne.symm e, ih h3]

theorem rising_put {lo limit a : Nat} {m : List Host.Cell} (b : Byte) (hm : rising lo limit m = true)
    (h1 : lo ≤ a) (h2 : a < limit) : rising lo limit (put m a b) = true := by
  induction m generalizing lo with
  | nil => simp [put, rising, h1, h2]
  | cons c t ih =>
    simp [rising] at hm
    obtain ⟨⟨h3, h4⟩, h5⟩ := hm
    simp only [put]
    split
    · simp [rising, h1, h2, h4, h5]; omega
    · split
      · rename_i _ e; subst e; simp [rising, h1, h2, h5]
      · simp [rising, h3, h4]; exact ih h5 (by omega)

theorem rising_erase {lo limit a : Nat} {m : List Host.Cell} (hm : rising lo limit m = true) :
    rising lo limit (erase m a) = true := by
  induction m generalizing lo with
  | nil => rfl
  | cons c t ih =>
    simp [rising] at hm
    obtain ⟨⟨h3, h4⟩, h5⟩ := hm
    simp only [erase]
    split
    · exact rising_mono (by omega) h5
    · simp [rising, h3, h4, ih h5]

theorem rising_note {limit a : Nat} {m : List Host.Cell} (b : Byte) (hm : rising 0 limit m = true)
    (h : a < limit) : rising 0 limit (note m a b) = true := by
  unfold note
  split
  · exact hm
  · exact rising_put b hm (by omega) h

theorem all_put {m : List Host.Cell} {a : Nat} {b : Byte} (hb : b ≠ unlisted)
    (hm : (m.all fun c => c.2 != unlisted) = true) :
    ((put m a b).all fun c => c.2 != unlisted) = true := by
  induction m with
  | nil => simp [put, hb]
  | cons c t ih =>
    simp only [List.all_cons, Bool.and_eq_true] at hm
    simp only [put]
    split
    · simp [hb, hm]
    · split
      · simp [hb, hm]
      · simp [hm, ih hm.2]

theorem all_erase {m : List Host.Cell} {a : Nat} (hm : (m.all fun c => c.2 != unlisted) = true) :
    ((erase m a).all fun c => c.2 != unlisted) = true := by
  induction m with
  | nil => rfl
  | cons c t ih =>
    simp only [List.all_cons, Bool.and_eq_true] at hm
    simp only [erase]
    split
    · exact hm.2
    · simp [hm.1, ih hm.2]

/-- A write inside the space keeps the canonical form. -/
theorem wf_poke {limit a : Nat} {m : List Host.Cell} (b : Byte) (hm : wf limit m = true)
    (h : a < limit) : wf limit (poke m a b) = true := by
  simp only [wf, Bool.and_eq_true] at hm ⊢
  unfold poke
  split
  · exact ⟨rising_erase hm.1, all_erase hm.2⟩
  · rename_i hb; exact ⟨rising_put b hm.1 (by omega) h, all_put hb hm.2⟩

@[simp] theorem wf_nil (limit : Nat) : wf limit [] = true := rfl

/-! ## Reads after a write, as bytes -/

theorem peek_poke_self {limit a : Nat} {m : List Host.Cell} (b : Byte) (hm : wf limit m = true) :
    peek (poke m a b) a = b := by
  simp only [wf, Bool.and_eq_true] at hm
  unfold poke peek
  split
  · rename_i hb; simp [find?_erase_self hm.1, hb]
  · simp [find?_put_self]

theorem peek_poke_other {m : List Host.Cell} {a a' : Nat} (b : Byte) (h : a' ≠ a) :
    peek (poke m a b) a' = peek m a' := by
  unfold poke peek
  split
  · rw [find?_erase_other _ _ _ h]
  · rw [find?_put_other _ _ _ _ h]

theorem peek_poke {limit a : Nat} {m : List Host.Cell} (b : Byte) (hm : wf limit m = true) (a' : Nat) :
    peek (poke m a b) a' = if a' = a then b else peek m a' := by
  split
  · rename_i h; subst h; exact peek_poke_self b hm
  · rename_i h; exact peek_poke_other b h

/-- Equal memories are equal data: two canonical lists that read alike are the same list. -/
theorem eq_of_find?_eq {lo limit : Nat} {m m' : List Host.Cell} (hm : rising lo limit m = true)
    (hm' : rising lo limit m' = true) (h : ∀ a, find? m a = find? m' a) : m = m' := by
  induction m generalizing lo m' with
  | nil =>
    cases m' with
    | nil => rfl
    | cons c t => have := h c.1; simp [find?] at this
  | cons c t ih =>
    obtain ⟨k, v⟩ := c
    cases m' with
    | nil => have := h k; simp [find?] at this
    | cons c' t' =>
      obtain ⟨k', v'⟩ := c'
      simp [rising] at hm hm'
      have e1 := h k
      have e2 := h k'
      have hk : k = k' := by
        rcases Nat.lt_trichotomy k k' with hlt | heq | hgt
        · rw [show find? ((k', v') :: t') k = none from by
            simp [find?, show k' ≠ k by omega, find?_below hm'.2 (show k < k' + 1 by omega)]] at e1
          simp [find?] at e1
        · exact heq
        · rw [show find? ((k, v) :: t) k' = none from by
            simp [find?, show k ≠ k' by omega, find?_below hm.2 (show k' < k + 1 by omega)]] at e2
          simp [find?] at e2
      subst hk
      simp [find?] at e1
      subst e1
      congr 1
      refine ih hm.2 hm'.2 fun a => ?_
      by_cases hak : k = a
      · subst hak; rw [find?_below hm.2 (by omega), find?_below hm'.2 (by omega)]
      · have := h a; simpa [find?, hak] using this

end Sys2Proof.Machine.Memory
end

