-- ==== Sys2Proof/Laws/Ops.lean ====
section
/-! SUPPORT. What each shared operation over memory can do, said once: the CORE's reads and writes, the
delivery of a pass's output, the fetch of its input, and the host's accesses. -/

namespace Sys2Proof.Machine

/-! ## A byte of memory, past the updates that leave it alone -/

@[simp] theorem State.peek_withCore (s : State) (c : CoreRegs) (k : MemSpace) (a : Nat) :
    State.peek { s with core := c } k a = s.peek k a := by cases k <;> rfl

@[simp] theorem State.peek_withHost (s : State) (h : List HostMove) (k : MemSpace) (a : Nat) :
    State.peek { s with host := h } k a = s.peek k a := by cases k <;> rfl

@[simp] theorem State.peek_draw (s : State) (k : MemSpace) (a : Nat) : s.draw.peek k a = s.peek k a := by
  cases k <;> rfl

@[simp] theorem State.peek_deliver (s : State) (w : Word) (k : MemSpace) (a : Nat) :
    (s.deliver w).peek k a = s.peek k a := by cases k <;> rfl

@[simp] theorem State.peek_finish (s : State) (k : MemSpace) (a : Nat) : s.finish.peek k a = s.peek k a := by
  cases k <;> rfl

/-! ## Reads by the CORE -/

theorem provides_lt {s : State} {k : MemSpace} {a : Nat} (h : s.provides k a = true) : a < k.bytes := by
  simp [State.provides] at h; exact h.1

theorem provides_of_whole {s : State} {k : MemSpace} {a : Nat} (h : s.wholeMemories)
    (ha : a < k.bytes) : s.provides k a = true := by
  simp [State.provides, h k, ha]

theorem coreRead_none {s : State} {k : MemSpace} {a : Nat} (h : s.coreRead k a = none) :
    s.provides k a = false := by
  unfold State.coreRead at h
  split at h
  · split at h <;> simp at h
  · rename_i hp; simpa using hp

theorem coreRead_of_notRaced {s : State} {k : MemSpace} {a : Nat} (h : s.provides k a = true)
    (hr : Memory.find? (s.space k).raced a = none) : s.coreRead k a = some (s.peek k a) := by
  simp [State.coreRead, h, hr]

theorem coreRead_quiet {s : State} {k : MemSpace} {a : Nat} (hq : s.quiet)
    (h : s.provides k a = true) : s.coreRead k a = some (s.peek k a) :=
  coreRead_of_notRaced h (by simp [hq k])

theorem memRead_length {s : State} {k : MemSpace} {a n : Nat} {bs : List Byte}
    (h : s.memRead k a n = some bs) : bs.length = n := by
  induction n generalizing a bs with
  | zero => simp [State.memRead] at h; subst h; rfl
  | succ n ih =>
    simp only [State.memRead] at h
    split at h
    · simp at h
    · split at h
      · simp at h
      · rename_i h2; simp at h; subst h; simp [ih h2]

theorem memRead_none {s : State} {k : MemSpace} {a n : Nat} (h : s.memRead k a n = none) :
    ∃ j, j < n ∧ s.provides k (a + j) = false := by
  induction n generalizing a with
  | zero => simp [State.memRead] at h
  | succ n ih =>
    simp only [State.memRead] at h
    split at h
    · rename_i h1; exact ⟨0, by omega, coreRead_none h1⟩
    · split at h
      · rename_i h2
        obtain ⟨j, hj, hp⟩ := ih h2
        exact ⟨j + 1, by omega, by rw [← hp]; congr 1; omega⟩
      · simp at h

/-- Where nothing is raced and the memory is there, a read returns the bytes that are there. -/
theorem memRead_quiet {s : State} {k : MemSpace} {a n : Nat} (hq : s.quiet)
    (h : ∀ j, j < n → s.provides k (a + j) = true) :
    s.memRead k a n = some ((List.range n).map fun j => s.peek k (a + j)) := by
  induction n generalizing a with
  | zero => rfl
  | succ n ih =>
    have h0 := coreRead_quiet hq (h 0 (by omega))
    have ht := ih (a := a + 1) fun j hj => by have := h (j + 1) (by omega); rw [← this]; congr 1; omega
    simp only [State.memRead, Nat.add_zero] at h0 ⊢
    rw [h0, ht]
    simp only [List.range_succ_eq_map, List.map_cons, List.map_map, Nat.add_zero, Option.some.injEq,
      List.cons.injEq, true_and]
    apply List.map_congr_left
    intro j _
    simp only [Function.comp_apply]
    congr 1; omega

/-- A read of a space depends on that space and the draws only. -/
theorem memRead_congr {s t : State} {k : MemSpace} (hs : t.space k = s.space k) (hd : t.draws = s.draws)
    (a n : Nat) : t.memRead k a n = s.memRead k a n := by
  have hc : ∀ a, t.coreRead k a = s.coreRead k a := by
    intro a; simp [State.coreRead, State.provides, State.peek, hs, hd]
  induction n generalizing a with
  | zero => rfl
  | succ n ih => simp only [State.memRead, hc, ih]

/-! ## The input of a pass -/

theorem srcBytes_length {s : State} {a n : Nat} {bs : List Byte} (h : srcBytes s a n = some bs) :
    bs.length = n := by
  unfold srcBytes at h
  split at h
  · exact memRead_length h
  · simp at h; subst h; simp
  · simp at h; subst h; simp

theorem srcBytes_none {s : State} {a n : Nat} (h : srcBytes s a n = none) :
    s.core.src = .inp ∧ ∃ j, j < n ∧ s.provides .inp (a + j) = false := by
  unfold srcBytes at h
  split at h
  · rename_i hs; exact ⟨hs, memRead_none h⟩
  · simp at h
  · simp at h

/-! ## The reads a command's write settles (R248) -/

@[simp] theorem setRead_length (l : List Word) (n : Nat) (w : Word) : (setRead l n w).length = l.length := by
  unfold setRead; split <;> simp

theorem setRead_readNo (l : List Word) (n m : Nat) (w : Word) :
    (setRead l n w).reverse[m]? = if m = n ∧ n < l.length then some w else l.reverse[m]? := by
  unfold setRead
  split
  · rename_i h
    by_cases hm : m < l.length
    · rw [List.getElem?_reverse (by simpa using hm), List.getElem?_reverse hm, List.length_set,
        List.getElem?_set]
      by_cases e : m = n
      · subst e; simp [show l.length - 1 - m < l.length by omega, hm]
      · rw [if_neg (by omega), if_neg (by omega)]
    · rw [if_neg (by omega)]; simp [hm]
  · simp [*]

@[simp] theorem settleReads_nil (d a : Nat) (b : Byte) (l : List Word) : settleReads d a b [] l = l := rfl

@[simp] theorem settleReads_length (d a : Nat) (b : Byte) (o : List (Nat × Nat)) (l : List Word) :
    (settleReads d a b o l).length = l.length := by
  induction o generalizing l with
  | nil => rfl
  | cons p o ih => simp only [settleReads, ih]; split <;> simp

/-- All a settling can do to the read numbered `m`: leave it, or give it the command's byte if it is owed a
choice at that address. -/
theorem settleReads_readNo (d a : Nat) (b : Byte) (o : List (Nat × Nat)) (l : List Word) (m : Nat) :
    (settleReads d a b o l).reverse[m]? = l.reverse[m]? ∨
      ((m, a) ∈ o ∧ (settleReads d a b o l).reverse[m]? = some (b.setWidth 32)) := by
  induction o generalizing l with
  | nil => exact .inl rfl
  | cons p o ih =>
    simp only [settleReads]
    rcases ih (if p.2 = a ∧ Config.readTakesWritten d p.1 = true then setRead l p.1 (b.setWidth 32) else l)
      with h | ⟨h1, h2⟩
    · rw [h]
      split
      · rename_i hp
        rw [setRead_readNo]
        split
        · rename_i hm
          exact .inr ⟨by rw [hm.1, ← hp.1]; exact List.mem_cons_self, rfl⟩
        · exact .inl rfl
      · exact .inl rfl
    · exact .inr ⟨List.mem_cons_of_mem _ h1, h2⟩

/-! ## Writes by the CORE -/

theorem hostsByteStays_quiet {s : State} {a : Nat} (h : Memory.find? s.outMem.raced a = none) :
    s.hostsByteStays a = false := by simp [State.hostsByteStays, h]

/-- All a CORE write of `OUT` can do: change the cells of `OUT` and the bookkeeping of R248. -/
theorem writeOut_some {s t : State} {a : Nat} {b : Byte} (h : s.writeOut a b = some t) :
    s.provides .out a = true ∧
      t =
        { s with
          outMem := { s.outMem with cells := t.outMem.cells }
          shadow := Memory.put s.shadow a (if s.hostsByteStays a then b else s.peek .out a)
          reads := settleReads s.draws a b s.owed s.reads
          owed := s.owed.filter fun p => p.2 != a } ∧
      t.outMem.cells = if s.hostsByteStays a then s.outMem.cells else Memory.poke s.outMem.cells a b := by
  unfold State.writeOut at h
  split at h
  · rename_i hp; simp only [Option.some.injEq] at h; subst h; exact ⟨hp, rfl, rfl⟩
  · simp at h

theorem writeOut_none {s : State} {a : Nat} {b : Byte} (h : s.writeOut a b = none) :
    s.provides .out a = false := by
  unfold State.writeOut at h
  split at h
  · simp at h
  · rename_i hp; simpa using hp

theorem writeOut_quiet {s : State} {a : Nat} (b : Byte) (hq : s.quiet) (h : s.provides .out a = true) :
    s.writeOut a b =
      some
        { s with
          outMem := { s.outMem with cells := Memory.poke s.outMem.cells a b }
          shadow := Memory.put s.shadow a (s.peek .out a)
          reads := settleReads s.draws a b s.owed s.reads
          owed := s.owed.filter fun p => p.2 != a } := by
  have : s.hostsByteStays a = false := hostsByteStays_quiet (by simp [show s.outMem.raced = [] from hq .out])
  simp [State.writeOut, h, this]

/-- All a delivery of output bytes can do: change the cells of `OUT` with the bookkeeping of R248, or
`SEED`, or `RESULT`. -/
theorem deliverBytes_some {bs : List Byte} {s t : State} {a : Nat} (h : deliverBytes s a bs = some t) :
    t =
        { s with
          core := { s.core with seed := t.core.seed, result := t.core.result }
          outMem := { s.outMem with cells := t.outMem.cells }
          shadow := t.shadow
          reads := t.reads
          owed := t.owed } ∧
      (s.core.dst ≠ .out →
        t.outMem = s.outMem ∧ t.shadow = s.shadow ∧ t.reads = s.reads ∧ t.owed = s.owed) ∧
      (s.core.dst ≠ .seed → t.core.seed = s.core.seed) ∧
      (s.core.dst ≠ .result → t.core.result = s.core.result) := by
  induction bs generalizing s a with
  | nil => simp [deliverBytes] at h; subst h; simp
  | cons b bs ih =>
    simp only [deliverBytes] at h
    split at h
    · simp at h
    · rename_i u hu
      obtain ⟨h1, h2, h3, h4⟩ := ih h
      unfold deliverByte at hu
      split at hu
      · rename_i hd
        obtain ⟨-, hu2, -⟩ := writeOut_some hu
        have hc : u.core = s.core := by rw [hu2]
        rw [hc] at h2 h3 h4
        refine ⟨?_, fun h => absurd hd h, h3, h4⟩
        rw [h1, hu2]
      · rename_i hd
        simp at hu
        have hc : u.core.dst = .seed := by rw [← hu]; exact hd
        rw [hc] at h2 h3 h4
        refine ⟨?_, fun _ => ?_, fun h => absurd hd h, fun h => ?_⟩
        · rw [h1, ← hu]
        · have := h2 (by simp); rw [← hu] at this; exact this
        · rw [h4 (by simp), ← hu]
      · rename_i hd
        simp at hu
        have hc : u.core.dst = .result := by rw [← hu]; exact hd
        rw [hc] at h2 h3 h4
        refine ⟨?_, fun _ => ?_, fun h => ?_, fun h => absurd hd h⟩
        · rw [h1, ← hu]
        · have := h2 (by simp); rw [← hu] at this; exact this
        · rw [h3 (by simp), ← hu]

/-- `deliverBytes_some` with the things that change named, so that the new state can be put in place of
its variable. -/
theorem deliverBytes_update {bs : List Byte} {s t : State} {a : Nat} (h : deliverBytes s a bs = some t) :
    ∃ (seed : Vector Word 16) (result : Vector Word 8) (cells shadow : List Host.Cell) (reads : List Word)
        (owed : List (Nat × Nat)),
      t =
          { s with
            core := { s.core with seed := seed, result := result }
            outMem := { s.outMem with cells := cells }
            shadow := shadow
            reads := reads
            owed := owed } ∧
        (s.core.dst ≠ .out → cells = s.outMem.cells) ∧ (s.core.dst ≠ .seed → seed = s.core.seed) ∧
        (s.core.dst ≠ .result → result = s.core.result) := by
  obtain ⟨h1, h2, h3, h4⟩ := deliverBytes_some h
  exact ⟨t.core.seed, t.core.result, t.outMem.cells, t.shadow, t.reads, t.owed, h1,
    fun h => by rw [(h2 h).1], h3, h4⟩

/-- All a delivery can do to the host's reads: the read numbered `m` stays, or it is owed a choice at an
address the delivery writes and takes the byte written there; what is owed still is what was owed and is
not written. -/
theorem deliverBytes_reads {bs : List Byte} {s t : State} {a : Nat} (h : deliverBytes s a bs = some t) :
    t.reads.length = s.reads.length ∧
      (∀ m,
        t.reads.reverse[m]? = s.reads.reverse[m]? ∨
          ∃ j, j < bs.length ∧ (m, a + j) ∈ s.owed ∧ s.core.dst = .out ∧
            t.reads.reverse[m]? = some ((bs.getD j 0).setWidth 32)) ∧
      ∀ p ∈ t.owed, p ∈ s.owed ∧ (s.core.dst = .out → ¬(a ≤ p.2 ∧ p.2 < a + bs.length)) := by
  induction bs generalizing s a with
  | nil =>
    simp [deliverBytes] at h; subst h
    exact ⟨rfl, fun _ => .inl rfl, fun p hp => ⟨hp, fun _ => by simp⟩⟩
  | cons b bs ih =>
    simp only [deliverBytes] at h
    split at h
    · simp at h
    · rename_i u hu
      obtain ⟨h1, h2, h3⟩ := ih h
      unfold deliverByte at hu
      split at hu
      · rename_i hd
        obtain ⟨-, hu2, -⟩ := writeOut_some hu
        have eo : u.owed = s.owed.filter fun p => p.2 != a := by rw [hu2]
        have er : u.reads = settleReads s.draws a b s.owed s.reads := by rw [hu2]
        have ed : u.core.dst = .out := by rw [hu2]; exact hd
        rw [er] at h1 h2
        rw [eo] at h2 h3
        rw [ed] at h2 h3
        refine ⟨by rw [h1]; simp, fun m => ?_, fun p hp => ?_⟩
        · rcases h2 m with e | ⟨j, hj, hm, -, e⟩
          · rw [e]
            rcases settleReads_readNo s.draws a b s.owed s.reads m with e' | ⟨hm, e'⟩
            · exact .inl e'
            · exact .inr ⟨0, by simp, by simpa using hm, hd, by simpa using e'⟩
          · refine .inr ⟨j + 1, by simpa using hj, ?_, hd, by simpa using e⟩
            have := (List.mem_filter.1 hm).1
            rwa [show a + (j + 1) = a + 1 + j by omega]
        · obtain ⟨hp1, hp2⟩ := h3 p hp
          obtain ⟨hp3, hp4⟩ := List.mem_filter.1 hp1
          simp only [bne_iff_ne, ne_eq] at hp4
          refine ⟨hp3, fun _ => ?_⟩
          have := hp2 rfl
          simp only [List.length_cons]; omega
      all_goals
        rename_i hd
        simp at hu
        subst hu
        refine ⟨h1, fun m => ?_, fun p hp => ⟨(h3 p hp).1, fun h => by rw [hd] at h; cases h⟩⟩
        rcases h2 m with e | ⟨j, -, -, e, -⟩
        · exact .inl e
        · exact absurd (hd.symm.trans e) (by decide)

/-- What a delivery to `OUT` does to every byte of it and to the other value kept beside it (R135, R248). -/
theorem deliverBytes_out {bs : List Byte} {s t : State} {a : Nat} (h : deliverBytes s a bs = some t)
    (hd : s.core.dst = .out) (hw : Memory.wf MemSpace.out.bytes s.outMem.cells = true) (x : Nat) :
    (t.peek .out x =
        if (a ≤ x ∧ x < a + bs.length) ∧ s.hostsByteStays x = false then bs.getD (x - a) 0
        else s.peek .out x) ∧
      Memory.find? t.shadow x =
        if a ≤ x ∧ x < a + bs.length then
          some (if s.hostsByteStays x then bs.getD (x - a) 0 else s.peek .out x)
        else Memory.find? s.shadow x := by
  induction bs generalizing s a with
  | nil =>
    simp [deliverBytes] at h; subst h
    simp [show ¬(a ≤ x ∧ x < a) by omega]
  | cons b bs ih =>
    simp only [deliverBytes] at h
    split at h
    · simp at h
    · rename_i u hu
      simp only [deliverByte, hd] at hu
      obtain ⟨hp, hu2, hc⟩ := writeOut_some hu
      have hs : ∀ y, u.hostsByteStays y = s.hostsByteStays y := fun y => by
        simp only [State.hostsByteStays]; rw [hu2]
      have hpk : ∀ y, u.peek .out y = if y = a ∧ s.hostsByteStays y = false then b else s.peek .out y := by
        intro y
        simp only [State.peek, State.space_out, hc]
        by_cases hst : s.hostsByteStays a = true
        · rw [if_pos hst, if_neg]; rintro ⟨rfl, e⟩; rw [hst] at e; cases e
        · rw [if_neg hst, Memory.peek_poke b hw]
          by_cases hy : y = a
          · subst hy; simp [hst]
          · simp [hy]
      have hsh : Memory.find? u.shadow x = if x = a then
          some (if s.hostsByteStays a then b else s.peek .out a) else Memory.find? s.shadow x := by
        rw [hu2]
        by_cases e : x = a
        · rw [if_pos e, e, Memory.find?_put_self]
        · rw [if_neg e, Memory.find?_put_other _ _ _ _ e]
      have hwu : Memory.wf MemSpace.out.bytes u.outMem.cells = true := by
        rw [hc]; split
        · exact hw
        · exact Memory.wf_poke b hw (provides_lt hp)
      obtain ⟨h1, h2⟩ := ih h (by rw [hu2]; exact hd) hwu
      rw [h1, h2, hs, hpk, hsh]
      rcases Nat.lt_trichotomy x a with hx | hx | hx
      · simp [show ¬ a + 1 ≤ x by omega, show ¬ a ≤ x by omega, show x ≠ a by omega]
      · subst hx; simp
      · obtain ⟨d, rfl⟩ : ∃ d, x = a + 1 + d := ⟨x - a - 1, by omega⟩
        simp only [show a + 1 ≤ a + 1 + d by omega, show a ≤ a + 1 + d by omega,
          show a + 1 + d ≠ a by omega, show a + 1 + d - (a + 1) = d by omega,
          show a + 1 + d - a = d + 1 by omega, List.getD_cons_succ, List.length_cons, true_and, if_false,
          false_and, show a + 1 + d < a + 1 + bs.length ↔ a + 1 + d < a + (bs.length + 1) by omega]

/-- What a delivery leaves alone at an address of `OUT` it does not write: the byte, its other value, the
reads owed there, and every race. -/
theorem deliverBytes_other {bs : List Byte} {s t : State} {a x : Nat} (h : deliverBytes s a bs = some t)
    (hx : s.core.dst = .out → ¬(a ≤ x ∧ x < a + bs.length)) :
    t.peek .out x = s.peek .out x ∧ Memory.find? t.shadow x = Memory.find? s.shadow x ∧
      (∀ n, (n, x) ∈ s.owed → (n, x) ∈ t.owed) ∧ t.outMem.raced = s.outMem.raced := by
  by_cases hd : s.core.dst = .out
  · replace hx := hx hd
    induction bs generalizing s a with
    | nil => simp [deliverBytes] at h; subst h; exact ⟨rfl, rfl, fun _ h => h, rfl⟩
    | cons b bs ih =>
      simp only [deliverBytes] at h
      split at h
      · cases h
      · rename_i u hu
        simp only [deliverByte, hd] at hu
        simp only [List.length_cons] at hx
        obtain ⟨-, e, hc⟩ := writeOut_some hu
        have hne : x ≠ a := by omega
        obtain ⟨h1, h2, h3, h4⟩ := ih h (by rw [e]; exact hd) (by omega)
        refine ⟨h1.trans ?_, h2.trans ?_, fun n hn => h3 n ?_, h4.trans (by rw [e])⟩
        · simp only [State.peek, State.space_out, hc]
          split
          · rfl
          · exact Memory.peek_poke_other _ hne
        · rw [e]; exact Memory.find?_put_other _ _ _ _ hne
        · rw [e]; exact List.mem_filter.2 ⟨hn, by simpa using hne⟩
  · obtain ⟨h1, h2, h3, h4⟩ := (deliverBytes_some h).2.1 hd
    exact ⟨by simp only [State.peek, State.space_out, h1], by rw [h2], fun _ h => by rw [h4]; exact h, by rw [h1]⟩

/-- A delivery fails only where `OUT` is not there. -/
theorem deliverBytes_none {bs : List Byte} {s : State} {a : Nat} (h : deliverBytes s a bs = none) :
    s.core.dst = .out ∧ ∃ j, j < bs.length ∧ s.provides .out (a + j) = false := by
  induction bs generalizing s a with
  | nil => simp [deliverBytes] at h
  | cons b bs ih =>
    simp only [deliverBytes] at h
    split at h
    · rename_i hu
      unfold deliverByte at hu
      split at hu
      · rename_i hd; exact ⟨hd, 0, by simp, writeOut_none hu⟩
      · simp at hu
      · simp at hu
    · rename_i u hu
      obtain ⟨h1, j, h2, h3⟩ := ih h
      have hk : deliverBytes s a [b] = some u := by simp [deliverBytes, hu]
      have e := (deliverBytes_some hk).1
      have hd : u.core.dst = s.core.dst := by rw [e]
      have hp : ∀ x, u.provides .out x = s.provides .out x := by
        intro x; simp only [State.provides, State.space_out]; rw [e]
      refine ⟨hd ▸ h1, j + 1, by simpa using h2, ?_⟩
      rw [← h3, hp]; congr 1; omega

/-- A delivery keeps the canonical form of `OUT`. -/
theorem deliverBytes_wf {bs : List Byte} {s t : State} {a : Nat} (h : deliverBytes s a bs = some t)
    (hw : Memory.wf MemSpace.out.bytes s.outMem.cells = true) :
    Memory.wf MemSpace.out.bytes t.outMem.cells = true := by
  induction bs generalizing s a with
  | nil => simp [deliverBytes] at h; subst h; exact hw
  | cons b bs ih =>
    simp only [deliverBytes] at h
    split at h
    · simp at h
    · rename_i u hu
      refine ih h ?_
      unfold deliverByte at hu
      split at hu
      · obtain ⟨hp, -, hc⟩ := writeOut_some hu
        rw [hc]
        split
        · exact hw
        · exact Memory.wf_poke b hw (provides_lt hp)
      · simp at hu; subst hu; exact hw
      · simp at hu; subst hu; exact hw

/-- Where nothing is raced and there is room, a delivery puts byte `j` of the string at output offset
`a + j` and leaves every other output byte. -/
theorem deliverBytes_quiet (bs : List Byte) (s : State) (a : Nat) (hq : s.quiet)
    (hw : Memory.wf MemSpace.out.bytes s.outMem.cells = true)
    (hc : a + bs.length ≤ s.core.dst.capacity)
    (hp : s.core.dst = .out → ∀ j, j < bs.length → s.provides .out (a + j) = true) :
    ∃ t, deliverBytes s a bs = some t ∧
      ∀ x, t.outputByte s.core.dst x =
        if a ≤ x ∧ x < a + bs.length then bs.getD (x - a) 0 else s.outputByte s.core.dst x := by
  induction bs generalizing s a with
  | nil => exact ⟨s, rfl, fun x => by simp [show ¬(a ≤ x ∧ x < a) by omega]⟩
  | cons b bs ih =>
    simp only [List.length_cons] at hc hp
    have main : ∃ u, deliverByte s a b = some u ∧ u.quiet ∧ u.core.dst = s.core.dst ∧
        Memory.wf MemSpace.out.bytes u.outMem.cells = true ∧
        (∀ x, u.provides .out x = s.provides .out x) ∧
        ∀ x, u.outputByte s.core.dst x =
          if x = a then b else s.outputByte s.core.dst x := by
      unfold deliverByte
      split
      · rename_i hd
        have h0 := hp hd 0 (by omega)
        rw [Nat.add_zero] at h0
        rw [writeOut_quiet b hq h0]
        refine ⟨_, rfl, ?_, rfl, Memory.wf_poke b hw (provides_lt h0), fun x => rfl, ?_⟩
        · intro k; have := hq k; cases k <;> exact this
        · intro x
          simp only [hd, State.outputByte, State.peek, State.space_out]
          exact Memory.peek_poke b hw x
      · rename_i hd
        refine ⟨_, rfl, hq, rfl, hw, fun x => rfl, ?_⟩
        intro x
        simp only [hd, Dest.capacity] at hc
        simp only [hd, State.outputByte]
        exact wordByte_setWordByte_any _ _ _ _ (by omega)
      · rename_i hd
        refine ⟨_, rfl, hq, rfl, hw, fun x => rfl, ?_⟩
        intro x
        simp only [hd, Dest.capacity] at hc
        simp only [hd, State.outputByte]
        exact wordByte_setWordByte_any _ _ _ _ (by omega)
    obtain ⟨u, hu, huq, hud, huw, hup, hub⟩ := main
    obtain ⟨t, ht, htb⟩ := ih u (a + 1) huq huw (by rw [hud]; omega) fun h j hj => by
      rw [hup]; have := hp (hud ▸ h) (j + 1) (by omega); rw [← this]; congr 1; omega
    refine ⟨t, by simp [deliverBytes, hu, ht], fun x => ?_⟩
    rw [hud] at htb
    rw [htb x, hub x]
    rcases Nat.lt_trichotomy x a with h | h | h
    · simp [show ¬ a + 1 ≤ x by omega, show ¬ a ≤ x by omega, show x ≠ a by omega]
    · subst h; simp
    · obtain ⟨d, rfl⟩ : ∃ d, x = a + 1 + d := ⟨x - a - 1, by omega⟩
      simp only [show a + 1 ≤ a + 1 + d by omega, show a ≤ a + 1 + d by omega,
        show a + 1 + d ≠ a by omega, show a + 1 + d - (a + 1) = d by omega,
        show a + 1 + d - a = d + 1 by omega, List.getD_cons_succ, List.length_cons, true_and, if_false]
      congr 1
      simp only [eq_iff_iff]
      omega

end Sys2Proof.Machine
end

