-- ==== Sys2Proof/Laws/Acceptance.lean ====
section
/-! SUPPORT. The acceptance of each command when no check fails, in closed form, and the shape of every
acceptance (30_encoding.md rule R91, 60_exceptions.md rules R213 to R216). -/

namespace Sys2Proof.Machine

theorem pair_toNat (a b : Word) : BitVec.toNat (w := 64) (a ++ b) = 2 ^ 32 * a.toNat + b.toNat := by
  refine (BitVec.toNat_append _ _).trans ?_
  rw [← Nat.shiftLeft_add_eq_or_of_lt (BitVec.isLt _), Nat.shiftLeft_eq]; omega

theorem CoreRegs.fullSize_toNat (c : CoreRegs) :
    c.fullSize.toNat = 2 ^ 32 * c.fullSizeHi.toNat + c.fullSizeLo.toNat := pair_toNat _ _

theorem word_ne_zero (w : Word) : w ≠ 0 ↔ 0 < w.toNat := by
  rw [ne_eq, ← BitVec.toNat_inj]; simp [Nat.pos_iff_ne_zero]

theorem word_eq_zero (w : Word) : w = 0 ↔ w.toNat = 0 := by rw [← BitVec.toNat_inj]; rfl

/-- The tests `HASH` makes on the bits of `FULLSIZE`, as tests on the number (R171). -/
theorem fullSize_tests (n : BitVec 64) :
    (n = 0 ↔ n.toNat = 0) ∧ (n.extractLsb' 0 7 ≠ 0 ↔ n.toNat % 128 ≠ 0) ∧
      (n.extractLsb' 39 25 ≠ 0 ↔ 2 ^ 39 ≤ n.toNat) := by
  refine ⟨by rw [← BitVec.toNat_inj]; rfl, ?_, ?_⟩
  · rw [ne_eq, ← BitVec.toNat_inj]; simp
  · rw [ne_eq, ← BitVec.toNat_inj]; simp [Nat.shiftRight_eq_div_pow]; have := n.isLt; omega

theorem checkBuffers_ok (go : CoreRegs → CoreRegs) {c : CoreRegs}
    (h1 : ¬(0 < c.outLen.toNat ∧ c.outPresent = false)) (h2 : ¬(0 < c.inLen.toNat ∧ c.inPresent = false)) :
    checkBuffers go c = go c := by
  simp only [checkBuffers, word_ne_zero, h1, h2, if_false]

theorem firstError_none (i : Instr) (c : CoreRegs) :
    firstError i c = none ↔ ∀ p ∈ commandChecks i c, p.1 = false := by
  simp [firstError]

/-- Only the operand registers decide which check fails (R216). -/
theorem firstError_congr (i : Instr) (c : CoreRegs) (a : Word) (r m : Vector Word 8) (d e : Bool)
    (x : BitVec 8) :
    firstError i { c with acc := a, result := r, mixHash := m, done := d, err := e, errCode := x } =
      firstError i c := by
  cases i <;> rfl

theorem execSponge_starts {s : State} (hb : s.core.busy = false) (h : firstError .sponge s.core = none) :
    exec .sponge s =
        .next
          { s with
            core :=
              startSponge (s.core.rate.extractLsb' 0 8) s.core.domain .inp s.core.inLen .out
                s.core.outLen s.core.clearStatus } ∧
      1 ≤ s.core.rate.toNat ∧ s.core.rate.toNat ≤ 199 ∧
      (s.core.rate.extractLsb' 0 8).toNat = s.core.rate.toNat := by
  simp only [firstError_none, commandChecks, List.mem_cons, forall_eq_or_imp,
    decide_eq_false_iff_not] at h
  obtain ⟨h1, h2, h3, -⟩ := h
  refine ⟨?_, by omega, by omega, by simp; omega⟩
  simp only [exec, execSponge]; rw [acceptance_of_idle _ _ hb]
  have : ¬(200 ≤ s.core.clearStatus.rate.toNat ∨ s.core.clearStatus.rate = 0) := by
    simp only [CoreRegs.clearStatus_rate, word_eq_zero]; tauto
  simp only [acceptSponge, this, if_false]
  rw [checkBuffers_ok (c := s.core.clearStatus) _ h2 h3]; rfl

theorem execDigest256_starts {s : State} (hb : s.core.busy = false)
    (h : firstError .digest256 s.core = none) :
    exec .digest256 s =
        .next
          { s with
            core :=
              startSponge rate256 domainByte .inp s.core.inLen .out s.core.outLen s.core.clearStatus } ∧
      s.core.outLen.toNat ≤ 32 := by
  simp only [firstError_none, commandChecks, List.mem_cons, forall_eq_or_imp,
    decide_eq_false_iff_not] at h
  obtain ⟨h1, h2, h3, -⟩ := h
  refine ⟨?_, by omega⟩
  simp only [exec, execDigest256]; rw [acceptance_of_idle _ _ hb]
  have : ¬digestSize256.toNat < s.core.clearStatus.outLen.toNat := h1
  simp only [acceptDigest256, this, if_false]
  rw [checkBuffers_ok (c := s.core.clearStatus) _ h2 h3]; rfl

theorem execDigest512_starts {s : State} (hb : s.core.busy = false)
    (h : firstError .digest512 s.core = none) :
    exec .digest512 s =
        .next
          { s with
            core :=
              startSponge rate512 domainByte .inp s.core.inLen .out s.core.outLen s.core.clearStatus } ∧
      s.core.outLen.toNat ≤ 64 := by
  simp only [firstError_none, commandChecks, List.mem_cons, forall_eq_or_imp,
    decide_eq_false_iff_not] at h
  obtain ⟨h1, h2, h3, -⟩ := h
  refine ⟨?_, by omega⟩
  simp only [exec, execDigest512]; rw [acceptance_of_idle _ _ hb]
  have : ¬digestSize512.toNat < s.core.clearStatus.outLen.toNat := h1
  simp only [acceptDigest512, this, if_false]
  rw [checkBuffers_ok (c := s.core.clearStatus) _ h2 h3]; rfl

theorem execHash_starts {s : State} (hb : s.core.busy = false) (h : firstError .hash s.core = none) :
    exec .hash s = .next { s with core := startHash (clearRecord s.core.clearStatus) } ∧
      s.core.fullSize.toNat ≠ 0 ∧ s.core.fullSize.toNat % 128 = 0 ∧ s.core.fullSize.toNat < 2 ^ 39 ∧
      s.core.fullSize.toNat ≤ s.core.dsLen.toNat ∧
      (s.core.fullSize.extractLsb' 7 32).toNat * 128 = s.core.fullSize.toNat := by
  simp only [firstError_none, commandChecks, List.mem_cons, forall_eq_or_imp,
    decide_eq_false_iff_not] at h
  obtain ⟨h1, h2, h3, -⟩ := h
  refine ⟨?_, by omega, by omega, by omega, by omega, ?_⟩
  · simp only [exec, execHash]; rw [acceptance_of_idle _ _ hb]
    obtain ⟨f0, f1, f2⟩ := fullSize_tests s.core.fullSize
    have e4 : (clearRecord s.core.clearStatus).fullSize = s.core.fullSize := rfl
    have e5 : (clearRecord s.core.clearStatus).dsLen = s.core.dsLen := rfl
    simp only [acceptHash, e4, e5, f0, f1, f2, h1, h2, h3, if_false]
  · simp [Nat.shiftRight_eq_div_pow]; omega

/-- An acceptance changes nothing but the CORE's registers. -/
theorem exec_shape {i : Instr} {s t : State} (h : exec i s = .next t) :
    ∃ c, t = { s with core := c } := by
  cases i <;>
    simp only [exec, execPermute, execSponge, execDigest256, execDigest512, execMix, execFold,
      execHash] at h <;>
    unfold acceptance at h <;> split at h <;> cases h <;> exact ⟨_, rfl⟩

/-- While BUSY a command word changes nothing (R30). -/
theorem exec_of_busy (i : Instr) {s : State} (h : s.core.busy = true) : exec i s = .next s := by
  cases i <;> exact acceptance_of_busy _ _ h

end Sys2Proof.Machine
end

