-- ==== Sys2Proof/Laws/Sequencer.lean ====
section
/-! SUPPORT. All a step can do, said once: one case per step rule of the sequencer (10_state.md rule
R26), and one per move of the host. -/

namespace Sys2Proof.Machine

/-- Every way the sequencer's step can answer a next state. -/
inductive SequencerMove (s : State) : State → Prop where
  /-- R117. -/
  | engine (hp : s.core.peRun = true) : SequencerMove s (peStep s)
  /-- R133, a full block. -/
  | absorb (block : List Byte) (hp : s.core.peRun = false) (hs : s.core.scPhase = .absorb)
      (hr : s.core.rRate.toNat ≤ s.core.rem.toNat)
      (hb : srcBytes s s.core.inPos.toNat s.core.rRate.toNat = some block) :
      SequencerMove s (State.draw { s with core := absorbBlock s.core block })
  /-- R133, less than a block. -/
  | absorbEnd (hp : s.core.peRun = false) (hs : s.core.scPhase = .absorb)
      (hr : s.core.rem.toNat < s.core.rRate.toNat) :
      SequencerMove s { s with core := { s.core with scPhase := .pad } }
  /-- R134. -/
  | pad (tail : List Byte) (hp : s.core.peRun = false) (hs : s.core.scPhase = .pad)
      (hb : srcBytes s s.core.inPos.toNat s.core.rem.toNat = some tail) :
      SequencerMove s (State.draw { s with core := padBlock s.core tail })
  /-- R135, a full block. -/
  | squeeze (u : State) (hp : s.core.peRun = false) (hs : s.core.scPhase = .squeeze)
      (hr : s.core.rRate.toNat ≤ s.core.orem.toNat)
      (hu : deliverBytes s s.core.outPos.toNat (laneBytes s.core.lanes s.core.rRate.toNat) = some u) :
      SequencerMove s (State.draw { u with core := squeezeBlock u.core })
  /-- R135, the final chunk. -/
  | squeezeEnd (u : State) (hp : s.core.peRun = false) (hs : s.core.scPhase = .squeeze)
      (hr : s.core.orem.toNat < s.core.rRate.toNat)
      (hu : deliverBytes s s.core.outPos.toNat (laneBytes s.core.lanes s.core.orem.toNat) = some u) :
      SequencerMove s (State.draw { u with core := squeezeTail u.core })
  /-- R136. -/
  | clear (hp : s.core.peRun = false) (hs : s.core.scPhase = .clear) : SequencerMove s (scClear s)
  /-- R174. -/
  | tile (hp : s.core.peRun = false) (hs : s.core.scPhase = .idle) (hh : s.core.hoPhase = .tile) :
      SequencerMove s { s with core := hoTile s.core }
  /-- R175. -/
  | access (b0 b1 : List Byte) (hp : s.core.peRun = false) (hs : s.core.scPhase = .idle)
      (hh : s.core.hoPhase = .access)
      (h0 : s.memRead .dset (blockAddr s.core.nextPage 0) 64 = some b0)
      (h1 : s.memRead .dset (blockAddr s.core.nextPage 1) 64 = some b1) :
      SequencerMove s (State.draw { s with core := accessRegs s.core b0 b1 })
  /-- R179. -/
  | fold (hp : s.core.peRun = false) (hs : s.core.scPhase = .idle) (hh : s.core.hoPhase = .fold) :
      SequencerMove s { s with core := hoFold s.core }
  /-- R180. -/
  | final (hp : s.core.peRun = false) (hs : s.core.scPhase = .idle) (hh : s.core.hoPhase = .final) :
      SequencerMove s { s with core := hoFinal s.core }
  /-- R181. -/
  | finish (hp : s.core.peRun = false) (hs : s.core.scPhase = .idle) (hh : s.core.hoPhase = .finish) :
      SequencerMove s (hoEnd s)
  /-- No step is enabled (R26). -/
  | idle (hb : s.core.busy = false) : SequencerMove s s

theorem scAbsorb_cases {s t : State} (hp : s.core.peRun = false) (hs : s.core.scPhase = .absorb)
    (h : scAbsorb s = .next t) : SequencerMove s t := by
  unfold scAbsorb at h
  split at h
  · rename_i hr
    split at h
    · cases h
    · rename_i block hb; cases h; exact .absorb block hp hs hr hb
  · rename_i hr; cases h; exact .absorbEnd hp hs (by omega)

theorem scPad_cases {s t : State} (hp : s.core.peRun = false) (hs : s.core.scPhase = .pad)
    (h : scPad s = .next t) : SequencerMove s t := by
  unfold scPad at h
  split at h
  · cases h
  · rename_i tail hb; cases h; exact .pad tail hp hs hb

theorem scSqueeze_cases {s t : State} (hp : s.core.peRun = false) (hs : s.core.scPhase = .squeeze)
    (h : scSqueeze s = .next t) : SequencerMove s t := by
  unfold scSqueeze at h
  split at h
  · rename_i hr
    split at h
    · cases h
    · rename_i u hu; cases h; exact .squeeze u hp hs hr hu
  · rename_i hr
    split at h
    · cases h
    · rename_i u hu; cases h; exact .squeezeEnd u hp hs (by omega) hu

theorem hoAccess_cases {s t : State} (hp : s.core.peRun = false) (hs : s.core.scPhase = .idle)
    (hh : s.core.hoPhase = .access) (h : hoAccess s = .next t) : SequencerMove s t := by
  unfold hoAccess at h
  split at h
  · rename_i b0 b1 h0 h1; cases h; exact .access b0 b1 hp hs hh h0 h1
  · cases h

/-- All the sequencer's step can do. -/
theorem sequencerStep_cases {s t : State} (h : sequencerStep s = .next t) : SequencerMove s t := by
  unfold sequencerStep at h
  split at h
  · rename_i hp; cases h; exact .engine hp
  · rename_i hp
    have hp : s.core.peRun = false := by simpa using hp
    unfold controllerStep at h
    split at h
    · rename_i hs; exact scAbsorb_cases hp hs h
    · rename_i hs; exact scPad_cases hp hs h
    · rename_i hs; exact scSqueeze_cases hp hs h
    · rename_i hs; cases h; exact .clear hp hs
    · rename_i hs
      split at h
      · rename_i hh; cases h; exact .tile hp hs hh
      · rename_i hh; exact hoAccess_cases hp hs hh h
      · rename_i hh; cases h; exact .fold hp hs hh
      · rename_i hh; cases h; exact .final hp hs hh
      · rename_i hh; cases h; exact .finish hp hs hh
      · rename_i hh; cases h; exact .idle ((CoreRegs.busy_eq_false _).2 ⟨hp, hs, hh⟩)

/-- The sequencer's step looks at and changes nothing of the host's side, but for the reads that a
command's write settles (R248). -/
theorem sequencerMove_host {s t : State} (h : SequencerMove s t) :
    t.host = s.host ∧ t.reads.length = s.reads.length ∧
      (s.owed = [] → t.reads = s.reads ∧ t.owed = []) := by
  have deliver : ∀ {u : State} {n : Nat}, deliverBytes s s.core.outPos.toNat (laneBytes s.core.lanes n) =
      some u → u.host = s.host ∧ u.reads.length = s.reads.length ∧
        (s.owed = [] → u.reads = s.reads ∧ u.owed = []) := by
    intro u n hu
    have e := (deliverBytes_some hu).1
    obtain ⟨h1, h2, h3⟩ := deliverBytes_reads hu
    refine ⟨by rw [e], h1, fun ho => ⟨?_, ?_⟩⟩
    · refine List.reverse_injective (List.ext_getElem? fun m => ?_)
      rcases h2 m with e | ⟨j, -, hm, -⟩
      · exact e
      · simp [ho] at hm
    · exact List.eq_nil_iff_forall_not_mem.2 fun p hp => by simpa [ho] using (h3 p hp).1
  cases h with
  | engine => unfold peStep; split <;> exact ⟨rfl, rfl, fun h => ⟨rfl, by first | rfl | exact h⟩⟩
  | squeeze u hp hs hr hu => have := deliver hu; exact this
  | squeezeEnd u hp hs hr hu => have := deliver hu; exact this
  | clear => unfold scClear; split <;> exact ⟨rfl, rfl, fun h => ⟨rfl, by first | rfl | exact h⟩⟩
  | finish => exact ⟨rfl, rfl, fun _ => ⟨rfl, rfl⟩⟩
  | _ => exact ⟨rfl, rfl, fun h => ⟨rfl, h⟩⟩

/-- Every way a step can answer a next state, `s` being the state with the move taken off the
schedule. -/
inductive HostStep (s : State) : State → Prop where
  /-- A `tick`, or nothing scheduled. -/
  | sequencer (t : State) (h : SequencerMove s t) : HostStep s t
  /-- A `WAIT` that has still to wait. -/
  | waiting (t : State) (hb : s.core.busy = true)
      (h : SequencerMove { s with host := .wait :: s.host } t) : HostStep s t
  /-- R240. -/
  | reset : HostStep s (resetMove s)
  /-- A value given to the host. -/
  | given (w : Word) : HostStep s (s.deliver w)
  /-- A free draw given to the host. -/
  | drawn (w : Word) : HostStep s (s.deliver w).draw
  /-- A read of a byte of `OUT` that the running command writes (R248). -/
  | raced (a : Nat) (hw : s.core.writesOut a = true) (hd : Doubt.covers s.doubt a = false) :
      HostStep s (readWhileWritten a s)
  /-- A write of `CMD` that decodes. -/
  | command (i : Instr) (t : State) (h : exec i s = .next t) : HostStep s t
  /-- A write of `CMD` that does not. -/
  | illegal (t : State) (h : illegalCommand s = .next t) : HostStep s t
  /-- A register write that is ignored (R30). -/
  | ignored (hb : s.core.busy = true) : HostStep s s
  /-- A register write. -/
  | written (r : Reg) (v : Word) (hb : s.core.busy = false) :
      HostStep s { s with core := s.core.writeReg r v }
  /-- A memory write by the host. -/
  | stored (k : MemSpace) (a : Nat) (b : Byte) (hp : s.provides k a = true) :
      HostStep s (hostWriteByte k a b s)
  /-- The platform's memory changed in extent. -/
  | provided (k : MemSpace) (size : Option Nat) : HostStep s (provide k size s)

theorem hostMove_cases {m : HostMove} {s t : State} (h : hostMove m s = .next t) : HostStep s t := by
  cases m with
  | tick => exact .sequencer t (sequencerStep_cases h)
  | wait =>
    simp only [hostMove, waitMove] at h
    split at h
    · rename_i hb; exact .waiting t hb (sequencerStep_cases h)
    · simp at h; subst h; exact .given _
  | reset => simp only [hostMove, Host.Outcome.next.injEq] at h; subst h; exact .reset
  | regRead a =>
    simp only [hostMove] at h
    split at h
    · simp at h
    · simp only [Host.Outcome.next.injEq] at h
      subst h
      unfold regRead
      split
      · exact .drawn _
      · exact .given _
  | regWrite a v =>
    simp only [hostMove] at h
    split at h
    · simp at h
    · unfold regWrite at h
      split at h
      · unfold writeCmd at h
        split at h
        · rename_i i hi; exact .command i t h
        · exact .illegal t h
      · split at h
        · rename_i hb; simp at h; subst h; exact .ignored hb
        · rename_i hb; simp at h; subst h; exact .written _ _ (by simpa using hb)
  | memRead k a =>
    simp only [hostMove, hostMemory] at h
    split at h
    · simp at h
    · split at h
      · simp only [Host.Outcome.next.injEq] at h
        subst h
        unfold hostReadByte
        split
        · exact .drawn _
        · rename_i hd
          split
          · rename_i hw; exact .raced a hw.2 (by simpa [hw.1] using hd)
          · exact .given _
      · simp at h
  | memWrite k a b =>
    simp only [hostMove, hostMemory] at h
    split at h
    · simp at h
    · split at h
      · rename_i hp
        simp only [Host.Outcome.next.injEq] at h
        subst h
        exact .stored k a b hp
      · simp at h
  | provide k size =>
    simp only [hostMove, Host.Outcome.next.injEq] at h
    subst h
    exact .provided k size

/-- All a step can do. -/
theorem step_cases {s t : State} (h : step s = .next t) : ∃ rest, HostStep { s with host := rest } t := by
  unfold step at h
  split at h
  · rename_i hh; exact ⟨[], .sequencer t (by
      have : ({ s with host := [] } : State) = s := by rw [← hh]
      rw [this]; exact sequencerStep_cases h)⟩
  · rename_i m rest hh; exact ⟨rest, hostMove_cases h⟩

end Sys2Proof.Machine
end

