-- ==== Sys2Proof/Laws/Run.lean ====
section
/-! SUPPORT. Runs of an unattended machine: how they compose, and what every step of them keeps. -/

namespace Sys2Proof.Machine

/-- A run of `m + n` steps is a run of `m` and then one of `n`. -/
theorem runSteps_add {m : Nat} {s t : State} (n : Nat) (h : runSteps m s = .next t) :
    runSteps (m + n) s = runSteps n t := by
  induction m generalizing s with
  | zero => simp [runSteps] at h; subst h; simp
  | succ m ih =>
    rw [show m + 1 + n = (m + n) + 1 by omega]
    simp only [runSteps] at h ⊢
    split at h
    · exact ih h
    · cases h
    · cases h

/-- With nothing scheduled, the first step of a run is the sequencer's. -/
theorem runSteps_sequencer {s t : State} (hu : s.host = []) (h : sequencerStep s = .next t) (n : Nat) :
    runSteps (n + 1) s = runSteps n t := by
  conv => lhs; unfold runSteps
  simp only [step, hu, h]

/-- No sequencer step changes the extent of a memory, and none notes a race. -/
theorem sequencerMove_space {s t : State} (h : SequencerMove s t) (k : MemSpace) :
    (t.space k).size = (s.space k).size ∧ ((s.space k).raced = [] → (t.space k).raced = []) := by
  cases h with
  | engine => unfold peStep; split <;> cases k <;> simp [State.finish]
  | squeeze u hp hs hr hu =>
    obtain ⟨x, y, z, x', y', z', rfl, -⟩ := deliverBytes_update hu; cases k <;> exact ⟨rfl, id⟩
  | squeezeEnd u hp hs hr hu =>
    obtain ⟨x, y, z, x', y', z', rfl, -⟩ := deliverBytes_update hu; cases k <;> exact ⟨rfl, id⟩
  | clear => unfold scClear; split <;> cases k <;> simp [State.finish]
  | finish => cases k <;> simp [hoEnd, State.finish]
  | idle => exact ⟨rfl, id⟩
  | _ => cases k <;> simp [State.draw]

/-- What a run of an unattended machine keeps. -/
theorem runSteps_keeps {n : Nat} {s t : State} (hu : s.host = []) (h : runSteps n s = .next t) :
    t.host = [] ∧ (s.owed = [] → t.reads = s.reads) ∧ (∀ k, (t.space k).size = (s.space k).size) ∧
      (s.quiet → t.quiet) := by
  induction n generalizing s with
  | zero => simp [runSteps] at h; subst h; exact ⟨hu, fun _ => rfl, fun _ => rfl, id⟩
  | succ n ih =>
    simp only [runSteps, step, hu] at h
    split at h
    · rename_i v hv
      have hm := sequencerStep_cases hv
      obtain ⟨e1, -, e2⟩ := sequencerMove_host hm
      obtain ⟨h1, h2, h3, h4⟩ := ih (e1.trans hu) h
      exact ⟨h1, fun ho => (h2 (e2 ho).2).trans (e2 ho).1,
        fun k => (h3 k).trans (sequencerMove_space hm k).1,
        fun hq => h4 fun k => (sequencerMove_space hm k).2 (hq k)⟩
    · cases h
    · cases h

/-- Memory is there after a run where it was before. -/
theorem runSteps_provides {n : Nat} {s t : State} (hu : s.host = []) (h : runSteps n s = .next t)
    (k : MemSpace) (a : Nat) : t.provides k a = s.provides k a := by
  simp only [State.provides, (runSteps_keeps hu h).2.2.1 k]

/-! ## What a quiet memory's bytes depend on -/

theorem quiet_of_space {s t : State} (hq : s.quiet) (h : ∀ k, t.space k = s.space k) : t.quiet :=
  fun k => by rw [h k]; exact hq k

theorem peek_of_space {s t : State} (h : ∀ k, t.space k = s.space k) (k : MemSpace) (a : Nat) :
    t.peek k a = s.peek k a := by unfold State.peek; rw [h k]

theorem provides_of_space {s t : State} (h : ∀ k, t.space k = s.space k) (k : MemSpace) (a : Nat) :
    t.provides k a = s.provides k a := by unfold State.provides; rw [h k]

/-- A read where nothing is raced depends on the memories only, not on the draws. -/
theorem memRead_congr_quiet {s t : State} (hq : s.quiet) (h : ∀ k, t.space k = s.space k) (k : MemSpace)
    (a n : Nat) : t.memRead k a n = s.memRead k a n := by
  have hc : ∀ a, t.coreRead k a = s.coreRead k a := by
    intro a; simp only [State.coreRead, State.provides, State.peek, h k, hq k, Memory.find?_nil]
  induction n generalizing a with
  | zero => rfl
  | succ n ih => simp only [State.memRead, hc, ih]

/-- The input of a pass depends on the memories, `SRC`, `SEED` and `MIX` only. -/
theorem srcBytes_congr {s t : State} (hq : s.quiet) (h : ∀ k, t.space k = s.space k)
    (h1 : t.core.src = s.core.src) (h2 : t.core.seed = s.core.seed) (h3 : t.core.mix = s.core.mix)
    (a n : Nat) : srcBytes t a n = srcBytes s a n := by
  unfold srcBytes; rw [h1, h2, h3, memRead_congr_quiet hq h]

theorem memRead_split {s : State} {k : MemSpace} {a n j : Nat} {m : List Byte}
    (h : s.memRead k a (j + n) = some m) :
    s.memRead k a j = some (m.take j) ∧ s.memRead k (a + j) n = some (m.drop j) := by
  induction j generalizing a m with
  | zero => simp at h; simp [State.memRead, h]
  | succ j ih =>
    rw [show j + 1 + n = (j + n) + 1 by omega] at h
    simp only [State.memRead] at h ⊢
    cases hc : s.coreRead k a with
    | none => rw [hc] at h; cases h
    | some b =>
      rw [hc] at h
      cases hm : s.memRead k (a + 1) (j + n) with
      | none => rw [hm] at h; cases h
      | some bs =>
        rw [hm] at h; simp at h; subst h
        obtain ⟨h1, h2⟩ := ih hm
        rw [h1]; simp [← h2]; congr 1; omega

/-- The first `j` bytes of a pass's input, and the rest. -/
theorem srcBytes_split {s : State} {a n j : Nat} {m : List Byte} (h : srcBytes s a (j + n) = some m) :
    srcBytes s a j = some (m.take j) ∧ srcBytes s (a + j) n = some (m.drop j) := by
  have split : ∀ f : Nat → Byte, ((List.range (j + n)).map f).take j = (List.range j).map f ∧
      ((List.range (j + n)).map f).drop j = (List.range n).map fun i => f (j + i) := fun f =>
    ⟨by apply List.ext_getElem <;> simp, by apply List.ext_getElem <;> simp⟩
  unfold srcBytes at h ⊢
  split at h
  · exact memRead_split h
  · simp only [Option.some.injEq] at h; subst h
    unfold wordBytes
    have := split fun i => wordByte s.core.seed (a + i)
    rw [this.1, this.2]; simp [Nat.add_assoc]
  · simp only [Option.some.injEq] at h; subst h
    have := split fun i =>
      if a + i < 64 then wordByte s.core.seed (a + i) else wordByte s.core.mix (a + i - 64)
    rw [this.1, this.2]; simp [Nat.add_assoc]

end Sys2Proof.Machine
end

