-- ==== Sys2Proof/Laws/Engine.lean ====
section
/-! SUPPORT. The PE step in closed form, and a run of the Permutation Engine inside a command
(40_permutation.md rules R116, R117). -/

namespace Sys2Proof.Machine

theorem peStep_core (s : State) :
    (peStep s).core =
      { s.core with
        lanes := keccakRound s.core.lanes s.core.rnd
        peRun := if s.core.rnd = 23 then false else s.core.peRun
        rnd := if s.core.rnd = 23 then 0 else s.core.rnd + 1
        done :=
          s.core.done ||
            decide (s.core.rnd = 23 ∧ s.core.scPhase = .idle ∧ s.core.hoPhase = .idle) } := by
  unfold peStep
  by_cases h : s.core.rnd = 23
  · by_cases h2 : s.core.scPhase = .idle ∧ s.core.hoPhase = .idle
    · simp [h, h2, peRegs, State.finish]
    · simp only [h, h2, and_false, if_false, peRegs]; simp
  · simp [h, peRegs]

theorem peStep_peek (s : State) (k : MemSpace) (a : Nat) : (peStep s).peek k a = s.peek k a := by
  unfold peStep; split <;> simp

@[simp] theorem peStep_reads (s : State) : (peStep s).reads = s.reads := by
  unfold peStep; split <;> rfl

/-- Where nothing is raced a PE step leaves the memories as they are. -/
theorem peStep_space (s : State) (hq : s.quiet) (k : MemSpace) : (peStep s).space k = s.space k := by
  have h := hq k
  unfold peStep
  split
  · cases k <;> simp only [State.finish, State.space, Space.settle] at h ⊢ <;> rw [← h]
  · cases k <;> simp

/-- The engine's remaining `j + 1` rounds inside a pass: it stops with its lanes permuted. -/
theorem peRun_rounds (j : Nat) (hj : j ≤ 23) (s : State) (hu : s.host = []) (hq : s.quiet)
    (hp : s.core.peRun = true) (hr : s.core.rnd.val = 23 - j) :
    ∃ t, runSteps (j + 1) s = .next t ∧ t.host = [] ∧ t.reads = s.reads ∧
      (∀ k, t.space k = s.space k) ∧
      t.core =
        { s.core with
          lanes := ((List.finRange 24).drop (23 - j)).foldl keccakRound s.core.lanes
          rnd := 0
          peRun := false
          done := s.core.done || decide (s.core.scPhase = .idle ∧ s.core.hoPhase = .idle) } := by
  have hst : sequencerStep s = .next (peStep s) := by simp [sequencerStep, hp]
  have hhost := sequencerMove_host (SequencerMove.engine hp)
  induction j generalizing s with
  | zero =>
    have hr : s.core.rnd = 23 := Fin.ext hr
    refine ⟨peStep s, runSteps_sequencer hu hst 0, hhost.1.trans hu, peStep_reads s, peStep_space s hq, ?_⟩
    rw [peStep_core, hr]; simp; rfl
  | succ j ih =>
    have hr' : s.core.rnd ≠ 23 := by intro h; rw [h] at hr; simp at hr; omega
    have hc := peStep_core s
    simp only [hr', if_false, false_and, decide_false, Bool.or_false] at hc
    have hval : (s.core.rnd + 1 : Fin 24).val = 23 - j := by rw [Fin.val_add, hr]; simp; omega
    have hp' : (peStep s).core.peRun = true := by rw [hc]; exact hp
    obtain ⟨t, ht, h1, h2, h3, h4⟩ := ih (by omega) (peStep s) (hhost.1.trans hu)
      (quiet_of_space hq (peStep_space s hq)) hp' (by rw [hc]; exact hval)
      (by simp [sequencerStep, hp']) (sequencerMove_host (SequencerMove.engine hp'))
    refine ⟨t, (runSteps_sequencer hu hst _).trans ht, h1, h2.trans (peStep_reads s),
      fun k => (h3 k).trans (peStep_space s hq k), ?_⟩
    have hd : (List.finRange 24).drop (23 - (j + 1)) = s.core.rnd :: (List.finRange 24).drop (23 - j) := by
      rw [List.drop_eq_getElem_cons (by simp; omega)]
      congr 1
      · simp; apply Fin.ext; simp; omega
      · congr 1; omega
    rw [h4, hc, hd, List.foldl_cons]

/-- All 24 rounds inside a sponge pass (R117: the end of a `PERMUTE` is when neither controller
runs). -/
theorem peRun_pass (s : State) (hu : s.host = []) (hq : s.quiet) (hp : s.core.peRun = true)
    (hr : s.core.rnd = 0) (hs : s.core.scPhase ≠ .idle) :
    ∃ t, runSteps 24 s = .next t ∧ t.host = [] ∧ (∀ k, t.space k = s.space k) ∧
      t.core = { s.core with lanes := keccakF s.core.lanes, rnd := 0, peRun := false } := by
  obtain ⟨t, h1, h2, -, h4, h5⟩ := peRun_rounds 23 (by omega) s hu hq hp (by rw [hr]; rfl)
  refine ⟨t, h1, h2, h4, ?_⟩
  rw [h5]
  simp only [hs, false_and, decide_false, Bool.or_false]
  rfl

end Sys2Proof.Machine
end

