-- ==== Sys2Proof/Laws/HashBytes.lean ====
section
/-! SUPPORT. Bytes and words of the Hash Orchestrator's buffers: the 40 bytes of the expansion pass's
input (43_orchestrator.md rule R172), and words read back from bytes (20_memory.md rule R62). -/

namespace Sys2Proof.Machine

theorem getD_map_range {α : Type} (f : Nat → α) (n k : Nat) (d : α) :
    ((List.range n).map f).getD k d = if k < n then f k else d := by
  by_cases h : k < n <;> simp [h]

/-- A string of bytes is the list of its bytes. -/
theorem map_range_getD (l : List Byte) (n : Nat) (h : l.length = n) :
    (List.range n).map (fun a => l.getD a 0) = l := by
  subst h; apply List.ext_getElem
  · simp
  · intro k h1 h2; simp; rw [List.getElem?_eq_getElem h2]; rfl

/-- Byte `j` of word `k` of a group of eight registers (R202). -/
theorem wordByte_words (v : Vector Word 8) (k : Nat) (hk : k < 8) (j : Nat) (hj : j < 4) :
    wordByte v (4 * k + j) = byteOfWord v[k] j := by
  simp only [wordByte]
  rw [dif_pos (by omega)]
  congr 1
  · congr 1; omega
  · omega

/-- A word of a buffer, read back from the buffer's bytes. -/
theorem le32_words {n : Nat} (v : Vector Word n) (k : Nat) (hk : k < n) :
    le32 ((List.range (4 * n)).map (wordByte v)) (4 * k) = v[k] := by
  simp only [le32, getD_map_range]
  rw [if_pos (by omega), if_pos (by omega), if_pos (by omega), if_pos (by omega)]
  have h : ∀ j, j < 4 → wordByte v (4 * k + j) = byteOfWord v[k] j := by
    intro j hj
    simp only [wordByte]
    rw [dif_pos (by omega)]
    congr 1
    · congr 1; omega
    · omega
  have h0 := h 0 (by omega); rw [Nat.add_zero] at h0
  rw [h0, h 1 (by omega), h 2 (by omega), h 3 (by omega), wordOfBytes_byteOfWord]

/-- The bytes of the eight words of a register group, in order. -/
theorem bytes32_words (v : Vector Word 8) :
    (List.finRange 8).flatMap (fun k => bytes32 v[k]) = (List.range 32).map (wordByte v) := rfl

theorem eq_of_bytes {v v' : Vector Word 8}
    (h : (List.range 32).map (wordByte v) = (List.range 32).map (wordByte v')) : v = v' := by
  apply Vector.ext
  intro k hk
  rw [← le32_words v k hk, ← le32_words v' k hk]
  exact congrArg (fun l => le32 l (4 * k)) h

/-- The input of the expansion pass: the header, then the nonce, little-endian (R172). -/
theorem loadSeed_bytes (c : CoreRegs) : wordBytes (loadSeed c) 0 40 =
    (List.range 32).map (wordByte c.hdr) ++ bytes64 c.nonce := by
  apply List.ext_getElem
  · simp [bytes64]
  · intro k h1 h2
    simp [wordBytes] at h1
    simp only [wordBytes, List.getElem_map, List.getElem_range, Nat.zero_add]
    by_cases hk : k < 32
    · rw [List.getElem_append_left (by simpa using hk)]
      simp only [List.getElem_map, List.getElem_range, wordByte]
      rw [dif_pos (by omega), dif_pos (by omega)]
      simp only [loadSeed, Vector.getElem_ofFn]
      rw [dif_pos (by omega)]
    · rw [List.getElem_append_right (by simp; omega)]
      simp only [wordByte, bytes64, List.getElem_map, List.getElem_range, List.length_map,
        List.length_range]
      rw [dif_pos (by omega)]
      simp only [loadSeed, Vector.getElem_ofFn]
      rw [dif_neg (by omega)]
      unfold byteOfLane byteOfWord CoreRegs.nonce
      apply BitVec.eq_of_toNat_eq
      rw [BitVec.extractLsb'_toNat, BitVec.extractLsb'_toNat, pair_toNat]
      by_cases h8 : k / 4 = 8
      · simp only [h8, if_true]
        rw [Nat.shiftRight_eq_div_pow, Nat.shiftRight_eq_div_pow]
        have hj : k - 32 = k % 4 := by omega
        rw [hj]
        have : k % 4 < 4 := Nat.mod_lt _ (by omega)
        generalize k % 4 = j at *
        have := c.nonceLo.isLt
        interval_cases j <;> simp <;> omega
      · have h9 : k / 4 = 9 := by omega
        simp only [h9]
        rw [Nat.shiftRight_eq_div_pow, Nat.shiftRight_eq_div_pow]
        have hj : k - 32 = 4 + k % 4 := by omega
        rw [hj]
        have : k % 4 < 4 := Nat.mod_lt _ (by omega)
        generalize k % 4 = j at *
        have := c.nonceLo.isLt
        interval_cases j <;> simp <;> omega

end Sys2Proof.Machine
end

