-- ==== Sys2Proof/Laws/HostPort.lean ====
section
/-! SUPPORT. A step as the sequencer's or one move of the host (20_memory.md rule R60), the next move named,
and the five shapes a move of the host can have. -/

namespace Sys2Proof.Machine

/-- A step that answers a next state is the sequencer's, or it is another move of the host. -/
theorem step_sequencer_or_host {s t : State} (h : step s = .next t) :
    (s.stepIsSequencers ∧
        ∃ moves, sequencerStep { s with host := moves } = .next t ∧
          SequencerMove { s with host := moves } t) ∨
      ∃ m rest, s.host = m :: rest ∧ m ≠ .tick ∧ (m = .wait → s.core.busy = false) ∧
        hostMove m { s with host := rest } = .next t := by
  unfold step at h
  split at h
  · rename_i hh
    have e : ({ s with host := [] } : State) = s := by rw [← hh]
    exact .inl ⟨.inl hh, [], by rw [e]; exact h, by rw [e]; exact sequencerStep_cases h⟩
  · rename_i m rest hh
    by_cases ht : m = .tick
    · subst ht; exact .inl ⟨.inr (.inl ⟨rest, hh⟩), rest, h, sequencerStep_cases h⟩
    · by_cases hw : m = .wait ∧ s.core.busy = true
      · obtain ⟨rfl, hb⟩ := hw
        simp only [hostMove, waitMove, hb, if_true] at h
        exact .inl ⟨.inr (.inr ⟨hb, rest, hh⟩), .wait :: rest, h, sequencerStep_cases h⟩
      · exact .inr ⟨m, rest, hh, ht, fun e => by
          cases hb : s.core.busy
          · rfl
          · exact absurd ⟨e, hb⟩ hw, h⟩

/-- The five shapes of a host move that is not the sequencer's step: a register write changes at most the
CORE's registers; a read gives the host one value, and may leave it owed a choice (R248); then reset, a
write of a byte, and a change of a memory's extent. -/
theorem hostMove_shape {m : HostMove} {s t : State} (h : hostMove m s = .next t) (ht : m ≠ .tick)
    (hw : m = .wait → s.core.busy = false) :
    (∃ c, t = { s with core := c }) ∨
      (∃ w d o, t = { s with reads := w :: s.reads, draws := d, owed := o } ∧
        (o = s.owed ∨ ∃ a, o = (s.reads.length, a) :: s.owed ∧ s.core.writesOut a = true)) ∨
      (m = .reset ∧ t = resetMove s) ∨
      (∃ k a b, m = .memWrite k a b ∧ s.provides k a = true ∧ t = hostWriteByte k a b s) ∨
      ∃ k size, t = provide k size s := by
  cases m with
  | tick => exact absurd rfl ht
  | wait =>
    simp [hostMove, waitMove, hw rfl] at h
    exact .inr (.inl ⟨s.core.status, s.draws, s.owed, h.symm, .inl rfl⟩)
  | reset => simp only [hostMove, Host.Outcome.next.injEq] at h; exact .inr (.inr (.inl ⟨rfl, h.symm⟩))
  | regRead a =>
    simp only [hostMove] at h
    split at h
    · simp at h
    · simp only [Host.Outcome.next.injEq] at h
      subst h
      unfold regRead
      split <;> exact .inr (.inl ⟨_, _, s.owed, rfl, .inl rfl⟩)
  | regWrite a v =>
    refine .inl ?_
    simp only [hostMove] at h
    split at h
    · simp at h
    · unfold regWrite at h
      split at h
      · unfold writeCmd at h
        split at h
        · exact exec_shape h
        · rcases acceptance_cases h with ⟨-, rfl⟩ | ⟨-, rfl⟩ <;> exact ⟨_, rfl⟩
      · split at h <;> simp only [Host.Outcome.next.injEq] at h <;> subst h <;> exact ⟨_, rfl⟩
  | memRead k a =>
    simp only [hostMove, hostMemory] at h
    split at h
    · simp at h
    · split at h
      · simp only [Host.Outcome.next.injEq] at h
        subst h
        refine .inr (.inl ?_)
        unfold hostReadByte
        split
        · exact ⟨_, _, s.owed, rfl, .inl rfl⟩
        · split
          · rename_i hr
            unfold readWhileWritten
            split
            · exact ⟨_, s.draws, _, rfl, .inr ⟨a, rfl, hr.2⟩⟩
            · exact ⟨_, _, s.owed, rfl, .inl rfl⟩
          · exact ⟨_, s.draws, s.owed, rfl, .inl rfl⟩
      · simp at h
  | memWrite k a b =>
    simp only [hostMove, hostMemory] at h
    split at h
    · simp at h
    · split at h
      · rename_i hp
        simp only [Host.Outcome.next.injEq] at h
        exact .inr (.inr (.inr (.inl ⟨k, a, b, rfl, hp, h.symm⟩)))
      · simp at h
  | provide k size =>
    simp only [hostMove, Host.Outcome.next.injEq] at h
    exact .inr (.inr (.inr (.inr ⟨k, size, h.symm⟩)))

/-! ## Accesses to the memories -/

/-- A host access where there is memory is its move; what else is scheduled does not matter. -/
theorem hostMemory_provided {s : State} {k : MemSpace} {a : Nat} (move : State → State)
    (moves : List HostMove) (hp : s.provides k a = true) :
    hostMemory k a move { s with host := moves } = .next (move { s with host := moves }) := by
  have h1 : ¬k.bytes ≤ a := by have := provides_lt hp; omega
  have h2 : State.provides { s with host := moves } k a = true := by cases k <;> exact hp
  simp only [hostMemory, if_neg h1, h2, if_true]

/-- A host write changes neither the CORE, nor the schedule, nor what the host has read or is owed. -/
theorem hostWriteByte_frame (k : MemSpace) (a : Nat) (b : Byte) (s : State) :
    (hostWriteByte k a b s).core = s.core ∧ (hostWriteByte k a b s).host = s.host ∧
      (hostWriteByte k a b s).reads = s.reads ∧ (hostWriteByte k a b s).owed = s.owed := by
  cases k
  · exact ⟨rfl, rfl, rfl, rfl⟩
  · show (hostWriteOut a b s).core = s.core ∧ (hostWriteOut a b s).host = s.host ∧
      (hostWriteOut a b s).reads = s.reads ∧ (hostWriteOut a b s).owed = s.owed
    unfold hostWriteOut
    repeat' split
    all_goals exact ⟨rfl, rfl, rfl, rfl⟩
  · exact ⟨rfl, rfl, rfl, rfl⟩

/-- On an idle CORE no command reads or writes a memory. -/
theorem CoreRegs.uses_of_idle {c : CoreRegs} (h : c.busy = false) :
    c.readsIn = false ∧ c.readsDset = false ∧ ∀ a, c.writesOut a = false := by
  obtain ⟨-, h1, h2⟩ := (CoreRegs.busy_eq_false c).1 h
  simp [CoreRegs.readsIn, CoreRegs.readsDset, CoreRegs.writesOut, h1, h2]

end Sys2Proof.Machine
end

