-- ==== Sys2Proof/Laws/Pass.lean ====
section
/-! SUPPORT. The two loops of a sponge pass as runs of the machine (41_sponge.md rules R133, R135):
    the
absorb phase up to the pad step, and the squeeze phase up to the clear step. -/

namespace Sys2Proof.Machine

theorem canonical_withCore {s : State} (c : CoreRegs) (h : s.memoryCanonical) :
    State.memoryCanonical { s with core := c } := fun k => by have := h k; cases k <;> exact this

theorem canonical_draw {s : State} (h : s.memoryCanonical) : s.draw.memoryCanonical := fun k => by
  have := h k; cases k <;> exact this

theorem canonical_of_space {s t : State} (hw : s.memoryCanonical) (h : ∀ k, t.space k = s.space k) :
    t.memoryCanonical := fun k => by rw [h k]; exact hw k

theorem canonical_deliverBytes {s t : State} {a : Nat} {bs : List Byte} (h : s.memoryCanonical)
    (hu : deliverBytes s a bs = some t) : t.memoryCanonical := by
  have hw := deliverBytes_wf hu (h .out).1
  obtain ⟨x, y, z, x', y', z', rfl, -⟩ := deliverBytes_update hu
  intro k
  have := h k
  cases k
  · exact this
  · exact ⟨hw, this.2⟩
  · exact this

theorem outputByte_congr {s t : State} (d : Dest) (a : Nat) (h : ∀ k, t.space k = s.space k)
    (h1 : t.core.seed = s.core.seed) (h2 : t.core.result = s.core.result) :
    t.outputByte d a = s.outputByte d a := by
  cases d <;> simp only [State.outputByte, h1, h2, peek_of_space h]

/-- The padding, byte by byte (R134). -/
theorem laneByte_padLanes (v : Vector Lane 25) (r : Nat) (d : Byte) (tail : List Byte) (k : Nat)
    (hr : tail.length < r) (hr2 : r ≤ 199) (hk : k < 200) :
    laneByte (padLanes v r d tail) k =
      laneByte v k ^^^ (if k = tail.length then d else 0) ^^^ (if k = r - 1 then 0x80 else 0) ^^^
        tail.getD k 0 := by
  unfold padLanes
  rw [laneByte_xorLaneBytes _ _ _ _ (by omega) hk, laneByte_xorLaneByte _ _ _ _ (by omega) hk,
    laneByte_xorLaneByte _ _ _ _ (by omega) hk]
  simp only [padLast]
  split <;> split <;> simp

theorem squeezeLoop_length (r o b : Nat) (a : Vector Lane 25) : (squeezeLoop r o b a).length = b * r
    + o := by
  induction b generalizing a with
  | zero => simp [squeezeLoop]
  | succ b ih => simp [squeezeLoop, ih]; ring

/-- The absorb phase: `b` full blocks, and the step that falls through (R133). -/
theorem absorb_phase (b : Nat) : ∀ (s : State) (o : Nat) (m : List Byte), s.host = [] → s.quiet →
  s.core.scPhase = .absorb → s.core.peRun = false →
   1 ≤ s.core.rRate.toNat → s.core.rem.toNat = b * s.core.rRate.toNat + o → o < s.core.rRate.toNat →
     s.core.inPos.toNat + s.core.rem.toNat < 2^32 →
   srcBytes s s.core.inPos.toNat s.core.rem.toNat = some m →
   ∃ t, runSteps (25 * b + 1) s = .next t ∧ t.host = [] ∧ (∀ k, t.space k = s.space k) ∧
     t.core = { s.core with
       lanes := absorbLoop s.core.rRate.toNat b s.core.lanes m
       inPos := BitVec.ofNat 32 (s.core.inPos.toNat + b * s.core.rRate.toNat)
       rem := BitVec.ofNat 32 o
       rnd := t.core.rnd
       scPhase := .pad } := by
  induction b with
  | zero =>
    intro s o m hu hq hs hp hr1 hrem ho hlt hsrc
    have hstep : sequencerStep s = .next { s with core := { s.core with scPhase := .pad } } := by
      simp
        [sequencerStep, hp, controllerStep, hs, scAbsorb, show ¬ s.core.rRate.toNat ≤ s.core.rem.toNat by omega]
    refine ⟨_, (runSteps_sequencer hu hstep 0), hu, fun k => by cases k <;> rfl, ?_⟩
    have h1 : BitVec.ofNat 32 o = s.core.rem := by
      apply BitVec.eq_of_toNat_eq
      have := s.core.rem.isLt
      simp
      omega
    simp [absorbLoop, h1]
  | succ b ih =>
    intro s o m hu hq hs hp hr1 hrem ho hlt hsrc
    have hmul : (b + 1) * s.core.rRate.toNat = b * s.core.rRate.toNat + s.core.rRate.toNat := by
      ring
    have hle : s.core.rRate.toNat ≤ s.core.rem.toNat := by omega
    have hsplit := srcBytes_split (j := s.core.rRate.toNat) (n := s.core.rem.toNat -
      s.core.rRate.toNat)
      (by rw [show s.core.rRate.toNat + (s.core.rem.toNat - s.core.rRate.toNat) = s.core.rem.toNat by omega]; exact hsrc)
    have hstep : sequencerStep s = .next (State.draw
      { s with core := absorbBlock s.core (m.take s.core.rRate.toNat) }) := by
      simp [sequencerStep, hp, controllerStep, hs, scAbsorb, hle, hsplit.1]
    obtain ⟨u, hu1, hu2, hu3, hu4⟩ := peRun_pass (State.draw
      { s with core := absorbBlock s.core (m.take s.core.rRate.toNat) }) hu
      (fun k => by have := hq k; cases k <;> exact this) (by simp [State.draw, absorbBlock])
      (by simp [State.draw, absorbBlock]) (by simp [State.draw, absorbBlock, hs])
    have hsp : ∀ k, u.space k = s.space k := fun k => (hu3 k).trans (by cases k <;> rfl)
    have hin : u.core.inPos.toNat = s.core.inPos.toNat + s.core.rRate.toNat := by
      rw [hu4]
      simp [State.draw, absorbBlock]
      omega
    have hre : u.core.rem.toNat = s.core.rem.toNat - s.core.rRate.toNat := by
      rw [hu4]
      simp [State.draw, absorbBlock, BitVec.toNat_sub]
      have := s.core.rem.isLt
      omega
    have hrr : u.core.rRate = s.core.rRate := by rw [hu4]; simp [State.draw, absorbBlock]
    have hsc : srcBytes u u.core.inPos.toNat u.core.rem.toNat = some (m.drop s.core.rRate.toNat) :=
      by
      rw
        [hin, hre, srcBytes_congr hq hsp (by rw [hu4]; simp [State.draw, absorbBlock]) (by rw [hu4]; simp [State.draw, absorbBlock]) (by rw [hu4]; simp [State.draw, absorbBlock])]
      exact hsplit.2
    obtain ⟨t, ht1, ht2, ht3, ht4⟩ := ih u o (m.drop s.core.rRate.toNat) hu2 (quiet_of_space hq hsp)
      (by rw [hu4]; simp [State.draw, absorbBlock, hs]) (by rw [hu4]) (by rw [hrr]; exact hr1)
      (by rw [hrr, hre]; omega) (by rw [hrr]; exact ho) (by rw [hin, hre]; omega) hsc
    refine ⟨t, ?_, ht2, fun k => (ht3 k).trans (hsp k), ?_⟩
    · rw
        [show 25 * (b + 1) + 1 = (24 + (25 * b + 1)) + 1 by ring, runSteps_sequencer hu hstep, runSteps_add _ hu1, ht1]
    · rw [ht4, hin, hrr, hu4]
      simp only [State.draw, absorbBlock, CoreRegs.startPe, absorbLoop, hp]
      congr 2
      omega

/-- One squeeze's delivery, in a quiet machine (R135, R203). -/
theorem deliver_run (s : State) (n : Nat) (hq : s.quiet) (hw : s.memoryCanonical) (hcap :
  s.core.outPos.toNat + n ≤ s.core.dst.capacity)
    (hh : s.core.dst = .out → s.holds .out (s.core.outPos.toNat + n)) :
    ∃ u, deliverBytes s s.core.outPos.toNat (laneBytes s.core.lanes n) = some u ∧ u.host = s.host ∧
      u.quiet ∧ u.memoryCanonical ∧
      u.core = { s.core with seed := u.core.seed, result := u.core.result } ∧
      (s.core.dst ≠ .seed → u.core.seed = s.core.seed) ∧ (s.core.dst ≠ .result → u.core.result =
        s.core.result) ∧
      u.inMem = s.inMem ∧ u.dset = s.dset ∧ u.outMem.size = s.outMem.size ∧ (s.core.dst ≠ .out →
        u.outMem = s.outMem) ∧
      ∀ a, u.outputByte s.core.dst a = if s.core.outPos.toNat ≤ a ∧ a < s.core.outPos.toNat + n then
        laneByte s.core.lanes (a - s.core.outPos.toNat) else s.outputByte s.core.dst a := by
  obtain ⟨u, hu, hx⟩ := deliverBytes_quiet (laneBytes s.core.lanes n) s s.core.outPos.toNat hq (hw
    .out).1 (by simpa using hcap) (fun h j hj => hh h _ (by simp at hj; omega))
  have hcan := canonical_deliverBytes hw hu
  obtain ⟨x, y, z, x', y', z', rfl, e1, e2, e3⟩ := deliverBytes_update hu
  refine ⟨_, hu, rfl, ?_, hcan, rfl, e2, e3, rfl, rfl, rfl, ?_, ?_⟩
  · intro k; have := hq k; cases k <;> exact this
  · intro h; rw [e1 h]
  · intro a; rw [hx a]; simp only [laneBytes_length]
    split
    · rename_i h; rw [laneBytes_getD _ _ _ (by omega)]
    · rfl

/-- The squeeze phase: `b` full blocks and the final chunk, the PE run before each included (R135). -/
theorem squeeze_phase (b : Nat) : ∀ (s : State) (o : Nat), s.host = [] → s.quiet → s.memoryCanonical
  → s.core.scPhase = .squeeze → s.core.peRun = true → s.core.rnd = 0 →
   1 ≤ s.core.rRate.toNat → s.core.rRate.toNat ≤ 199 → s.core.orem.toNat = b * s.core.rRate.toNat +
     o → o < s.core.rRate.toNat → s.core.outPos.toNat + s.core.orem.toNat < 2^32 →
   s.core.outPos.toNat + s.core.orem.toNat ≤ s.core.dst.capacity →
   (s.core.dst = .out → s.holds .out (s.core.outPos.toNat + s.core.orem.toNat)) →
   ∃ t, runSteps (25 * (b + 1)) s = .next t ∧ t.host = [] ∧ t.quiet ∧ t.memoryCanonical ∧ t.inMem =
     s.inMem ∧ t.dset = s.dset ∧ (s.core.dst ≠ .out → t.outMem = s.outMem) ∧
     (s.core.dst ≠ .seed → t.core.seed = s.core.seed) ∧ (s.core.dst ≠ .result → t.core.result =
       s.core.result) ∧
     (∃ lanes, t.core = { s.core with
       lanes := lanes
       rnd := 0
       peRun := false
       seed := t.core.seed
       result := t.core.result
       outPos := BitVec.ofNat 32 (s.core.outPos.toNat + s.core.orem.toNat)
       orem := 0
       scPhase := .clear }) ∧
     ∀ a, t.outputByte s.core.dst a = if s.core.outPos.toNat ≤ a ∧ a < s.core.outPos.toNat +
       s.core.orem.toNat then
        (squeezeLoop s.core.rRate.toNat o b (keccakF s.core.lanes)).getD (a - s.core.outPos.toNat) 0
          else s.outputByte s.core.dst a := by
  induction b with
  | zero =>
    intro s o hu hq hw hs hp hr hr1 hr2 hrem ho hlt hcap hh
    obtain ⟨v, hv1, hv2, hv3, hv4⟩ := peRun_pass s hu hq hp hr (by rw [hs]; decide)
    have hvd : v.core.dst = s.core.dst := by rw [hv4]
    have hvo : v.core.outPos = s.core.outPos := by rw [hv4]
    have hvr : v.core.orem = s.core.orem := by rw [hv4]
    have hvrr : v.core.rRate = s.core.rRate := by rw [hv4]
    obtain ⟨u, hu1, hu2, hu3, hu4, hu5, hu6, hu7, hu8, hu9, hu10, hu11, hu12⟩ := deliver_run v
      v.core.orem.toNat (quiet_of_space hq hv3) (canonical_of_space hw hv3)
      (by rw [hvo, hvr, hvd]; exact hcap)
      (by rw [hvo, hvr, hvd]; intro h a ha; rw [provides_of_space hv3]; exact hh h a ha)
    have hstep : sequencerStep v = .next (State.draw { u with core := squeezeTail u.core }) := by
      have : v.core.peRun = false := by rw [hv4]
      have h2 : v.core.scPhase = .squeeze := by rw [hv4]; exact hs
      simp
        [sequencerStep, this, controllerStep, h2, scSqueeze, show ¬ v.core.rRate.toNat ≤ v.core.orem.toNat by rw [hvr, hvrr]; omega, hu1]
    refine ⟨State.draw { u with core := squeezeTail u.core }, ?_, hu2.trans hv2, ?_, canonical_draw
      (canonical_withCore _ hu4), ?_, ?_, ?_, ?_, ?_, ⟨u.core.lanes, ?_⟩, ?_⟩
    · rw [show 25 * (0 + 1) = 24 + 1 by rfl, runSteps_add _ hv1, runSteps_sequencer hv2 hstep]; rfl
    · intro k; have := hu3 k; cases k <;> exact this
    · exact hu8.trans (hv3 .inp)
    · exact hu9.trans (hv3 .dset)
    · intro h; exact (hu11 (by rw [hvd]; exact h)).trans (hv3 .out)
    · intro h; refine (hu6 (by rw [hvd]; exact h)).trans ?_; rw [hv4]
    · intro h; refine (hu7 (by rw [hvd]; exact h)).trans ?_; rw [hv4]
    · simp only [State.draw, squeezeTail]
      rw [hu5, hv4]
      simp only
      congr 1
    · intro a
      have e1 := hu12 a
      rw [hvd, hvo, hvr] at e1
      have e0 : State.outputByte (State.draw { u with core := squeezeTail u.core }) s.core.dst a =
        u.outputByte s.core.dst a := by
        cases s.core.dst <;> rfl
      rw [e0, e1]
      have e2 : v.outputByte s.core.dst a = s.outputByte s.core.dst a := outputByte_congr _ _ hv3
        (by rw [hv4]) (by rw [hv4])
      rw [e2]
      split
      · rename_i h
        simp only [squeezeLoop]
        rw [laneBytes_getD _ _ _ (by omega), hv4]
      · rfl
  | succ b ih =>
    intro s o hu hq hw hs hp hr hr1 hr2 hrem ho hlt hcap hh
    have hmul : (b + 1) * s.core.rRate.toNat = b * s.core.rRate.toNat + s.core.rRate.toNat := by
      ring
    obtain ⟨v, hv1, hv2, hv3, hv4⟩ := peRun_pass s hu hq hp hr (by rw [hs]; decide)
    have hvd : v.core.dst = s.core.dst := by rw [hv4]
    have hvo : v.core.outPos = s.core.outPos := by rw [hv4]
    have hvr : v.core.orem = s.core.orem := by rw [hv4]
    have hvrr : v.core.rRate = s.core.rRate := by rw [hv4]
    obtain ⟨u, hu1, hu2, hu3, hu4, hu5, hu6, hu7, hu8, hu9, hu10, hu11, hu12⟩ := deliver_run v
      v.core.rRate.toNat (quiet_of_space hq hv3) (canonical_of_space hw hv3)
      (by rw [hvo, hvrr, hvd]; omega)
      (by rw [hvo, hvrr, hvd]; intro h a ha; rw [provides_of_space hv3]; exact hh h a (by omega))
    have hstep : sequencerStep v = .next (State.draw { u with core := squeezeBlock u.core }) := by
      have : v.core.peRun = false := by rw [hv4]
      have h2 : v.core.scPhase = .squeeze := by rw [hv4]; exact hs
      simp
        [sequencerStep, this, controllerStep, h2, scSqueeze, show v.core.rRate.toNat ≤ v.core.orem.toNat by rw [hvr, hvrr]; omega, hu1]
    obtain ⟨w, hwdef⟩ : ∃ w, w = State.draw { u with core := squeezeBlock u.core } := ⟨_, rfl⟩
    rw [← hwdef] at hstep
    have hwc : w.core = squeezeBlock u.core := by rw [hwdef]; rfl
    have hwh : w.host = [] := by rw [hwdef]; exact hu2.trans hv2
    have hwq : w.quiet := by rw [hwdef]; intro k; have := hu3 k; cases k <;> exact this
    have hwcan : w.memoryCanonical := by rw [hwdef]; exact canonical_draw (canonical_withCore _ hu4)
    have hwsz : w.outMem.size = s.outMem.size := by
      rw [hwdef]
      exact hu10.trans (congrArg Space.size (hv3 .out))
    have hwd : w.core.dst = s.core.dst := by
      rw [hwc]
      simp only [squeezeBlock, CoreRegs.startPe]
      rw [hu5, hvd]
    have hwrr : w.core.rRate = s.core.rRate := by
      rw [hwc]
      simp only [squeezeBlock, CoreRegs.startPe]
      rw [hu5, hvrr]
    have hwo : w.core.outPos.toNat = s.core.outPos.toNat + s.core.rRate.toNat := by
      rw [hwc]
      simp only [squeezeBlock, CoreRegs.startPe]
      rw [hu5]
      simp only [hvo, hvrr]
      simp
      omega
    have hwr : w.core.orem.toNat = s.core.orem.toNat - s.core.rRate.toNat := by
      rw [hwc]
      simp only [squeezeBlock, CoreRegs.startPe]
      rw [hu5]
      simp only [hvr, hvrr]
      simp [BitVec.toNat_sub]
      have := s.core.orem.isLt
      omega
    have hwl : w.core.lanes = keccakF s.core.lanes := by
      rw [hwc]; simp only [squeezeBlock, CoreRegs.startPe]; rw [hu5]; simp only; rw [hv4]
    obtain ⟨t, ht1, ht2, ht3, ht4, ht5, ht6, ht7, ht8, ht9, ⟨L, ht10⟩, ht11⟩ := ih w o hwh hwq hwcan
      (by rw [hwc]; simp only [squeezeBlock, CoreRegs.startPe]; rw [hu5, hv4]; exact hs)
      (by rw [hwc]; simp [squeezeBlock]) (by rw [hwc]; simp [squeezeBlock])
      (by rw [hwrr]; exact hr1) (by rw [hwrr]; exact hr2) (by rw [hwr, hwrr]; omega)
      (by rw [hwrr]; exact ho) (by rw [hwo, hwr]; omega) (by rw [hwo, hwr, hwd]; omega) (by
        rw [hwo, hwr, hwd]; intro h a ha
        have := hh h a (by omega)
        simp only [State.provides, State.space_out] at this ⊢
        rw [hwsz]; exact this)
    have hws : s.core.dst ≠ .seed → w.core.seed = s.core.seed := by
      intro h
      rw [hwc]
      simp only [squeezeBlock, CoreRegs.startPe]
      refine (hu6 (by rw [hvd]; exact h)).trans ?_
      rw [hv4]
    have hwres : s.core.dst ≠ .result → w.core.result = s.core.result := by
      intro h
      rw [hwc]
      simp only [squeezeBlock, CoreRegs.startPe]
      refine (hu7 (by rw [hvd]; exact h)).trans ?_
      rw [hv4]
    have hwi : w.inMem = s.inMem ∧ w.dset = s.dset := by
      rw [hwdef]
      exact ⟨hu8.trans (hv3 .inp), hu9.trans (hv3 .dset)⟩
    have hwout : s.core.dst ≠ .out → w.outMem = s.outMem := by
      intro h
      rw [hwdef]
      exact (hu11 (by rw [hvd]; exact h)).trans (hv3 .out)
    refine
      ⟨t, ?_, ht2, ht3, ht4, ht5.trans hwi.1, ht6.trans hwi.2, fun h => (ht7 (by rw [hwd]; exact h)).trans (hwout h), fun h => (ht8 (by rw [hwd]; exact h)).trans (hws h), fun h => (ht9 (by rw [hwd]; exact h)).trans (hwres h), ⟨L, ?_⟩, ?_⟩
    · rw
        [show 25 * (b + 1 + 1) = 24 + (25 * (b + 1) + 1) by ring, runSteps_add _ hv1, runSteps_sequencer hv2 hstep, ht1]
    · rw [ht10, hwo, hwr, hwc]
      simp only [squeezeBlock, CoreRegs.startPe]
      rw [hu5, hv4]
      simp only
      congr 2
      omega
    · intro a
      have e := ht11 a
      rw [hwd, hwo, hwr, hwrr, hwl] at e
      rw [e]
      have e0 : w.outputByte s.core.dst a = u.outputByte s.core.dst a := by
        rw [hwdef]; cases s.core.dst <;> rfl
      have e1 := hu12 a
      rw [hvd, hvo, hvrr] at e1
      have e2 : v.outputByte s.core.dst a = s.outputByte s.core.dst a := outputByte_congr _ _ hv3
        (by rw [hv4]) (by rw [hv4])
      rw [e0, e1, e2]
      have hvl : v.core.lanes = keccakF s.core.lanes := by rw [hv4]
      rw [hvl]
      simp only [squeezeLoop]
      by_cases h1 : s.core.outPos.toNat ≤ a
      · by_cases h2 : a < s.core.outPos.toNat + s.core.rRate.toNat
        · rw [if_neg (by omega), if_pos ⟨h1, h2⟩, if_pos (by omega)]
          rw [List.getD_append _ _ _ _ (by simp; omega), laneBytes_getD _ _ _ (by omega)]
        · by_cases h3 : a < s.core.outPos.toNat + s.core.orem.toNat
          · rw
              [if_pos (by omega), if_pos (by omega), List.getD_append_right _ _ _ _ (by simp; omega)]
            congr 1; simp; omega
          · rw [if_neg (by omega), if_neg (by omega), if_neg (by omega)]
      · rw [if_neg (by omega), if_neg (by omega), if_neg (by omega)]

end Sys2Proof.Machine
end

