-- ==== Sys2Proof/Laws/PerInstr.lean ====
section
/-! SUPPORT. A statement about each command as syntax, one lemma per constructor: its encoded word is a
well-formed command word (30_encoding.md rules R90, R92), and its opcode is read back from it. -/

namespace Sys2Proof.Laws

/-- The command's word has `ZERO = 0` and one of the seven opcodes, and decodes to the command. -/
def EncodedWordWellFormed.Statement (i : Instr) : Prop :=
  i.wellFormed = true ∧ (CommandWord.ofWord (encode i)).wellFormed = true ∧
    (CommandWord.ofWord (encode i)).opcode = opcodeOf i ∧ decodeWord (encode i) = .ok i

theorem EncodedWordWellFormed.permute : EncodedWordWellFormed.Statement .permute := by
  unfold EncodedWordWellFormed.Statement; decide

theorem EncodedWordWellFormed.sponge : EncodedWordWellFormed.Statement .sponge := by
  unfold EncodedWordWellFormed.Statement; decide

theorem EncodedWordWellFormed.digest256 : EncodedWordWellFormed.Statement .digest256 := by
  unfold EncodedWordWellFormed.Statement; decide

theorem EncodedWordWellFormed.digest512 : EncodedWordWellFormed.Statement .digest512 := by
  unfold EncodedWordWellFormed.Statement; decide

theorem EncodedWordWellFormed.mix : EncodedWordWellFormed.Statement .mix := by
  unfold EncodedWordWellFormed.Statement; decide

theorem EncodedWordWellFormed.fold : EncodedWordWellFormed.Statement .fold := by
  unfold EncodedWordWellFormed.Statement; decide

theorem EncodedWordWellFormed.hash : EncodedWordWellFormed.Statement .hash := by
  unfold EncodedWordWellFormed.Statement; decide

end Sys2Proof.Laws
end

