-- ==== Sys2Proof/Laws/Registers.lean ====
section
/-! SUPPORT. The register map (10_state.md rule R31): which offset names which register, the fields of
`STATUS`, the halves of a lane, and a schedule of register writes. -/

namespace Sys2Proof.Machine

/-! ## The map -/

theorem ofAccess_of_wellFormed {a : RegAccess} (h : a.wellFormed = true) :
    Reg.ofAccess a = some (Reg.ofIndex (a.offset / 4)) ∧ a.width = .w32 ∧ a.offset % 4 = 0 ∧
      a.offset ≤ 0x1FC := by
  simp [RegAccess.wellFormed, RegAccess.wide, RegAccess.aligned, RegAccess.inRange] at h
  simp [Reg.ofAccess, h]

theorem ofIndex_offset {q : Nat} (hq : q < 128) (h : Reg.ofIndex q ≠ .reserved) :
    (Reg.ofIndex q).offset = 4 * q := by
  revert q; decide

theorem ofIndex_reserved {q : Nat} (hq : q < 128) :
    Reg.ofIndex q = .reserved ↔ (40 ≤ q ∧ q ≤ 63) ∨ 114 ≤ q := by
  revert q; decide

theorem ofAccess_access (r : Reg) : Reg.ofAccess r.access = some r := by
  cases r <;> first | decide | (rename_i k; revert k; decide)

theorem writeReg_busy (c : CoreRegs) (r : Reg) (v : Word) : (c.writeReg r v).busy = c.busy := by
  cases r <;> rfl

/-! ## Bits of a register -/

/-- `STATUS` as a number (R32). -/
theorem CoreRegs.status_toNat (c : CoreRegs) :
    c.status.toNat = 256 * c.errCode.toNat + 4 * c.err.toNat + 2 * c.done.toNat + c.busy.toNat := by
  have h : ∀ {m : Nat} (x : BitVec m) (b : Bool),
      (x ++ BitVec.ofBool b).toNat = 2 * x.toNat + b.toNat := by
    intro m x b
    rw [BitVec.toNat_append, ← Nat.shiftLeft_add_eq_or_of_lt (BitVec.isLt _), Nat.shiftLeft_eq]
    cases b <;> simp <;> omega
  have h2 : ∀ e : BitVec 8, ((0 : BitVec 16) ++ e ++ (0 : BitVec 5)).toNat = 32 * e.toNat := by
    intro e
    rw [BitVec.toNat_append, ← Nat.shiftLeft_add_eq_or_of_lt (BitVec.isLt _), Nat.shiftLeft_eq,
      BitVec.toNat_append]
    simp; omega
  unfold CoreRegs.status
  refine (h (_ ++ _ ++ _) _).trans ?_
  rw [h, h, h2]; omega

theorem getLsbD_of_toNat (x : Word) (b : Bool) (i : Nat) (h : x.toNat / 2 ^ i % 2 = b.toNat) :
    x.getLsbD i = b := by
  rw [BitVec.getLsbD, Nat.testBit_eq_decide_div_mod_eq, h]; cases b <;> rfl

/-- Writing one half of a lane leaves the other (R36). -/
theorem lane_halves (x : Lane) (v : Word) :
    (x.extractLsb' 32 32 ++ v).extractLsb' 0 32 = v ∧
      (x.extractLsb' 32 32 ++ v).extractLsb' 32 32 = x.extractLsb' 32 32 ∧
      (v ++ x.extractLsb' 0 32).extractLsb' 32 32 = v ∧
      (v ++ x.extractLsb' 0 32).extractLsb' 0 32 = x.extractLsb' 0 32 := by
  have := v.isLt
  have := x.isLt
  refine ⟨?_, ?_, ?_, ?_⟩ <;> apply BitVec.eq_of_toNat_eq <;>
    rw [BitVec.extractLsb'_toNat, pair_toNat, Nat.shiftRight_eq_div_pow] <;>
    simp [Nat.shiftRight_eq_div_pow] <;> omega

/-! ## Scheduled writes -/

theorem step_write (s : State) (r : Reg) (v : Word) (rest : List HostMove) (hb : s.core.busy = false)
    (hr : r ≠ .cmd) :
    step { s with host := wr r v :: rest } =
      .next { s with host := rest, core := s.core.writeReg r v } := by
  simp [step, wr, hostMove, ofAccess_access, regWrite, hr, hb]

theorem runSteps_write (n : Nat) (s : State) (r : Reg) (v : Word) (rest : List HostMove)
    (hb : s.core.busy = false) (hr : r ≠ .cmd) (hh : s.host = wr r v :: rest) :
    runSteps (n + 1) s = runSteps n { s with host := rest, core := s.core.writeReg r v } := by
  have : s = { s with host := wr r v :: rest } := by rw [← hh]
  rw [this]; simp only [runSteps, step_write s r v rest hb hr]

/-- A schedule that begins with register writes to an idle CORE. -/
theorem runSteps_writes (ws : List (Reg × Word)) (rest : List HostMove) (n : Nat) (s : State)
    (hb : s.core.busy = false) (hne : ∀ p ∈ ws, p.1 ≠ .cmd)
    (hh : s.host = ws.map (fun p => wr p.1 p.2) ++ rest) :
    runSteps (ws.length + n) s =
      runSteps n
        { s with host := rest, core := ws.foldl (fun c p => c.writeReg p.1 p.2) s.core } := by
  induction ws generalizing s with
  | nil =>
    simp only [List.map_nil, List.nil_append] at hh
    subst hh
    simp
  | cons p ws ih =>
    rw [show (p :: ws).length + n = ws.length + n + 1 by simp; omega]
    rw [runSteps_write _ s p.1 p.2 (ws.map (fun p => wr p.1 p.2) ++ rest) hb (hne p (by simp))
      (by simp [hh])]
    rw [ih _ ?_ (fun q hq => hne q (by simp [hq])) rfl]
    · rfl
    · exact (writeReg_busy _ _ _).trans hb

end Sys2Proof.Machine
end

