-- ==== Sys2Proof/Tests/Slice0.lean ====
section
/-! SUPPORT. Tests with expected results from spec/ (95_test_vectors.md unless another rule is named), and
for every statement with hypotheses a named witness that meets them together. -/

namespace Sys2Proof.Tests

open Sys2Proof.Machine

/-! ## Helpers -/

/-- The reset state with other registers. -/
def withCore (c : CoreRegs) : State := { State.reset with core := c }

/-- Operands for the sponge-type commands. -/
def operands (rate : Word) (domain : Byte) (inLen outLen : Word) (bufCfg : BitVec 2) : CoreRegs :=
  { CoreRegs.reset with
    rate := rate, domain := domain, inLen := inLen, outLen := outLen, bufCfg := bufCfg }

/-- Operands for `HASH`. -/
def hashOperands (sizeHi sizeLo lenLo : Word) : CoreRegs :=
  { CoreRegs.reset with fullSizeHi := sizeHi, fullSizeLo := sizeLo, dsLenLo := lenLo }

/-- The `STATUS` after a command is accepted. -/
def statusAfter (i : Instr) (c : CoreRegs) : Option Word :=
  match exec i (withCore c) with
  | .next t => some t.core.status
  | .fault _ => none
  | .refused _ => none

/-- A register after a command is accepted. -/
def regAfter (i : Instr) (c : CoreRegs) (r : Reg) : Option Word :=
  match exec i (withCore c) with
  | .next t => some (t.core.readReg r)
  | .fault _ => none
  | .refused _ => none

/-- A lane after one step. -/
def laneAfterStep (c : CoreRegs) (i : Fin 25) : Option Lane :=
  match step (withCore c) with
  | .next t => some t.core.lanes[i]
  | .fault _ => none
  | .refused _ => none

/-- Section 2.4's state, `S[i] = i + 1`. -/
def countingLanes : Vector Lane 25 := Vector.ofFn fun i => BitVec.ofNat 64 (i.val + 1)

/-- All lanes 0 but one. -/
def oneLane (i : Fin 25) (v : Lane) : Vector Lane 25 := (Vector.replicate 25 0).set i v

/-! ## Well-formedness: one ill-formed term for each check -/

theorem test_commandWord_zero_nonzero_refused :
    (CommandWord.mk 0x07 0x000001).zeroClear = false ∧ (CommandWord.mk 0x07 0x000001).wellFormed = false := by
  decide

theorem test_commandWord_opcode_unassigned_refused :
    (CommandWord.mk 0x00 0).opcodeAssigned = false ∧ (CommandWord.mk 0x08 0).opcodeAssigned = false ∧
      (CommandWord.mk 0xFF 0).wellFormed = false := by decide

theorem test_regAccess_width_refused :
    (RegAccess.mk .w8 0x008).wide = false ∧ (RegAccess.mk .w64 0x008).wellFormed = false := by decide

theorem test_regAccess_misaligned_refused :
    (RegAccess.mk .w32 0x00A).aligned = false ∧ (RegAccess.mk .w32 0x00A).wellFormed = false := by decide

theorem test_regAccess_beyond_map_refused :
    (RegAccess.mk .w32 0x200).inRange = false ∧ (RegAccess.mk .w32 0x200).wellFormed = false ∧
      (RegAccess.mk .w32 0x1FC).wellFormed = true := by decide

/-! ## Decoding: the words of 30_encoding.md R92, written out as bytes (R62) -/

theorem test_decode_permute : decode [0x01, 0x00, 0x00, 0x00, 0xAA] = .ok (.permute, [0xAA]) := by rfl
theorem test_decode_sponge : decode [0x02, 0x00, 0x00, 0x00] = .ok (.sponge, []) := by rfl
theorem test_decode_digest256 : decode [0x03, 0x00, 0x00, 0x00] = .ok (.digest256, []) := by rfl
theorem test_decode_digest512 : decode [0x04, 0x00, 0x00, 0x00] = .ok (.digest512, []) := by rfl
theorem test_decode_mix : decode [0x05, 0x00, 0x00, 0x00] = .ok (.mix, []) := by rfl
theorem test_decode_fold : decode [0x06, 0x00, 0x00, 0x00] = .ok (.fold, []) := by rfl
theorem test_decode_hash : decode [0x07, 0x00, 0x00, 0x00] = .ok (.hash, []) := by rfl

theorem test_decode_rejects_by_name :
    decode [0x00, 0x00, 0x00, 0x00] = .error .opcodeUnassigned ∧
      decode [0x08, 0x00, 0x00, 0x00] = .error .opcodeUnassigned ∧
      decode [0x07, 0x01, 0x00, 0x00] = .error .zeroFieldNonzero ∧
      decode [0x07, 0x00, 0x00, 0x80] = .error .zeroFieldNonzero ∧
      decode [0x07, 0x00, 0x00] = .error .truncated := ⟨rfl, rfl, rfl, rfl, rfl⟩

theorem test_decodeTableWord :
    decodeTableWord 32 0x00000001 = some .permute ∧ decodeTableWord 32 0x00000002 = some .sponge ∧
      decodeTableWord 32 0x00000003 = some .digest256 ∧ decodeTableWord 32 0x00000004 = some .digest512 ∧
      decodeTableWord 32 0x00000005 = some .mix ∧ decodeTableWord 32 0x00000006 = some .fold ∧
      decodeTableWord 32 0x00000007 = some .hash ∧ decodeTableWord 32 0x00000107 = none := by decide

/-! ## Commands -/

/-- M10, and the corner cases of R163. -/
theorem test_mix :
    regAfter .mix { CoreRegs.reset with opa := 0x12345678, opb := 0x9ABCDEF0 } .acc = some 0xBAD8C018 ∧
      regAfter .mix { CoreRegs.reset with opa := 0xFFFFFFFF, acc := 5 } .acc = some 0xFEFFFE6D := by decide

theorem test_mix_status : statusAfter .mix { CoreRegs.reset with err := true, errCode := 6 } = some 2 := by
  decide

/-- R164's worked example, and that `OPA` is not read. -/
theorem test_fold :
    regAfter .fold { CoreRegs.reset with acc := 1, opb := 2, opa := 9 } .acc = some 0x01000191 ∧
      regAfter .fold { CoreRegs.reset with acc := 0x01000191, opb := 3 } .acc = some 0x24027740 ∧
      regAfter .fold { CoreRegs.reset with acc := 0x24027740, opb := 4 } .acc = some 0xEFE1B9C4 := by decide

theorem test_permute_accepted : statusAfter .permute CoreRegs.reset = some 1 := by decide

/-- Section 2.4, the round of `PERMUTE` with index 0. -/
theorem test_permute_round :
    laneAfterStep { CoreRegs.reset with lanes := countingLanes, peRun := true } 0 = some 0x180000000011 ∧
      laneAfterStep { CoreRegs.reset with lanes := countingLanes, peRun := true } 24 =
        some 0x0800000000000064 := by decide

/-- Section 2.4, after Theta alone. -/
theorem test_theta : (theta countingLanes)[0] = 0x10 ∧ (theta countingLanes)[4] = 0x1F := by decide

/-- Section 2.5's probes. -/
theorem test_rhoPi :
    (rhoPi (oneLane 1 1))[10] = 2 ∧ (rhoPi (oneLane 2 1))[20] = 0x4000000000000000 := by decide

/-- Section 6: `E_RATE` for 200 and for a rate whose low byte alone is legal. -/
theorem test_sponge_rate :
    statusAfter .sponge (operands 0xC8 1 0 32 3) = some 0x206 ∧
      statusAfter .sponge (operands 0x188 1 0 32 3) = some 0x206 ∧
      statusAfter .sponge (operands 0 1 0 32 3) = some 0x206 := by decide

/-- R139: rates 199 and 1, and no buffer where none is needed. -/
theorem test_sponge_accepted :
    statusAfter .sponge (operands 199 1 5 32 3) = some 1 ∧
      statusAfter .sponge (operands 1 1 0 0 0) = some 1 := by decide

/-- R140's corner cases. -/
theorem test_digest256_errors :
    statusAfter .digest256 (operands 0 0 0 33 3) = some 0x506 ∧
      statusAfter .digest256 (operands 0 0 0 32 1) = some 0x306 ∧
      statusAfter .digest256 (operands 0 0 1 32 2) = some 0x406 := by decide

theorem test_digest256_accepted : statusAfter .digest256 (operands 0 0 3 32 3) = some 1 := by decide

/-- R141's corner cases. -/
theorem test_digest512_errors :
    statusAfter .digest512 (operands 0 0 0 65 3) = some 0x506 ∧
      statusAfter .digest512 (operands 0 0 1 64 2) = some 0x406 := by decide

theorem test_digest512_accepted : statusAfter .digest512 (operands 0 0 0 64 3) = some 1 := by decide

/-- Section 6 and R183's corner cases. -/
theorem test_hash_errors :
    statusAfter .hash (hashOperands 0 0x3E8 0x400) = some 0x606 ∧
      statusAfter .hash (hashOperands 0x80 0 0x400) = some 0x706 ∧
      statusAfter .hash (hashOperands 0 0x400 0x3FF) = some 0x806 := by decide

/-- R172: the header and the nonce are loaded, the record is cleared, and a page is 128 bytes. -/
theorem test_hash_accepted :
    ∃ t, exec .hash (withCore
        { hashOperands 0 0x400 0x400 with
          hdr := #v[1, 2, 3, 4, 5, 6, 7, 8], nonceLo := 9, nonceHi := 10, mixHash := Vector.replicate 8 7 }) =
      .next t ∧
      t.core.seed = #v[1, 2, 3, 4, 5, 6, 7, 8, 9, 10, 0, 0, 0, 0, 0, 0] ∧ t.core.pages = 8 ∧
      t.core.mixHash = Vector.replicate 8 0 ∧ t.core.rem = 40 ∧ t.core.status = 1 := by
  refine ⟨_, rfl, ?_⟩; decide

/-- Section 6: an illegal word is accepted and reported. -/
theorem test_illegal_word :
    ∃ t, step { State.reset with host := [.regWrite Reg.cmd.access 0x107] } = .next t ∧
      t.core.status = 0x106 := ⟨_, rfl, by decide⟩

/-- T1 and T2, round 0 of section 5: the page indexes. -/
theorem test_pageIndex :
    pageIndex 8 0xD89C30D1 0 0xD89C30D1 = 2 ∧ pageIndex 8 0x399AA0F0 0 0x399AA0F0 = 0 := by decide

/-- R139, `RATE = 1`: the domain byte and `0x80` both go to byte 0. -/
theorem test_pad_same_byte : laneByte (padLanes zeroLanes 1 0x01 []) 0 = 0x81 := by decide

/-! ## The word placed for the next step -/

theorem test_withFetchWord_mix :
    ∃ t, step ({ State.reset with core := { CoreRegs.reset with opa := 1, opb := 2 } }.withFetchWord 32 5) =
      .next t ∧ t.core.acc = 0x01000191 := ⟨_, rfl, by decide⟩

/-! ## Witnesses: states and operands that meet the hypotheses of each statement -/

/-- A pass asked for by a host command, about to absorb: rate `r`, `n` input bytes and `l` output bytes
left. -/
def absorbing (r : BitVec 8) (n l : Word) : CoreRegs :=
  { operands 0 0 n l 3 with scPhase := .absorb, rRate := r, rDom := 1, rem := n, orem := l }

/-- The same pass at its pad step. -/
def padding (r : BitVec 8) (n l : Word) : CoreRegs := { absorbing r n l with scPhase := .pad }

/-- The same pass at a squeeze step, its input consumed. -/
def squeezing (r : BitVec 8) (l : Word) : CoreRegs := { absorbing r 0 l with scPhase := .squeeze }

/-- A `HASH` of eight pages with the controllers below the HO at rest. -/
def hashing (p : HoPhase) (i : Fin 64) : CoreRegs :=
  { hashOperands 0 1024 1024 with hoPhase := p, pages := 8, i := i }

theorem withCore_quiet (c : CoreRegs) : (withCore c).quiet := fun k => by cases k <;> rfl

theorem withCore_canonical (c : CoreRegs) : (withCore c).memoryCanonical := fun k => by cases k <;> exact ⟨rfl, rfl⟩

theorem withCore_whole (c : CoreRegs) : (withCore c).wholeMemories := fun k => by cases k <;> rfl

theorem withCore_holds (c : CoreRegs) (k : MemSpace) (n : Nat) (h : n ≤ k.bytes) : (withCore c).holds k n := by
  intro a ha
  have : a < k.bytes := by omega
  cases k <;> simpa [State.provides, withCore, State.reset, Space.empty] using this

theorem absorbing_sound : (absorbing 136 3 32).SequencerSound :=
  { rndIdle := by decide
    rateRange := by decide
    padTail := by decide
    outUntouched := by decide
    inConsumed := by decide
    outDelivered := by decide
    routed := fun _ => ⟨rfl, rfl, by decide, by decide⟩
    peOwner := by decide
    pagesPositive := by decide }

theorem hashing_sound (p : HoPhase) (i : Fin 64) : (hashing p i).SequencerSound :=
  { rndIdle := fun _ => rfl
    rateRange := fun h => absurd rfl h
    padTail := fun h => by simp [hashing, hashOperands, CoreRegs.reset] at h
    outUntouched := fun _ => rfl
    inConsumed := fun _ => rfl
    outDelivered := fun h => by simp [hashing, hashOperands, CoreRegs.reset] at h
    routed := fun h => absurd rfl h
    peOwner := fun _ _ => rfl
    pagesPositive := fun _ => by simp [hashing] }

theorem witness_StepRunsDecodedCommand :
    ∃ (s : State) (w : Word) (i : Instr) (rest : List HostMove), s.host = HostMove.regWrite { width := .w32, offset := 0 } w :: rest ∧
      decodeWord w = .ok i :=
  ⟨{ State.reset with host := [issue .hash, .wait] }, 0x00000007, .hash, [.wait], rfl, rfl⟩

theorem witness_UnattendedStepIsSequencerStep :
    State.reset.host = [] ∧ ({ State.reset with host := [.tick] } : State).host = HostMove.tick :: [] ∧
      ({ State.reset with host := [.wait] } : State).host = HostMove.wait :: [] ∧
      State.reset.core.busy = false ∧
      ({ withCore (absorbing 136 3 32) with host := [.wait] } : State).core.busy = true := by decide

theorem witness_IllegalWordChangesOnlyStatus :
    State.reset.core.busy = false ∧ (0 : Word).toNat = 0 ∧ 8 ≤ (8 : Word).toNat ∧
      8 ≤ (0x107 : Word).toNat ∧ 8 ≤ (0xFFFFFFFF : Word).toNat := by decide

theorem witness_MixWritesAccumulator : State.reset.core.busy = false := by decide

theorem witness_FoldWritesAccumulator : State.reset.core.busy = false := by decide

theorem witness_ThreeFoldsComputeFold4 : State.reset.core.busy = false := by decide

theorem witness_FirstFailingCheckIsReported :
    (withCore (operands 0 1 3 32 3)).core.busy = false ∧
      firstError .sponge (operands 0 1 3 32 3) = some .rate ∧
      firstError .sponge (operands 199 1 3 32 3) = none ∧
      firstError .digest512 (operands 0 0 0 65 3) = some .outLen ∧
      firstError .hash (hashOperands 0 0 0) = some .fullSize ∧
      firstError .hash (hashOperands 0 128 128) = none := by decide

theorem witness_SeveralFailingChecksReportTheFirst :
    (operands 200 0 1 1 0).busy = false ∧ (operands 200 0 1 1 0).bufCfg = 0 ∧
      0 < (operands 200 0 1 1 0).inLen.toNat ∧ 0 < (operands 200 0 1 1 0).outLen.toNat ∧
      200 ≤ (operands 200 0 1 1 0).rate.toNat ∧ 1 ≤ (operands 1 0 1 1 0).rate.toNat ∧
      (operands 199 0 1 1 0).rate.toNat < 200 ∧ 64 < (operands 0 0 1 65 0).outLen.toNat ∧
      (operands 0 0 1 32 0).outLen.toNat ≤ 32 := by decide

theorem witness_ReissuedCommandFailsAgain :
    State.reset.core.busy = false ∧ (∃ t, exec .hash State.reset = .next t ∧ t.core.err = true) ∧
      ∃ s' : State, s'.core.busy = false ∧ s'.core.acc = 7 ∧ State.reset.core.SameOperands s'.core :=
  ⟨by decide, ⟨_, rfl, by decide⟩, withCore { CoreRegs.reset with acc := 7 }, by decide, rfl,
    { hdr := rfl, nonce := ⟨rfl, rfl⟩, fullSize := ⟨rfl, rfl⟩, dsLen := ⟨rfl, rfl⟩, rate := rfl
      domain := rfl, inLen := rfl, outLen := rfl, bufCfg := rfl, opa := rfl, opb := rfl }⟩

theorem witness_SequencerRaisesNoError :
    ∃ t, sequencerStep (withCore (absorbing 136 3 32)) = .next t ∧ t.core.scPhase = .pad := ⟨_, rfl, rfl⟩

theorem witness_PermuteAcceptanceStartsEngine : State.reset.core.busy = false := by decide

theorem witness_SpongeAcceptanceStartsPass :
    (operands 199 6 3 32 3).busy = false ∧ firstError .sponge (operands 199 6 3 32 3) = none ∧
      (199 : BitVec 8).toNat = (operands 199 6 3 32 3).rate.toNat ∧
      firstError .digest256 (operands 0 0 3 32 3) = none ∧
      firstError .digest512 (operands 0 0 3 64 3) = none := by decide

theorem witness_HashAcceptanceStartsExpansion :
    (hashOperands 0 128 128).busy = false ∧ firstError .hash (hashOperands 0 128 128) = none ∧
      firstError .hash { hashOperands 0x7F 0xFFFFFF80 0xFFFFFF80 with dsLenHi := 0x7F } = none := by decide

theorem witness_AcceptanceFrame (i : Instr) : ∃ t, exec i State.reset = .next t := by
  cases i <;> exact ⟨_, rfl⟩

theorem witness_BusyRegisterAccesses :
    (withCore (absorbing 136 3 32)).core.busy = true ∧ (RegAccess.mk .w32 0x004).wellFormed = true ∧
      (RegAccess.mk .w32 0x000).wellFormed = true ∧ (RegAccess.mk .w32 0x1FC).wellFormed = true := by decide

theorem witness_IdleRegisterReadHasNoSideEffect :
    State.reset.core.busy = false ∧ Reg.ofAccess (.mk .w32 0x07C) = some (.result 7) ∧
      Reg.ofAccess (.mk .w32 0x0FC) = some .reserved ∧ Reg.ofAccess (.mk .w32 0x1FC) = some .reserved := by decide

theorem witness_OddRegisterAccessIsRefused :
    Reg.ofAccess { width := .w8, offset := 0 } = none ∧ Reg.ofAccess { width := .w64, offset := 0 } = none ∧
      Reg.ofAccess { width := .w32, offset := 2 } = none ∧
      Reg.ofAccess { width := .w32, offset := 0x200 } = none ∧
      Reg.ofAccess { width := .w32, offset := 0x1FC } ≠ none := by decide

theorem witness_RegisterMapIsOneToOne :
    Reg.ofAccess { width := .w32, offset := 0x1C4 } = some (.sHi 24) ∧ Reg.sHi 24 ≠ .reserved ∧
      Reg.ofAccess { width := .w32, offset := 0x09C } = some (.mixHash 7) ∧
      Reg.ofAccess { width := .w32, offset := 0x0A0 } = some .reserved ∧
      Reg.ofAccess { width := .w32, offset := 0x0FC } = some .reserved ∧
      Reg.ofAccess { width := .w32, offset := 0x100 } = some (.sLo 0) ∧
      Reg.ofAccess { width := .w32, offset := 0x1C8 } = some .reserved ∧
      Reg.ofAccess { width := .w32, offset := 0x1FC } = some .reserved := by decide

theorem witness_RegisterReadsBackWhatWasWritten :
    State.reset.core.busy = false ∧ Reg.ofAccess (.mk .w32 0x010) = some .domain ∧ Reg.domain ≠ .cmd ∧
      Reg.ofAccess (.mk .w32 0x1C8) = some .reserved ∧ Reg.reserved ≠ .cmd := by decide

theorem witness_RegisterWriteLeavesTheOthers :
    State.reset.core.busy = false ∧ Reg.ofAccess (.mk .w32 0x100) = some (.sLo 0) ∧ Reg.sLo 0 ≠ .cmd ∧
      Reg.sHi 0 ≠ Reg.sLo 0 ∧ Reg.ofAccess (.mk .w32 0x0FC) = some .reserved ∧ Reg.sLo 0 ≠ .reserved := by decide

theorem witness_OperandScriptsAssemble :
    State.reset.core.busy = false ∧ (List.replicate 32 (7 : Byte)).length = 32 := by decide

theorem witness_HostReadsBackWhatItWrote :
    State.reset.memoryCanonical ∧ State.reset.core.busy = false ∧
      State.reset.provides .out 0xFFFFFFFF = true ∧ Doubt.covers State.reset.doubt 0xFFFFFFFF = false ∧
      Doubt.covers ({ State.reset with doubt := [(0, 4)] } : State).doubt 3 = true :=
  ⟨withCore_canonical _, by decide, by decide, by decide, by decide⟩

theorem unattended_noHostWrite {s : State} (h : s.host = []) (k : MemSpace) (a : Nat) : ¬s.hostWritesNext k a := by
  rintro ⟨v, rest, e⟩; rw [h] at e; cases e

theorem notReached_below {c : CoreRegs} {a : Nat} (h : a < c.outPos.toNat) : ¬c.reaches .out a := by
  rintro ⟨-, -, -, h1, -⟩; omega

/-- A pass that has put out 72 bytes of 105, the byte 71 having replaced a 9, and has 33 to go. -/
def halfSqueezed : State :=
  { withCore { squeezing 72 33 with outPos := 72, outLen := 105, lanes := Vector.replicate 25 7 } with
    shadow := [(71, 9)] }

/-- Bytes on either side of `OUTPOS`, and the last and the first beyond the output. -/
theorem witness_HostReadsBackWhatItWrote_busy :
    halfSqueezed.provides .out 71 = true ∧ halfSqueezed.core.writesOut 71 = true ∧
      halfSqueezed.core.writesOut 72 = true ∧ halfSqueezed.core.writesOut 104 = true ∧
      halfSqueezed.core.writesOut 105 = false ∧ Doubt.covers halfSqueezed.doubt 72 = false ∧
      halfSqueezed.core.outPos.toNat ≤ 72 ∧ 71 < halfSqueezed.core.outPos.toNat := by decide

/-- A read of byte 72 is owed a choice; the squeeze step that writes the byte settles it and keeps the byte
it replaced. -/
theorem witness_HostReadsBackWhatItWrote_owed :
    ∃ s t, step { halfSqueezed with host := [.memRead .out 72] } = .next s ∧ s.owed = [(0, 72)] ∧
      s.memoryCanonical ∧ step s = .next t ∧ sequencerStep s = .next t ∧ 0 < s.reads.length ∧
      s.stepIsSequencers ∧ s.core.reaches .out 72 ∧ Memory.find? s.outMem.raced 72 = none ∧
      t.core.busy = true ∧ t.owed = [] ∧ t.peek .out 72 = 7 ∧ Memory.find? t.shadow 72 = some 0 ∧
      ¬s.hostWritesNext .out 71 ∧ ¬(s.stepIsSequencers ∧ s.core.reaches .out 71) ∧
      Memory.find? t.shadow 71 = some 9 :=
  ⟨_, _, rfl, rfl, fun k => by cases k <;> exact ⟨rfl, rfl⟩, rfl, rfl, by decide, .inl rfl,
    ⟨rfl, rfl, rfl, by decide, by decide⟩, rfl, by decide, by decide, by decide, by decide,
    unattended_noHostWrite rfl _ _, fun h => notReached_below (by decide) h.2, by decide⟩

theorem witness_EngineStepAppliesOneRound :
    (withCore { CoreRegs.reset with peRun := true }).core.peRun = true ∧
      (withCore { CoreRegs.reset with peRun := true, rnd := 23 }).core.rnd = 23 := by decide

theorem witness_PermuteAppliesF : State.reset.core.busy = false ∧ State.reset.unattended := ⟨rfl, rfl⟩

theorem witness_AbsorbStepXorsOneBlock (n : Word) (h : n = 136 ∨ n = 135) :
    (absorbing 136 n 32).peRun = false ∧ (absorbing 136 n 32).scPhase = .absorb ∧
      (absorbing 136 n 32).src = .inp ∧ (withCore (absorbing 136 n 32)).quiet ∧
      (absorbing 136 n 32).inPos.toNat + (absorbing 136 n 32).rem.toNat < 2 ^ 32 ∧
      (absorbing 136 n 32).rRate.toNat ≤ 199 ∧
      (withCore (absorbing 136 n 32)).holds .inp
        ((absorbing 136 n 32).inPos.toNat + (absorbing 136 n 32).rem.toNat) := by
  refine ⟨rfl, rfl, rfl, withCore_quiet _, ?_, ?_, withCore_holds _ _ _ ?_⟩ <;>
    rcases h with rfl | rfl <;> decide

theorem witness_PadStepXorsDomainLastBitAndTail (n : Word) (h : n = 0 ∨ n = 198) :
    (padding 199 n 32).peRun = false ∧ (padding 199 n 32).scPhase = .pad ∧
      (padding 199 n 32).src = .inp ∧ (withCore (padding 199 n 32)).quiet ∧
      (padding 199 n 32).inPos.toNat + (padding 199 n 32).rem.toNat < 2 ^ 32 ∧
      (padding 199 n 32).rem.toNat < (padding 199 n 32).rRate.toNat ∧
      (padding 199 n 32).rRate.toNat ≤ 199 ∧
      (withCore (padding 199 n 32)).holds .inp
        ((padding 199 n 32).inPos.toNat + (padding 199 n 32).rem.toNat) := by
  refine ⟨rfl, rfl, rfl, withCore_quiet _, ?_, ?_, ?_, withCore_holds _ _ _ ?_⟩ <;>
    rcases h with rfl | rfl <;> decide

theorem witness_SqueezeStepStoresStateBytes (l : Word) (h : l = 0 ∨ l = 71 ∨ l = 72) :
    (squeezing 72 l).peRun = false ∧ (squeezing 72 l).scPhase = .squeeze ∧ (squeezing 72 l).dst = .out ∧
      (withCore (squeezing 72 l)).quiet ∧ (withCore (squeezing 72 l)).memoryCanonical ∧
      (squeezing 72 l).outPos.toNat + (squeezing 72 l).orem.toNat < 2 ^ 32 ∧
      1 ≤ (squeezing 72 l).rRate.toNat ∧ (squeezing 72 l).rRate.toNat ≤ 199 ∧
      (withCore (squeezing 72 l)).holds .out
        ((squeezing 72 l).outPos.toNat + (squeezing 72 l).orem.toNat) := by
  refine ⟨rfl, rfl, rfl, withCore_quiet _, withCore_canonical _, ?_, ?_, ?_,
    withCore_holds _ _ _ ?_⟩ <;> rcases h with rfl | rfl | rfl <;> decide

theorem witness_AbandonedOutputIsUnspecified :
    (∃ c : CoreRegs, c.peRun = false ∧ c.scPhase = .clear ∧ c.hoPhase = .idle) ∧
      (squeezing 72 33).writesOut 32 = true ∧ (squeezing 72 33).writesOut 33 = false ∧
      State.reset.provides .out 0xFFFFFFFF = true :=
  ⟨⟨{ CoreRegs.reset with scPhase := .clear }, rfl, rfl, rfl⟩, by decide, by decide, by decide⟩

/-- A byte in doubt is lost at the clear step that ends a command; another at a host write beyond the
output of a running command. -/
theorem witness_AbandonedOutputIsUnspecified_lost :
    (∃ s t : State, step s = .next t ∧ s.core.scPhase = .clear ∧ Doubt.covers s.doubt 3 = true ∧
      Doubt.covers t.doubt 3 = false ∧ Doubt.covers t.doubt 4 = true) ∧
      ∃ s t : State, step s = .next t ∧ s.core.busy = true ∧ Doubt.covers s.doubt 33 = true ∧
        Doubt.covers t.doubt 33 = false :=
  ⟨⟨{ withCore { CoreRegs.reset with scPhase := .clear, outPos := 4 } with doubt := [(0, 9)] }, _, rfl, rfl,
      by decide, by decide, by decide⟩,
    ⟨{ withCore (squeezing 72 33) with doubt := [(0, 40)], host := [.memWrite .out 33 5] }, _, rfl, by decide,
      by decide, by decide⟩⟩

/-- A reset puts the output of the command it abandons in doubt. -/
theorem witness_AbandonedOutputIsUnspecified_gained :
    ∃ s t : State, step s = .next t ∧ Doubt.covers s.doubt 32 = false ∧ Doubt.covers t.doubt 32 = true ∧
      Doubt.covers t.doubt 33 = false :=
  ⟨{ withCore (squeezing 72 33) with host := [.reset] }, _, rfl, by decide, by decide, by decide⟩

theorem witness_ThetaAndChiByCoordinates :
    ∃ par : Fin 5 → Lane, ∀ x : Fin 5, par x =
      countingLanes[x.val] ^^^ countingLanes[x.val + 5] ^^^ countingLanes[x.val + 10] ^^^
        countingLanes[x.val + 15] ^^^ countingLanes[x.val + 20] := ⟨_, fun _ => rfl⟩

theorem witness_ClearStepZeroesLanes (p : HoPhase) :
    ∃ c : CoreRegs, c.peRun = false ∧ c.scPhase = .clear ∧ c.hoPhase = p :=
  ⟨{ CoreRegs.reset with scPhase := .clear, hoPhase := p }, rfl, rfl, rfl⟩

theorem witness_SpongePassComputesSponge_in :
    ∃ s m c, s.core = startSponge 199 6 .inp 2 .out 200 c ∧ c.peRun = false ∧ s.unattended ∧ s.quiet ∧
      s.memoryCanonical ∧ srcBytes s 0 (2 : Word).toNat = some m ∧
      (200 : Word).toNat ≤ Dest.out.capacity ∧ s.holds .out (200 : Word).toNat :=
  ⟨withCore (startSponge 199 6 .inp 2 .out 200 CoreRegs.reset), [0, 0], CoreRegs.reset, rfl, rfl, rfl,
    withCore_quiet _, withCore_canonical _, rfl, by decide, withCore_holds _ _ _ (by decide)⟩

theorem witness_SpongePassComputesSponge_seed :
    ∃ s m c, s.core = startSponge 72 1 .seed40 40 .seed 64 c ∧ c.peRun = false ∧ s.unattended ∧ s.quiet ∧
      s.memoryCanonical ∧ srcBytes s 0 (40 : Word).toNat = some m ∧ (64 : Word).toNat ≤ Dest.seed.capacity :=
  ⟨withCore (startSponge 72 1 .seed40 40 .seed 64 CoreRegs.reset), _, CoreRegs.reset, rfl, rfl, rfl,
    withCore_quiet _, withCore_canonical _, rfl, by decide⟩

theorem witness_SpongePassComputesSponge_result :
    ∃ s m c, s.core = startSponge 1 1 .seedMix96 96 .result 32 c ∧ c.peRun = false ∧ s.unattended ∧
      s.quiet ∧ s.memoryCanonical ∧ srcBytes s 0 (96 : Word).toNat = some m ∧
      (32 : Word).toNat ≤ Dest.result.capacity :=
  ⟨withCore (startSponge 1 1 .seedMix96 96 .result 32 CoreRegs.reset), _, CoreRegs.reset, rfl, rfl, rfl,
    withCore_quiet _, withCore_canonical _, rfl, by decide⟩

/-- The state of K2: three input bytes, a whole digest. -/
theorem sponge_hypotheses (i : Instr) (c : CoreRegs) (hc : c = operands 136 1 3 32 3)
    (he : firstError i c = none) :
    (withCore c).core.busy = false ∧ (withCore c).unattended ∧ (withCore c).quiet ∧
      (withCore c).memoryCanonical ∧ firstError i (withCore c).core = none ∧
      (withCore c).holds .inp (withCore c).core.inLen.toNat ∧
      (withCore c).holds .out (withCore c).core.outLen.toNat := by
  subst hc
  exact ⟨by decide, rfl, withCore_quiet _, withCore_canonical _, he, withCore_holds _ _ _ (by decide),
    withCore_holds _ _ _ (by decide)⟩

theorem witness_SpongeCommandWritesSpongeOutput :
    ∃ s : State, s.core.busy = false ∧ s.unattended ∧ s.quiet ∧ s.memoryCanonical ∧
      firstError .sponge s.core = none ∧ s.holds .inp s.core.inLen.toNat ∧
      s.holds .out s.core.outLen.toNat := ⟨_, sponge_hypotheses .sponge _ rfl (by decide)⟩

theorem witness_DigestCommandsWriteKeccakDigests (i : Instr) (h : i = .digest256 ∨ i = .digest512) :
    ∃ s : State, s.core.busy = false ∧ s.unattended ∧ s.quiet ∧ s.memoryCanonical ∧
      firstError i s.core = none ∧ s.holds .inp s.core.inLen.toNat ∧ s.holds .out s.core.outLen.toNat :=
  ⟨_, sponge_hypotheses i _ rfl (by rcases h with rfl | rfl <;> decide)⟩

theorem witness_ShorterSpongeOutputIsBeginning :
    1 ≤ 1 ∧ 1 ≤ 199 ∧ 199 ≤ 199 ∧ 0 ≤ 0 ∧ 199 ≤ 200 := by decide

theorem witness_FetchesStayInsideThePages :
    (1 : Word) ≠ 0 ∧ (0xFFFFFFFF : Word) ≠ 0 ∧ 1 < 2 ∧ 63 < 64 := by decide

theorem witness_AccessRoundMixesOnePage (i : Fin 64) :
    (hashing .access i).peRun = false ∧ (hashing .access i).scPhase = .idle ∧
      (hashing .access i).hoPhase = .access ∧ (hashing .access i).pages ≠ 0 ∧
      (withCore (hashing .access i)).quiet ∧
      (withCore (hashing .access i)).holds .dset (128 * (hashing .access i).pages.toNat) :=
  ⟨rfl, rfl, rfl, by simp [hashing], withCore_quiet _, withCore_holds _ _ _ (by simp [hashing, MemSpace.bytes])⟩

theorem witness_EightFoldsCompressInPlace :
    (withCore (hashing .fold 63)).unattended ∧ (hashing .fold 63).peRun = false ∧
      (hashing .fold 63).scPhase = .idle ∧ (hashing .fold 63).hoPhase = .fold ∧ (hashing .fold 63).k = 0 :=
  ⟨rfl, rfl, rfl, rfl, rfl⟩

theorem witness_TileFinalAndEndSteps (p : HoPhase) :
    (hashing p 63).peRun = false ∧ (hashing p 63).scPhase = .idle ∧ (hashing p 63).hoPhase = p :=
  ⟨rfl, rfl, rfl⟩

/-- The state of a `HASH` of eight pages, with whatever an earlier command left in `ACC`. -/
def readyToHash (acc : Word) : State := withCore { hashOperands 0 1024 1024 with acc := acc }

theorem readyToHash_hypotheses (acc : Word) (h : acc = 0 ∨ acc = 1) :
    (readyToHash acc).core.busy = false ∧ (readyToHash acc).unattended ∧ (readyToHash acc).quiet ∧
      (readyToHash acc).memoryCanonical ∧ firstError .hash (readyToHash acc).core = none ∧
      (readyToHash acc).holds .dset (readyToHash acc).core.fullSize.toNat := by
  refine ⟨rfl, rfl, withCore_quiet _, withCore_canonical _, ?_, withCore_holds _ _ _ ?_⟩ <;>
    rcases h with rfl | rfl <;> decide

theorem witness_ExpansionPassFillsSeed :
    (readyToHash 0).core.busy = false ∧ (readyToHash 0).unattended ∧ (readyToHash 0).quiet ∧
      (readyToHash 0).memoryCanonical ∧ firstError .hash (readyToHash 0).core = none := by
  obtain ⟨h1, h2, h3, h4, h5, -⟩ := readyToHash_hypotheses 0 (.inl rfl); exact ⟨h1, h2, h3, h4, h5⟩

theorem witness_HashCommandComputesHash :
    ∃ s : State, s.core.busy = false ∧ s.unattended ∧ s.quiet ∧ s.memoryCanonical ∧
      firstError .hash s.core = none ∧ s.holds .dset s.core.fullSize.toNat := ⟨_, readyToHash_hypotheses 0 (.inl rfl)⟩

theorem witness_HashDependsOnItsInputsOnly :
    ∃ s s' : State, s.core ≠ s'.core ∧ (s.core.busy = false ∧ s'.core.busy = false ∧ s.unattended ∧
      s'.unattended ∧ s.quiet ∧ s'.quiet ∧ s.memoryCanonical ∧ s'.memoryCanonical ∧
      firstError .hash s.core = none ∧ firstError .hash s'.core = none ∧
      s.holds .dset s.core.fullSize.toNat ∧ s'.holds .dset s.core.fullSize.toNat) ∧
      s'.core.hdr = s.core.hdr ∧ s'.core.nonce = s.core.nonce ∧ s'.core.fullSize = s.core.fullSize ∧
      ∀ a, a < s.core.fullSize.toNat → s'.peek .dset a = s.peek .dset a := by
  obtain ⟨h1, h2, h3, h4, h5, h6⟩ := readyToHash_hypotheses 0 (.inl rfl)
  obtain ⟨k1, k2, k3, k4, k5, k6⟩ := readyToHash_hypotheses 1 (.inr rfl)
  exact ⟨readyToHash 0, readyToHash 1, by decide, ⟨h1, k1, h2, k2, h3, k3, h4, k4, h5, k5, h6, k6⟩,
    rfl, rfl, rfl, fun _ _ => rfl⟩

/-- A memory with one byte listed, about to lose it: the host writes 0 over it. -/
theorem witness_EveryStepKeepsMemoryCanonical :
    ∃ s t : State, s.memoryCanonical ∧ s.inMem.cells = [(5, 9)] ∧ step s = .next t ∧ t.inMem.cells = [] :=
  ⟨{ State.reset with
      inMem := { Space.empty with cells := [(5, 9)] }, host := [.memWrite .inp 5 0] }, _,
    fun k => by cases k <;> decide, rfl, rfl, rfl⟩

/-- A list of other values that a squeeze step is about to lengthen. -/
theorem witness_EveryStepKeepsMemoryCanonical_shadow :
    ∃ s t : State, s.shadowCanonical ∧ s.shadow = [(71, 9)] ∧ step s = .next t ∧ t.core.busy = true :=
  ⟨halfSqueezed, _, rfl, rfl, rfl, rfl⟩

/-- A busy CORE whose input the host overwrites. -/
theorem witness_EveryStepKeepsRacesToBusy :
    ∃ s t : State, s.racesOnlyWhileBusy ∧ step s = .next t ∧ t.inMem.raced = [(1, 0)] :=
  ⟨{ withCore (absorbing 136 3 32) with host := [.memWrite .inp 1 7] }, _,
    fun h => Bool.noConfusion h, rfl, rfl⟩

theorem witness_EveryStepKeepsStatusConsistent :
    ∃ s t : State, s.core.StatusConsistent ∧ step s = .next t ∧ t.core.err = true :=
  ⟨{ State.reset with host := [issue .hash] }, _,
    { busyFlags := by decide, errFlags := by decide, noErrCode := by decide, codeRange := by decide }, rfl,
    by decide⟩

theorem witness_EveryStepKeepsSequencerSound :
    ∃ s t : State, s.core.SequencerSound ∧ s.core.busy = true ∧ step s = .next t ∧ t.core.scPhase = .pad :=
  ⟨withCore (absorbing 136 3 32), _, absorbing_sound, by decide, rfl, rfl⟩

theorem witness_SequencerLeavesOperandsAndInputs :
    ∃ t, sequencerStep (withCore (squeezing 72 0)) = .next t ∧ t.core.scPhase = .clear ∧
      (absorbing 136 3 32).scPhase ≠ .squeeze := ⟨_, rfl, rfl, by decide⟩

theorem witness_OnlyHashWritesRecordAndBuffers :
    (∃ s t : State, s.core.SequencerSound ∧ sequencerStep s = .next t ∧ s.core.hoPhase = .idle) ∧
      ∃ s t : State, s.core.SequencerSound ∧ sequencerStep s = .next t ∧ s.core.hoPhase = .tile :=
  ⟨⟨withCore (absorbing 136 3 32), _, absorbing_sound, rfl, rfl⟩,
    ⟨withCore (hashing .tile 0), _, hashing_sound _ _, rfl, rfl⟩⟩

theorem witness_SequencerNeverStopsOnWholeMemories :
    (withCore (absorbing 136 3 32)).wholeMemories ∧ (withCore (absorbing 136 3 32)).core.SequencerSound :=
  ⟨withCore_whole _, absorbing_sound⟩

theorem witness_EveryCommandTerminates :
    (withCore (hashing .access 0)).wholeMemories ∧ (withCore (hashing .access 0)).core.SequencerSound ∧
      (withCore (hashing .access 0)).unattended ∧ (withCore (hashing .access 0)).core.busy = true :=
  ⟨withCore_whole _, hashing_sound _ _, rfl, rfl⟩

/-- An absorb, a squeeze and a fetch of which the last byte reached is not there. -/
theorem witness_SequencerStopsOnlyWhereMemoryIsMissing :
    (∃ s : State, sequencerStep s = .fault (.memoryStuck .inp) ∧ s.core.reaches .inp 135 ∧
        s.provides .inp 135 = false ∧ s.provides .inp 134 = true) ∧
      (∃ s : State, sequencerStep s = .fault (.memoryStuck .out) ∧ s.core.reaches .out 32 ∧
        s.provides .out 32 = false ∧ s.provides .out 31 = true) ∧
      ∃ s : State, sequencerStep s = .fault (.memoryStuck .dset) ∧ s.core.reaches .dset 127 ∧
        s.provides .dset 127 = false ∧ s.provides .dset 126 = true :=
  ⟨⟨{ withCore (absorbing 136 136 32) with inMem := { Space.empty with size := some 135 } }, rfl,
      ⟨rfl, rfl, by decide, .inl ⟨rfl, by decide, by decide⟩⟩, by decide, by decide⟩,
    ⟨{ withCore (squeezing 72 33) with outMem := { Space.empty with size := some 32 } }, rfl,
      ⟨rfl, rfl, rfl, by decide, by decide⟩, by decide, by decide⟩,
    ⟨{ withCore (hashing .access 0) with dset := { Space.empty with size := some 127 } }, rfl,
      ⟨rfl, rfl, rfl, 1, 63, by decide, by decide, by decide⟩, by decide, by decide⟩⟩

theorem witness_RacedReadIsOldOrNew :
    ((withCore (absorbing 136 3 32)).memoryCanonical ∧ (absorbing 136 3 32).readsIn = true ∧
        (withCore (absorbing 136 3 32)).provides .inp 2 = true) ∧
      (withCore (hashing .access 63)).memoryCanonical ∧ (hashing .access 63).readsDset = true ∧
        (withCore (hashing .access 63)).provides .dset 1023 = true :=
  ⟨⟨withCore_canonical _, by decide, by decide⟩, withCore_canonical _, by decide, by decide⟩

/-- Two host writes of the byte 1 and then the pad step that reads it: the old byte stays the first. -/
theorem witness_RacedReadIsOldOrNew_later :
    ∃ s t u : State, step { withCore (padding 136 3 32) with
        host := [.memWrite .inp 1 7, .memWrite .inp 1 8] } = .next s ∧
      step s = .next t ∧ Memory.find? t.inMem.raced 1 = some 0 ∧ t.peek .inp 1 = 8 ∧
      t.core.busy = true ∧ ¬t.hostWritesNext .inp 1 ∧ t.core.reaches .inp 1 ∧ sequencerStep t = .next u ∧
      step t = .next u ∧ u.core.busy = true ∧ Memory.find? u.inMem.raced 1 = some 0 :=
  ⟨_, _, _, rfl, rfl, by decide, by decide, by decide, unattended_noHostWrite rfl _ _,
    ⟨rfl, rfl, by decide, .inr ⟨rfl, by decide⟩⟩, rfl, rfl, rfl, rfl⟩

theorem witness_RacedOutputIsHostsOrCommands :
    (withCore (squeezing 72 33)).memoryCanonical ∧ (squeezing 72 33).writesOut 32 = true ∧
      (squeezing 72 33).writesOut 33 = false ∧ (squeezing 72 33).outPos.toNat ≤ 32 ∧
      (withCore (squeezing 72 33)).provides .out 32 = true ∧ halfSqueezed.memoryCanonical ∧
      halfSqueezed.core.writesOut 71 = true ∧ 71 < halfSqueezed.core.outPos.toNat ∧
      halfSqueezed.provides .out 71 = true :=
  ⟨withCore_canonical _, by decide, by decide, by decide, by decide,
    fun k => by cases k <;> exact ⟨rfl, rfl⟩, by decide, by decide, by decide⟩

/-- The host writes byte 72 ahead of the command, which then writes it; byte 71 is not touched. -/
theorem witness_RacedOutputIsHostsOrCommands_step :
    ∃ u t : State, step { halfSqueezed with host := [.memWrite .out 72 5] } = .next u ∧
      u.memoryCanonical ∧ sequencerStep u = .next t ∧ step u = .next t ∧ t.core.busy = true ∧
      u.core.reaches .out 72 ∧ Memory.find? u.outMem.raced 72 = some 5 ∧ ¬u.hostWritesNext .out 71 ∧
      ¬(u.stepIsSequencers ∧ u.core.reaches .out 71) ∧ ¬u.core.reaches .out 105 :=
  ⟨_, _, rfl, fun k => by cases k <;> decide, rfl, rfl, rfl, ⟨rfl, rfl, rfl, by decide, by decide⟩, rfl,
    unattended_noHostWrite rfl _ _, fun h => notReached_below (by decide) h.2,
    fun h => absurd h.2.2.2.2 (by decide)⟩

end Sys2Proof.Tests
end

section
/-! What the acceptance of a command, a step of the sequencer and a write of a register can do to the
CORE's registers, said once for the invariants of 10_state.md. -/

namespace Sys2Proof.Machine

/-! ## Acceptance -/

/-- Every way an idle CORE with the registers `c` can accept a command (30_encoding.md R91). -/
inductive AcceptedAs (c : CoreRegs) : Instr → CoreRegs → Prop where
  /-- R118. -/
  | permute : AcceptedAs c .permute c.clearStatus.startPe
  /-- R163. -/
  | mix : AcceptedAs c .mix (acceptMix c.clearStatus)
  /-- R164. -/
  | fold : AcceptedAs c .fold (acceptFold c.clearStatus)
  /-- A check of a sponge-type command fails (R214). -/
  | failed (i : Instr) (e : ErrorKind) (hi : i = .sponge ∨ i = .digest256 ∨ i = .digest512) :
      AcceptedAs c i (c.clearStatus.raise e)
  /-- A check of `HASH` fails (R172, R214). -/
  | hashFailed (e : ErrorKind) : AcceptedAs c .hash ((clearRecord c.clearStatus).raise e)
  /-- A sponge-type command starts its pass (R139 to R141). -/
  | pass (i : Instr) (r : BitVec 8) (d : Byte) (hi : i = .sponge ∨ i = .digest256 ∨ i = .digest512)
      (hr : 1 ≤ r.toNat ∧ r.toNat ≤ 199) :
      AcceptedAs c i (startSponge r d .inp c.inLen .out c.outLen c.clearStatus)
  /-- `HASH` starts its first pass, with a page count that is not zero (R172, R178). -/
  | hash (hp : c.fullSize.extractLsb' 7 32 ≠ 0) :
      AcceptedAs c .hash (startHash (clearRecord c.clearStatus))

theorem checkBuffers_cases (go : CoreRegs → CoreRegs) (c : CoreRegs) :
    (∃ e, checkBuffers go c = c.raise e) ∨ checkBuffers go c = go c := by
  unfold checkBuffers
  split
  · exact .inl ⟨_, rfl⟩
  · split
    · exact .inl ⟨_, rfl⟩
    · exact .inr rfl

/-- The part the three sponge-type commands share: two buffer checks, then the pass. -/
theorem checkBuffers_accepted {go : CoreRegs → CoreRegs} {c : CoreRegs} {i : Instr} {r : BitVec 8} {d : Byte}
    (hi : i = .sponge ∨ i = .digest256 ∨ i = .digest512) (hr : 1 ≤ r.toNat ∧ r.toNat ≤ 199)
    (hgo : go c.clearStatus = startSponge r d .inp c.inLen .out c.outLen c.clearStatus) :
    AcceptedAs c i (checkBuffers go c.clearStatus) := by
  rcases checkBuffers_cases go c.clearStatus with ⟨e, he⟩ | he
  · rw [he]; exact .failed i e hi
  · rw [he, hgo]; exact .pass i r d hi hr

theorem acceptSponge_accepted (c : CoreRegs) : AcceptedAs c .sponge (acceptSponge c.clearStatus) := by
  unfold acceptSponge
  split
  · exact .failed _ _ (.inl rfl)
  · rename_i hr
    rw [CoreRegs.clearStatus_rate, word_eq_zero] at hr
    exact checkBuffers_accepted (.inl rfl) (by rw [BitVec.extractLsb'_toNat]; simp; omega) rfl

theorem acceptDigest256_accepted (c : CoreRegs) :
    AcceptedAs c .digest256 (acceptDigest256 c.clearStatus) := by
  unfold acceptDigest256
  split
  · exact .failed _ _ (.inr (.inl rfl))
  · exact checkBuffers_accepted (.inr (.inl rfl)) (by decide) rfl

theorem acceptDigest512_accepted (c : CoreRegs) :
    AcceptedAs c .digest512 (acceptDigest512 c.clearStatus) := by
  unfold acceptDigest512
  split
  · exact .failed _ _ (.inr (.inr rfl))
  · exact checkBuffers_accepted (.inr (.inr rfl)) (by decide) rfl

/-- A size that passes the first two checks of `HASH` has at least one page (R171, R178). -/
theorem pages_ne_zero {n : BitVec 64} (h1 : ¬(n = 0 ∨ n.extractLsb' 0 7 ≠ 0))
    (h2 : ¬n.extractLsb' 39 25 ≠ 0) : n.extractLsb' 7 32 ≠ 0 := by
  obtain ⟨f0, f1, f2⟩ := fullSize_tests n
  rw [f0, f1] at h1
  rw [f2] at h2
  rw [word_ne_zero, BitVec.extractLsb'_toNat, Nat.shiftRight_eq_div_pow]
  omega

theorem acceptHash_accepted (c : CoreRegs) : AcceptedAs c .hash (acceptHash c.clearStatus) := by
  simp only [acceptHash]
  split
  · exact .hashFailed _
  · rename_i h1
    split
    · exact .hashFailed _
    · rename_i h2
      split
      · exact .hashFailed _
      · exact .hash (pages_ne_zero h1 h2)

/-- All the acceptance of a command can do: nothing on a busy CORE, else one of the cases above to the
registers of the CORE, and nothing to the rest. -/
theorem exec_cases {i : Instr} {s t : State} (h : exec i s = .next t) :
    (s.core.busy = true ∧ t = s) ∨
      (s.core.busy = false ∧ ∃ d, t = { s with core := d } ∧ AcceptedAs s.core i d) := by
  have accepted {body : CoreRegs → CoreRegs} (ha : AcceptedAs s.core i (body s.core.clearStatus))
      (h : acceptance body s = .next t) :
      (s.core.busy = true ∧ t = s) ∨
        (s.core.busy = false ∧ ∃ d, t = { s with core := d } ∧ AcceptedAs s.core i d) :=
    (acceptance_cases h).imp id fun ⟨hb, ht⟩ => ⟨hb, _, ht, ha⟩
  cases i with
  | permute => exact accepted .permute h
  | sponge => exact accepted (acceptSponge_accepted _) h
  | digest256 => exact accepted (acceptDigest256_accepted _) h
  | digest512 => exact accepted (acceptDigest512_accepted _) h
  | mix => exact accepted .mix h
  | fold => exact accepted .fold h
  | hash => exact accepted (acceptHash_accepted _) h

/-! ## Invariants of the registers -/

/-- What must be shown for an invariant of the CORE's registers: it holds at reset, the sequencer keeps it,
and on an idle CORE the acceptance of a command, an illegal command word and a register write keep it. -/
structure KeptByMoves (P : CoreRegs → Prop) : Prop where
  reset : P CoreRegs.reset
  sequencer : ∀ {s t : State}, SequencerMove s t → P s.core → P t.core
  accepted : ∀ {c d : CoreRegs} {i : Instr}, c.busy = false → AcceptedAs c i d → P c → P d
  illegal : ∀ {c : CoreRegs}, c.busy = false → P c → P (c.clearStatus.raise .illegalCmd)
  written : ∀ {c : CoreRegs} (r : Reg) (v : Word), c.busy = false → P c → P (c.writeReg r v)

theorem readWhileWritten_core (a : Nat) (s : State) : (readWhileWritten a s).core = s.core := by
  unfold readWhileWritten
  split <;> rfl

theorem KeptByMoves.hostStep_keeps {P : CoreRegs → Prop} (hP : KeptByMoves P) {s t : State} (h : HostStep s t)
    (hs : P s.core) : P t.core := by
  cases h with
  | sequencer _ h => exact hP.sequencer h hs
  | waiting _ _ h => exact hP.sequencer h hs
  | reset => exact hP.reset
  | given => exact hs
  | drawn => exact hs
  | raced a => rw [readWhileWritten_core]; exact hs
  | command i _ h =>
    rcases exec_cases h with ⟨-, rfl⟩ | ⟨hb, d, rfl, hd⟩
    · exact hs
    · exact hP.accepted hb hd hs
  | illegal _ h =>
    rcases acceptance_cases h with ⟨-, rfl⟩ | ⟨hb, rfl⟩
    · exact hs
    · exact hP.illegal hb hs
  | ignored => exact hs
  | written r v hb => exact hP.written r v hb hs
  | stored k a b => rw [(hostWriteByte_frame k a b s).1]; exact hs
  | provided k size => rw [provide, State.setSpace_core]; exact hs

/-- Such an invariant is kept by every step. -/
theorem KeptByMoves.step_keeps {P : CoreRegs → Prop} (hP : KeptByMoves P) {s t : State}
    (h : step s = .next t) (hs : P s.core) : P t.core := by
  obtain ⟨rest, h⟩ := step_cases h
  exact hP.hostStep_keeps h hs

end Sys2Proof.Machine
end

section
/-! R32's invariants of the status fields are kept by every step. -/

namespace Sys2Proof.Machine

theorem ErrorKind.code_range (e : ErrorKind) : e.code ≠ 0 ∧ e.code.toNat ≤ 8 := by
  cases e <;> decide

/-- Where no error is reported, R32 asks only that `DONE` waits for the end of the command. -/
theorem CoreRegs.StatusConsistent.of_noError {c : CoreRegs} (he : c.err = false) (hc : c.errCode = 0)
    (hd : c.busy = true → c.done = false) : c.StatusConsistent where
  busyFlags hb := ⟨hd hb, he⟩
  errFlags h := by rw [he] at h; cases h
  noErrCode _ := hc
  codeRange := by rw [hc]; decide

/-- A command that ends with an error leaves the status fields as R32 says. -/
theorem CoreRegs.StatusConsistent.of_raise {c : CoreRegs} (e : ErrorKind) (hb : c.busy = false) :
    (c.raise e).StatusConsistent where
  busyFlags h := by rw [CoreRegs.busy_raise, hb] at h; cases h
  errFlags _ := ⟨rfl, e.code_range.1⟩
  noErrCode h := by cases h
  codeRange := e.code_range.2

/-- The sequencer's step keeps `ERR` and `ERRCODE` (R213), and writes `DONE` only where it leaves the CORE
idle. -/
theorem sequencerMove_status {s t : State} (h : SequencerMove s t) :
    t.core.err = s.core.err ∧ t.core.errCode = s.core.errCode ∧
      (t.core.done = s.core.done ∨ t.core.busy = false) := by
  cases h with
  | engine =>
    rw [peStep_core]
    refine ⟨rfl, rfl, ?_⟩
    by_cases h : s.core.rnd = 23 ∧ s.core.scPhase = .idle ∧ s.core.hoPhase = .idle
    · exact .inr ((CoreRegs.busy_eq_false _).2 ⟨by simp [h.1], h.2⟩)
    · exact .inl (by simp [h])
  | absorb => exact ⟨rfl, rfl, .inl rfl⟩
  | absorbEnd => exact ⟨rfl, rfl, .inl rfl⟩
  | pad => exact ⟨rfl, rfl, .inl rfl⟩
  | squeeze u _ _ _ hu | squeezeEnd u _ _ _ hu =>
    obtain ⟨_, _, _, _, _, _, rfl, -⟩ := deliverBytes_update hu
    exact ⟨rfl, rfl, .inl rfl⟩
  | clear hp =>
    unfold scClear
    split
    · rename_i hh; exact ⟨rfl, rfl, .inr ((CoreRegs.busy_eq_false _).2 ⟨hp, rfl, hh⟩)⟩
    · exact ⟨rfl, rfl, .inl rfl⟩
  | tile => simp [hoTile]
  | access => simp only [State.draw_core, accessRegs]; split <;> simp
  | fold => simp only [hoFold]; split <;> simp
  | final => simp [hoFinal]
  | finish hp hs => exact ⟨rfl, rfl, .inr ((CoreRegs.busy_eq_false _).2 ⟨hp, hs, rfl⟩)⟩
  | idle => exact ⟨rfl, rfl, .inl rfl⟩

/-- On an idle CORE the sequencer does nothing (R26). -/
theorem sequencerMove_of_idle {s t : State} (hb : s.core.busy = false) (h : SequencerMove s t) : t = s := by
  obtain ⟨hp, hs, hh⟩ := (CoreRegs.busy_eq_false _).1 hb
  cases h with
  | idle => rfl
  | _ => simp_all

theorem sequencerMove_statusConsistent {s t : State} (h : SequencerMove s t)
    (hs : s.core.StatusConsistent) : t.core.StatusConsistent := by
  cases hb : s.core.busy with
  | false => rw [sequencerMove_of_idle hb h]; exact hs
  | true =>
    obtain ⟨hd, he⟩ := hs.busyFlags hb
    obtain ⟨he', hc', hd'⟩ := sequencerMove_status h
    refine .of_noError (he'.trans he) (hc'.trans (hs.noErrCode he)) fun hb' => ?_
    rcases hd' with h | h
    · exact h.trans hd
    · rw [hb'] at h; cases h

theorem accepted_statusConsistent {c d : CoreRegs} {i : Instr} (hb : c.busy = false)
    (h : AcceptedAs c i d) : d.StatusConsistent := by
  have notBusy : ¬c.busy = true := by simp [hb]
  cases h with
  | permute => exact .of_noError rfl rfl fun _ => rfl
  | mix => exact .of_noError rfl rfl fun h => absurd h notBusy
  | fold => exact .of_noError rfl rfl fun h => absurd h notBusy
  | failed i e => exact .of_raise e hb
  | hashFailed e => exact .of_raise e hb
  | pass => exact .of_noError rfl rfl fun _ => rfl
  | hash => exact .of_noError rfl rfl fun _ => rfl

/-- A register write leaves the status fields. -/
theorem writeReg_status (c : CoreRegs) (r : Reg) (v : Word) :
    (c.writeReg r v).done = c.done ∧ (c.writeReg r v).err = c.err ∧
      (c.writeReg r v).errCode = c.errCode := by
  cases r <;> exact ⟨rfl, rfl, rfl⟩

theorem writeReg_statusConsistent {c : CoreRegs} (r : Reg) (v : Word) (h : c.StatusConsistent) :
    (c.writeReg r v).StatusConsistent := by
  obtain ⟨hd, he, hc⟩ := writeReg_status c r v
  have hb := writeReg_busy c r v
  obtain ⟨h1, h2, h3, h4⟩ := h
  constructor <;> simpa only [hd, he, hc, hb]

theorem reset_statusConsistent : CoreRegs.reset.StatusConsistent := .of_noError rfl rfl fun _ => rfl

theorem statusConsistent_kept : KeptByMoves CoreRegs.StatusConsistent where
  reset := reset_statusConsistent
  sequencer := sequencerMove_statusConsistent
  accepted hb h _ := accepted_statusConsistent hb h
  illegal hb _ := .of_raise _ hb
  written r v _ := writeReg_statusConsistent r v

/-- Settles O52, by the kinds of move: the sequencer sets `DONE` only where it leaves the CORE idle, and an
acceptance writes all three fields together. -/
theorem everyStepKeepsStatusConsistent : Obligations.EveryStepKeepsStatusConsistent :=
  fun _ _ hs h => statusConsistent_kept.step_keeps h hs

end Sys2Proof.Machine
end

section
/-! The sequencer's registers stay in their ranges and in step with each other (10_state.md R24, R25, R27,
41_sponge.md R134, 43_orchestrator.md R178). -/

namespace Sys2Proof.Machine

/-! ## The lengths of a pass -/

/-- The two lengths of a pass are 32-bit numbers. -/
theorem CoreRegs.passRouted.lengths_lt {c : CoreRegs} (h : c.passRouted) :
    c.inPos.toNat + c.rem.toNat < 2 ^ 32 ∧ c.outPos.toNat + c.orem.toNat < 2 ^ 32 := by
  have hi := c.inLen.isLt
  have ho := c.outLen.isLt
  unfold CoreRegs.passRouted at h
  split at h
  · obtain ⟨-, -, h1, h2⟩ := h; omega
  · obtain ⟨-, -, -, -, h1, h2⟩ := h; omega
  · obtain ⟨-, -, -, -, h1, h2⟩ := h; omega
  all_goals exact h.elim

/-- Moving the positions of a pass keeps its route, if the two lengths stay the same. -/
theorem CoreRegs.passRouted.of_lengths {c : CoreRegs} (h : c.passRouted) {x y z w : Word}
    (hin : x.toNat + y.toNat = c.inPos.toNat + c.rem.toNat)
    (hout : z.toNat + w.toNat = c.outPos.toNat + c.orem.toNat) :
    CoreRegs.passRouted { c with inPos := x, rem := y, outPos := z, orem := w } := by
  unfold CoreRegs.passRouted at h ⊢
  simp only [hin, hout]
  exact h

/-- A position moves on by `n`, and the count of bytes left goes down by `n` (R133, R135). -/
theorem position_advances {p q n : Word} (hn : n.toNat ≤ q.toNat) (h : p.toNat + q.toNat < 2 ^ 32) :
    (p + n).toNat + (q - n).toNat = p.toNat + q.toNat := by
  rw [BitVec.toNat_add, BitVec.toNat_sub_of_le hn]
  omega

/-- A position moves on to the end, and no byte is left (R134, R135). -/
theorem position_ends {p q : Word} (h : p.toNat + q.toNat < 2 ^ 32) :
    (p + q).toNat + (0 : Word).toNat = p.toNat + q.toNat := by
  rw [BitVec.toNat_add, Nat.mod_eq_of_lt h]
  rfl

theorem rate_toNat (r : BitVec 8) : (r.setWidth 32 : Word).toNat = r.toNat :=
  BitVec.toNat_setWidth_of_le (by decide)

/-! ## Registers with no pass in progress -/

/-- With no pass in progress what is asked for is `RND`, the owner of the PE, and `PAGES`. -/
theorem CoreRegs.SequencerSound.of_noPass {c : CoreRegs} (hs : c.scPhase = .idle)
    (hr : c.peRun = false → c.rnd = 0) (hp : c.hoPhase ≠ .idle → c.peRun = false ∧ c.pages ≠ 0) :
    c.SequencerSound := by
  constructor
  case rndIdle => exact hr
  case peOwner => exact fun _ h => (hp h).1
  case pagesPositive => exact fun h => (hp h).2
  all_goals simp [hs]

/-- On an idle CORE only `RND` is asked for. -/
theorem CoreRegs.SequencerSound.of_idle {c : CoreRegs} (hb : c.busy = false) (hr : c.rnd = 0) :
    c.SequencerSound := by
  obtain ⟨hp, hs, hh⟩ := (CoreRegs.busy_eq_false c).1 hb
  exact .of_noPass hs (fun _ => hr) fun h => absurd hh h

/-- At the start of a pass (R132) what is asked for is its rate, its route, and the orchestrator's page
count. -/
theorem startSponge_sound {r : BitVec 8} {d : Byte} {src : Source} {n : Word} {dst : Dest} {l : Word}
    {c : CoreRegs} (hr : c.rnd = 0) (hrate : 1 ≤ r.toNat ∧ r.toNat ≤ 199)
    (hroute : (startSponge r d src n dst l c).passRouted) (hpages : c.hoPhase ≠ .idle → c.pages ≠ 0) :
    (startSponge r d src n dst l c).SequencerSound := by
  constructor
  case rndIdle => exact fun _ => hr
  case rateRange => exact fun _ => hrate
  case routed => exact fun _ => hroute
  case pagesPositive => exact hpages
  all_goals simp

/-! ## The sequencer's moves -/

theorem engine_sound {s : State} (hp : s.core.peRun = true) (h : s.core.SequencerSound) :
    (peStep s).core.SequencerSound := by
  have off : ¬s.core.peRun = false := by simp [hp]
  rw [peStep_core]
  generalize keccakRound s.core.lanes s.core.rnd = lanes
  exact
    { rndIdle := fun h0 => by
        have hr : s.core.rnd = 23 := by simpa [hp] using h0
        simp [hr]
      rateRange := h.rateRange
      padTail := fun hs => absurd (h.padTail hs).1 off
      outUntouched := h.outUntouched
      inConsumed := h.inConsumed
      outDelivered := fun hs => absurd (h.outDelivered hs).1 off
      routed := h.routed
      peOwner := fun hs hh => absurd (h.peOwner hs hh) off
      pagesPositive := h.pagesPositive }

theorem absorbBlock_sound {c : CoreRegs} (block : List Byte) (hs : c.scPhase = .absorb)
    (hr : c.rRate.toNat ≤ c.rem.toNat) (h : c.SequencerSound) : (absorbBlock c block).SequencerSound := by
  have route := h.routed (by simp [hs])
  have hlen := position_advances (n := c.rRate.setWidth 32) (by rwa [rate_toNat]) route.lengths_lt.1
  constructor
  case rateRange => exact h.rateRange
  case outUntouched => exact h.outUntouched
  case routed => exact fun _ => route.of_lengths hlen rfl
  case pagesPositive => exact h.pagesPositive
  all_goals simp [absorbBlock, hs]

theorem absorbEnd_sound {c : CoreRegs} (hp : c.peRun = false) (hs : c.scPhase = .absorb)
    (hr : c.rem.toNat < c.rRate.toNat) (h : c.SequencerSound) :
    CoreRegs.SequencerSound { c with scPhase := .pad } := by
  have hne : c.scPhase ≠ .idle := by simp [hs]
  constructor
  case rndIdle => exact h.rndIdle
  case rateRange => exact fun _ => h.rateRange hne
  case padTail => exact fun _ => ⟨hp, hr⟩
  case outUntouched => exact fun _ => h.outUntouched (.inl hs)
  case routed => exact fun _ => h.routed hne
  case pagesPositive => exact h.pagesPositive
  all_goals simp

theorem padBlock_sound {c : CoreRegs} (tail : List Byte) (hs : c.scPhase = .pad) (h : c.SequencerSound) :
    (padBlock c tail).SequencerSound := by
  have hne : c.scPhase ≠ .idle := by simp [hs]
  have route := h.routed hne
  constructor
  case rateRange => exact fun _ => h.rateRange hne
  case routed => exact fun _ => route.of_lengths (position_ends route.lengths_lt.1) rfl
  case pagesPositive => exact h.pagesPositive
  all_goals simp [padBlock]

theorem squeezeBlock_sound {c : CoreRegs} (hs : c.scPhase = .squeeze) (hr : c.rRate.toNat ≤ c.orem.toNat)
    (h : c.SequencerSound) : (squeezeBlock c).SequencerSound := by
  have hne : c.scPhase ≠ .idle := by simp [hs]
  have route := h.routed hne
  have hlen := position_advances (n := c.rRate.setWidth 32) (by rwa [rate_toNat]) route.lengths_lt.2
  constructor
  case rateRange => exact h.rateRange
  case inConsumed => exact h.inConsumed
  case routed => exact fun _ => route.of_lengths rfl hlen
  case pagesPositive => exact h.pagesPositive
  all_goals simp [squeezeBlock, hs]

theorem squeezeTail_sound {c : CoreRegs} (hp : c.peRun = false) (hs : c.scPhase = .squeeze)
    (h : c.SequencerSound) : (squeezeTail c).SequencerSound := by
  have hne : c.scPhase ≠ .idle := by simp [hs]
  have route := h.routed hne
  constructor
  case rndIdle => exact h.rndIdle
  case rateRange => exact fun _ => h.rateRange hne
  case inConsumed => exact fun _ => h.inConsumed (.inl hs)
  case outDelivered => exact fun _ => ⟨hp, rfl⟩
  case routed => exact fun _ => route.of_lengths rfl (position_ends route.lengths_lt.2)
  case pagesPositive => exact h.pagesPositive
  all_goals simp [squeezeTail]

/-- A delivery changes no register of the sequencer. -/
theorem deliverBytes_sound {bs : List Byte} {s u : State} {a : Nat} (hu : deliverBytes s a bs = some u)
    (h : s.core.SequencerSound) : u.core.SequencerSound := by
  obtain ⟨_, _, _, _, _, _, rfl, -⟩ := deliverBytes_update hu
  obtain ⟨h1, h2, h3, h4, h5, h6, h7, h8, h9⟩ := h
  exact ⟨h1, h2, h3, h4, h5, h6, h7, h8, h9⟩

/-- Between two passes of a `HASH`, and after a pass, the PE is at rest and `PAGES` stays. -/
theorem CoreRegs.SequencerSound.of_betweenPasses {c d : CoreRegs} (h : c.SequencerSound)
    (hp : c.peRun = false) (hs : d.scPhase = .idle) (hp' : d.peRun = c.peRun) (hr : d.rnd = c.rnd)
    (hh : d.hoPhase ≠ .idle → c.hoPhase ≠ .idle) (hpages : d.pages = c.pages) : d.SequencerSound :=
  .of_noPass hs (fun _ => hr.trans (h.rndIdle hp)) fun hd =>
    ⟨hp'.trans hp, hpages ▸ h.pagesPositive (hh hd)⟩

theorem scClear_sound {s : State} (hp : s.core.peRun = false) (h : s.core.SequencerSound) :
    (scClear s).core.SequencerSound := by
  unfold scClear
  split <;> exact h.of_betweenPasses hp rfl rfl rfl id rfl

theorem hoTile_sound {c : CoreRegs} (hp : c.peRun = false) (hs : c.scPhase = .idle)
    (hh : c.hoPhase = .tile) (h : c.SequencerSound) : (hoTile c).SequencerSound := by
  have hne : c.hoPhase ≠ .idle := by simp [hh]
  unfold hoTile
  generalize tileMix c.seed = mix
  exact h.of_betweenPasses hp hs rfl rfl (fun _ => hne) rfl

theorem accessRegs_sound {c : CoreRegs} (b0 b1 : List Byte) (hp : c.peRun = false) (hs : c.scPhase = .idle)
    (hh : c.hoPhase = .access) (h : c.SequencerSound) : (accessRegs c b0 b1).SequencerSound := by
  have hne : c.hoPhase ≠ .idle := by simp [hh]
  unfold accessRegs
  split
  · exact h.of_betweenPasses hp hs rfl rfl (fun _ => hne) rfl
  · exact h.of_betweenPasses hp hs rfl rfl (fun _ => hne) rfl

theorem hoFold_sound {c : CoreRegs} (hp : c.peRun = false) (hs : c.scPhase = .idle)
    (hh : c.hoPhase = .fold) (h : c.SequencerSound) : (hoFold c).SequencerSound := by
  have hne : c.hoPhase ≠ .idle := by simp [hh]
  simp only [hoFold]
  split
  · exact h.of_betweenPasses hp hs rfl rfl (fun _ => hne) rfl
  · exact h.of_betweenPasses hp hs rfl rfl (fun _ => hne) rfl

theorem hoFinal_sound {c : CoreRegs} (hp : c.peRun = false) (hh : c.hoPhase = .final)
    (h : c.SequencerSound) : (hoFinal c).SequencerSound :=
  startSponge_sound (h.rndIdle hp) (by decide) ⟨rfl, rfl, rfl, rfl, rfl, rfl⟩
    fun _ => h.pagesPositive (by simp [hh])

theorem sequencerMove_sound {s t : State} (h : SequencerMove s t) (hs : s.core.SequencerSound) :
    t.core.SequencerSound := by
  cases h with
  | engine hp => exact engine_sound hp hs
  | absorb block _ hph hr => exact absorbBlock_sound block hph hr hs
  | absorbEnd hp hph hr => exact absorbEnd_sound hp hph hr hs
  | pad tail _ hph => exact padBlock_sound tail hph hs
  | squeeze u hp hph hr hu =>
    have hu' := deliverBytes_sound hu hs
    obtain ⟨_, _, _, _, _, _, rfl, -⟩ := deliverBytes_update hu
    exact squeezeBlock_sound hph hr hu'
  | squeezeEnd u hp hph _ hu =>
    have hu' := deliverBytes_sound hu hs
    obtain ⟨_, _, _, _, _, _, rfl, -⟩ := deliverBytes_update hu
    exact squeezeTail_sound hp hph hu'
  | clear hp => exact scClear_sound hp hs
  | tile hp hph hh => exact hoTile_sound hp hph hh hs
  | access b0 b1 hp hph hh => exact accessRegs_sound b0 b1 hp hph hh hs
  | fold hp hph hh => exact hoFold_sound hp hph hh hs
  | final hp _ hh => exact hoFinal_sound hp hh hs
  | finish hp hph hh => exact hs.of_betweenPasses hp hph rfl rfl (fun _ => by simp [hh]) rfl
  | idle => exact hs

/-! ## The host's moves -/

theorem accepted_sound {c d : CoreRegs} {i : Instr} (hb : c.busy = false) (h : AcceptedAs c i d)
    (hs : c.SequencerSound) : d.SequencerSound := by
  obtain ⟨hp, hph, hh⟩ := (CoreRegs.busy_eq_false c).1 hb
  have hr := hs.rndIdle hp
  cases h with
  | permute => exact .of_noPass hph (fun _ => rfl) fun h => absurd hh h
  | mix => exact .of_idle hb hr
  | fold => exact .of_idle hb hr
  | failed i e => exact .of_idle hb hr
  | hashFailed e => exact .of_idle hb hr
  | pass i r d _ hrate =>
    exact startSponge_sound hr hrate (by simp [CoreRegs.passRouted, hh]) fun h => absurd hh h
  | hash hpages => exact startSponge_sound hr (by decide) ⟨rfl, rfl, rfl, rfl, rfl, rfl⟩ fun _ => hpages

theorem writeReg_rnd (c : CoreRegs) (r : Reg) (v : Word) : (c.writeReg r v).rnd = c.rnd := by
  cases r <;> rfl

theorem reset_sound : CoreRegs.reset.SequencerSound := .of_idle rfl rfl

theorem sequencerSound_kept : KeptByMoves CoreRegs.SequencerSound where
  reset := reset_sound
  sequencer := sequencerMove_sound
  accepted := accepted_sound
  illegal hb hs := .of_idle hb (hs.rndIdle ((CoreRegs.busy_eq_false _).1 hb).1)
  written r v hb hs :=
    .of_idle ((writeReg_busy _ r v).trans hb)
      ((writeReg_rnd _ r v).trans (hs.rndIdle ((CoreRegs.busy_eq_false _).1 hb).1))

/-- Settles O53, by the kinds of move: within a pass the positions move with the counts, a pass starts with
the route of its owner, and with no pass in progress little is asked for. -/
theorem everyStepKeepsSequencerSound : Obligations.EveryStepKeepsSequencerSound :=
  fun _ _ hs h => sequencerSound_kept.step_keeps h hs

end Sys2Proof.Machine
end

section
/-! The host's register interface: the register map, `STATUS`, and what a read or a write of a register
does on a busy and on an idle CORE (10_state.md R30 to R37). -/

namespace Sys2Proof.Machine

/-! ## The map -/

/-- An access that reaches a register is well formed, and its offset names the register. -/
theorem ofAccess_eq_some {a : RegAccess} {r : Reg} (h : Reg.ofAccess a = some r) :
    a.wellFormed = true ∧ Reg.ofIndex (a.offset / 4) = r := by
  unfold Reg.ofAccess at h
  split at h
  · rename_i hw
    exact ⟨by simp [RegAccess.wellFormed, RegAccess.wide, RegAccess.aligned, RegAccess.inRange, hw],
      Option.some.inj h⟩
  · cases h

/-- A named register is reached by one access only. -/
theorem access_of_ofAccess {a : RegAccess} {r : Reg} (h : Reg.ofAccess a = some r) (hr : r ≠ .reserved) :
    a = r.access := by
  obtain ⟨hw, rfl⟩ := ofAccess_eq_some h
  obtain ⟨-, hwidth, hmod, hle⟩ := ofAccess_of_wellFormed hw
  have hoff := ofIndex_offset (q := a.offset / 4) (by omega) hr
  obtain ⟨width, offset⟩ := a
  rw [Reg.access, hoff]
  congr 1
  dsimp only at hmod ⊢
  omega

/-- Settles O25: the map on its 128 words, from `ofIndex_offset` and `ofIndex_reserved`. -/
theorem registerMapIsOneToOne : Obligations.RegisterMapIsOneToOne := by
  refine ⟨ofAccess_access, fun a r => access_of_ofAccess, fun a => ⟨fun h => ?_, fun ⟨hw, hrange⟩ => ?_⟩⟩
  · obtain ⟨hw, hr⟩ := ofAccess_eq_some h
    obtain ⟨-, -, hmod, hle⟩ := ofAccess_of_wellFormed hw
    rw [ofIndex_reserved (by omega)] at hr
    exact ⟨hw, by omega⟩
  · obtain ⟨h, -, hmod, hle⟩ := ofAccess_of_wellFormed hw
    rw [h, (ofIndex_reserved (by omega)).2 (by omega)]

/-! ## `STATUS` -/

/-- Bit 0 of `STATUS` is `BUSY` (R32). -/
theorem CoreRegs.status_busyBit (c : CoreRegs) : c.status.getLsbD 0 = c.busy := by
  apply getLsbD_of_toNat
  rw [CoreRegs.status_toNat]
  have := c.busy.toNat_lt
  omega

theorem extractLsb'_of_toNat (x : Word) (i n : Nat) (v : BitVec n) (h : x.toNat / 2 ^ i % 2 ^ n = v.toNat) :
    x.extractLsb' i n = v := by
  apply BitVec.eq_of_toNat_eq
  rw [BitVec.extractLsb'_toNat, Nat.shiftRight_eq_div_pow, h]

/-- Settles O28: the fields are read off `STATUS` as a number. -/
theorem statusWordFields : Obligations.StatusWordFields := by
  intro c
  have hn := c.status_toNat
  have hb := c.busy.toNat_lt
  have hd := c.done.toNat_lt
  have he := c.err.toNat_lt
  have hc := c.errCode.isLt
  refine ⟨c.status_busyBit, getLsbD_of_toNat _ _ _ (by omega), getLsbD_of_toNat _ _ _ (by omega),
    extractLsb'_of_toNat _ _ _ _ ?_, extractLsb'_of_toNat _ _ _ _ (by omega),
    extractLsb'_of_toNat _ _ _ _ ?_⟩
  · show c.status.toNat / 2 ^ 3 % 2 ^ 5 = 0; omega
  · show c.status.toNat / 2 ^ 16 % 2 ^ 16 = 0; omega

/-! ## Accesses -/

/-- While BUSY a register write changes nothing, `CMD` included (R30). -/
theorem regWrite_of_busy {s : State} (r : Reg) (v : Word) (hb : s.core.busy = true) :
    regWrite r v s = .next s := by
  by_cases hr : r = .cmd
  · simp only [regWrite, if_pos hr, writeCmd]
    split
    · exact exec_of_busy _ hb
    · exact acceptance_of_busy _ _ hb
  · simp only [regWrite, if_neg hr, if_pos hb]

theorem regRead_of_busy {s : State} {r : Reg} (hb : s.core.busy = true) (hr : r ≠ .status) :
    regRead r s = (s.deliver (Config.busyRead s.draws)).draw := by
  simp [regRead, hb, hr]

theorem regRead_status (s : State) : regRead .status s = s.deliver s.core.status := by
  simp [regRead, CoreRegs.readReg]

theorem regRead_of_idle {s : State} (r : Reg) (hb : s.core.busy = false) :
    regRead r s = s.deliver (s.core.readReg r) := by
  simp [regRead, hb]

theorem regWrite_of_idle {s : State} {r : Reg} (v : Word) (hb : s.core.busy = false) (hr : r ≠ .cmd) :
    regWrite r v s = .next { s with core := s.core.writeReg r v } := by
  simp [regWrite, hb, hr]

/-- A scheduled read of a register, at any access that reaches it. -/
theorem step_regRead {a : RegAccess} {r : Reg} (h : Reg.ofAccess a = some r) (s : State)
    (rest : List HostMove) :
    step { s with host := .regRead a :: rest } = .next (regRead r { s with host := rest }) := by
  simp only [step, hostMove, h]

/-- A scheduled write of a register, at any access that reaches it. -/
theorem step_regWrite {a : RegAccess} {r : Reg} (h : Reg.ofAccess a = some r) (v : Word) (s : State)
    (rest : List HostMove) :
    step { s with host := .regWrite a v :: rest } = regWrite r v { s with host := rest } := by
  simp only [step, hostMove, h]

/-- Settles O22, from the three rules above for an access while BUSY. -/
theorem busyRegisterAccesses : Obligations.BusyRegisterAccesses := by
  intro s a v rest hb hw
  obtain ⟨h, -, hmod, hle⟩ := ofAccess_of_wellFormed hw
  refine ⟨?_, fun ho => ?_, fun ho => ?_⟩
  · rw [step_regWrite h]
    exact regWrite_of_busy _ _ hb
  · rw [ho] at h
    refine ⟨?_, s.core.status_busyBit.trans hb⟩
    rw [step_regRead h]
    exact congrArg _ (regRead_status _)
  · have hr : Reg.ofIndex (a.offset / 4) ≠ .status := fun hr =>
      ho (congrArg RegAccess.offset (access_of_ofAccess (h.trans (congrArg some hr)) (by decide)))
    rw [step_regRead h]
    exact congrArg _ (regRead_of_busy hb hr)

/-- A lane is its high half and its low half (R36). -/
theorem lane_toNat_halves (x : Lane) :
    x.toNat = (x.extractLsb' 32 32).toNat * 2 ^ 32 + (x.extractLsb' 0 32).toNat := by
  have := x.isLt
  rw [BitVec.extractLsb'_toNat, BitVec.extractLsb'_toNat, Nat.shiftRight_eq_div_pow, Nat.shiftRight_zero]
  omega

/-- Settles O23: the contents are `readReg` unfolded, but for the two narrow registers and the lanes. -/
theorem idleRegisterReadHasNoSideEffect : Obligations.IdleRegisterReadHasNoSideEffect := by
  refine ⟨fun s a r rest hb h => ?_, fun c => ⟨rfl, rfl, rfl, ?_, ?_, rfl, rfl, rfl, rfl, rfl, rfl, rfl, rfl,
    rfl, rfl, rfl, rfl, fun k => ⟨rfl, rfl, rfl⟩, fun i => lane_toNat_halves _⟩⟩
  · rw [step_regRead h]
    exact congrArg _ (regRead_of_idle _ hb)
  · exact BitVec.toNat_setWidth_of_le (by decide)
  · exact BitVec.toNat_setWidth_of_le (by decide)

/-! ## What a register reads after a write -/

/-- The low `n` bits of a word, as a word: the other bits read 0 (R35). -/
theorem lowBits_eq_and (v : Word) (n : Nat) (hn : n < 32) :
    (v.setWidth n).setWidth 32 = v &&& BitVec.ofNat 32 (2 ^ n - 1) := by
  have hlt : 2 ^ n < 2 ^ 32 := Nat.pow_lt_pow_right (by decide) hn
  apply BitVec.eq_of_toNat_eq
  rw [BitVec.toNat_setWidth_of_le (by omega), BitVec.toNat_setWidth, BitVec.toNat_and, BitVec.toNat_ofNat,
    Nat.mod_eq_of_lt (a := 2 ^ n - 1) (by omega), Nat.and_two_pow_sub_one_eq_mod]

/-- A read/write register reads the written value in its implemented bits, a read-only one as before. -/
theorem readReg_writeReg_self (c : CoreRegs) (r : Reg) (v : Word) :
    (c.writeReg r v).readReg r = if r.writableBits = 0 then c.readReg r else v &&& r.writableBits := by
  have whole {x : Word} (h : x = v) : x = if (0xFFFFFFFF : Word) = 0 then c.readReg r else v &&& 0xFFFFFFFF :=
    h.trans BitVec.and_allOnes.symm
  cases r with
  | cmd | status | result | mixHash | reserved => rfl
  | bufCfg => exact lowBits_eq_and v 2 (by decide)
  | domain => exact lowBits_eq_and v 8 (by decide)
  | hdr k => exact whole (by simp [CoreRegs.readReg, CoreRegs.writeReg])
  | sLo i => exact whole (by simp [CoreRegs.readReg, CoreRegs.writeReg, lane_halves])
  | sHi i => exact whole (by simp [CoreRegs.readReg, CoreRegs.writeReg, lane_halves])
  | _ => exact whole rfl

/-- Settles O26, by `readReg_writeReg_self`. -/
theorem registerReadsBackWhatWasWritten : Obligations.RegisterReadsBackWhatWasWritten := by
  intro s a r v rest hb h hr
  refine ⟨_, (step_regWrite h v s rest).trans (regWrite_of_idle v hb hr), readReg_writeReg_self _ _ _⟩

/-- A lane that changes is read at its own two offsets only (R36). -/
theorem readReg_setLane_other (c : CoreRegs) (i : Fin 25) (x : Lane) {q : Reg} (hlo : q ≠ .sLo i)
    (hhi : q ≠ .sHi i) : CoreRegs.readReg { c with lanes := c.lanes.set i x } q = c.readReg q := by
  cases q with
  | sLo j =>
    have hne : i.val ≠ j.val := fun e => hlo (congrArg Reg.sLo (Fin.ext e.symm))
    simp [CoreRegs.readReg, Vector.getElem_set_ne _ _ hne]
  | sHi j =>
    have hne : i.val ≠ j.val := fun e => hhi (congrArg Reg.sHi (Fin.ext e.symm))
    simp [CoreRegs.readReg, Vector.getElem_set_ne _ _ hne]
  | _ => rfl

/-- Any other register reads as before; of a lane the other half does (R36). -/
theorem readReg_writeReg_other (c : CoreRegs) {r q : Reg} (v : Word) (hq : q ≠ r) :
    (c.writeReg r v).readReg q = c.readReg q := by
  cases r with
  | cmd | status | result | mixHash | reserved => rfl
  | hdr k =>
    cases q with
    | hdr j =>
      have hne : k.val ≠ j.val := fun e => hq (congrArg Reg.hdr (Fin.ext e.symm))
      simp [CoreRegs.readReg, CoreRegs.writeReg, Vector.getElem_set_ne _ _ hne]
    | _ => rfl
  | sLo i =>
    by_cases h : q = .sHi i
    · subst h; simp [CoreRegs.readReg, CoreRegs.writeReg, lane_halves]
    · exact readReg_setLane_other c i _ hq h
  | sHi i =>
    by_cases h : q = .sLo i
    · subst h; simp [CoreRegs.readReg, CoreRegs.writeReg, lane_halves]
    · exact readReg_setLane_other c i _ h hq
  | _ => cases q <;> simp [CoreRegs.readReg, CoreRegs.writeReg, CoreRegs.status, CoreRegs.busy] at hq ⊢

/-- The registers the host cannot reach stay as they are (R30). -/
theorem writeReg_hidden (c : CoreRegs) (r : Reg) (v : Word) :
    (c.writeReg r v).seed = c.seed ∧ (c.writeReg r v).mix = c.mix ∧ (c.writeReg r v).rnd = c.rnd ∧
      (c.writeReg r v).i = c.i ∧ (c.writeReg r v).k = c.k ∧ (c.writeReg r v).rRate = c.rRate ∧
      (c.writeReg r v).rDom = c.rDom ∧ (c.writeReg r v).src = c.src ∧
      (c.writeReg r v).inPos = c.inPos ∧ (c.writeReg r v).rem = c.rem ∧
      (c.writeReg r v).dst = c.dst ∧ (c.writeReg r v).outPos = c.outPos ∧
      (c.writeReg r v).orem = c.orem ∧ (c.writeReg r v).pages = c.pages := by
  cases r <;> exact ⟨rfl, rfl, rfl, rfl, rfl, rfl, rfl, rfl, rfl, rfl, rfl, rfl, rfl, rfl⟩

/-- Settles O27, by `readReg_writeReg_other` and `writeReg_hidden`. -/
theorem registerWriteLeavesTheOthers : Obligations.RegisterWriteLeavesTheOthers := by
  intro s a r q v rest hb h hr hq
  exact ⟨{ s with host := rest, core := s.core.writeReg r v },
    (step_regWrite h v s rest).trans (regWrite_of_idle v hb hr), rfl, readReg_writeReg_other _ _ hq,
    (writeReg_busy _ _ _).trans hb, fun k a => by cases k <;> rfl, writeReg_hidden _ _ _⟩

end Sys2Proof.Machine
end

section
/-! What a command's acceptance and a step of the sequencer leave as they were (10_state.md R22 to R30,
30_encoding.md R93). -/

namespace Sys2Proof.Machine

/-! ## Acceptance -/

/-- Settles O21, by the cases of an acceptance. -/
theorem acceptanceFrame : Obligations.AcceptanceFrame := by
  intro i s t h
  rcases exec_cases h with ⟨-, rfl⟩ | ⟨-, d, rfl, hd⟩
  · exact ⟨fun _ _ => rfl, rfl, rfl, rfl, rfl, rfl, rfl, rfl, rfl, rfl, fun _ => rfl, fun _ => rfl, fun _ => rfl,
      fun _ => rfl⟩
  · refine ⟨fun k a => State.peek_withCore s d k a, rfl, rfl, rfl, rfl, rfl, rfl, rfl, rfl, rfl, ?_⟩
    cases hd with
    | permute => exact ⟨fun _ => rfl, by simp, by simp, by simp⟩
    | mix => exact ⟨by simp, fun _ => rfl, by simp, by simp⟩
    | fold => exact ⟨by simp, fun _ => rfl, by simp, by simp⟩
    | failed _ e hi => rcases hi with rfl | rfl | rfl <;> exact ⟨by simp, by simp, fun _ => rfl, by simp⟩
    | hashFailed e => exact ⟨by simp, by simp, by simp, fun _ => rfl⟩
    | pass _ r d hi => rcases hi with rfl | rfl | rfl <;> exact ⟨by simp, by simp, fun _ => rfl, by simp⟩
    | hash => exact ⟨by simp, by simp, by simp, fun _ => rfl⟩

/-! ## The sequencer's step -/

theorem CoreRegs.SameOperands.refl (c : CoreRegs) : c.SameOperands c :=
  ⟨rfl, ⟨rfl, rfl⟩, ⟨rfl, rfl⟩, ⟨rfl, rfl⟩, rfl, rfl, rfl, rfl, rfl, rfl, rfl⟩

/-- The CORE writes no operand register (R29). -/
theorem sequencerMove_operands {s t : State} (h : SequencerMove s t) : s.core.SameOperands t.core := by
  have same := CoreRegs.SameOperands.refl s.core
  cases h with
  | engine => rw [peStep_core]; constructor <;> simp
  | absorb => constructor <;> simp [absorbBlock]
  | pad => constructor <;> simp [padBlock]
  | squeeze u _ _ _ hu | squeezeEnd u _ _ _ hu =>
    obtain ⟨_, _, _, _, _, _, rfl, -⟩ := deliverBytes_update hu
    exact { same with }
  | clear => unfold scClear; split <;> exact { same with }
  | tile => constructor <;> simp [hoTile]
  | access => simp only [State.draw_core, accessRegs]; split <;> constructor <;> simp
  | fold => simp only [hoFold]; split <;> constructor <;> simp
  | final => constructor <;> simp [hoFinal]
  | absorbEnd | finish | idle => exact { same with }

theorem scClear_peek (s : State) (k : MemSpace) (a : Nat) : (scClear s).peek k a = s.peek k a := by
  unfold scClear
  split
  · rw [State.peek_finish]; cases k <;> rfl
  · exact State.peek_withCore s _ k a

/-- The CORE writes no byte of `IN` or `DSET`, and a byte of `OUT` only in a squeeze step that sends its
bytes there (R65). -/
theorem sequencerMove_peek {s t : State} (h : SequencerMove s t) (k : MemSpace) (a : Nat)
    (hk : k = .out → s.core.peRun = true ∨ s.core.scPhase ≠ .squeeze ∨ s.core.dst ≠ .out) :
    t.peek k a = s.peek k a := by
  have delivered {n : Nat} {u : State} (hp : s.core.peRun = false) (hs : s.core.scPhase = .squeeze)
      (hu : deliverBytes s s.core.outPos.toNat (laneBytes s.core.lanes n) = some u) :
      u.peek k a = s.peek k a := by
    cases k with
    | out =>
      have hd : s.core.dst ≠ .out := by simpa [hp, hs] using hk rfl
      exact (deliverBytes_other hu fun h => absurd h hd).1
    | inp | dset =>
      obtain ⟨_, _, _, _, _, _, rfl, -⟩ := deliverBytes_update hu
      rfl
  cases h with
  | engine => exact peStep_peek s k a
  | squeeze u hp hs _ hu | squeezeEnd u hp hs _ hu =>
    rw [State.peek_draw, State.peek_withCore]
    exact delivered hp hs hu
  | clear => exact scClear_peek s k a
  | finish => exact (State.peek_finish _ k a).trans (State.peek_withCore s _ k a)
  | _ => simp

/-- A read that is owed no choice stays as it is (R248). -/
theorem sequencerMove_readNo {s t : State} (h : SequencerMove s t) (n : Nat) :
    t.readNo n = s.readNo n ∨ ∃ a, (n, a) ∈ s.owed := by
  cases h with
  | engine => exact .inl (by rw [State.readNo, peStep_reads]; rfl)
  | squeeze u _ _ _ hu | squeezeEnd u _ _ _ hu =>
    rcases (deliverBytes_reads hu).2.1 n with h | ⟨j, -, h, -⟩
    · exact .inl h
    · exact .inr ⟨_, h⟩
  | clear => unfold scClear; split <;> exact .inl rfl
  | _ => simp [State.readNo, hoEnd]

/-- Settles O54, from what each step of the sequencer leaves: operands, bytes, the host's side, the reads. -/
theorem sequencerLeavesOperandsAndInputs : Obligations.SequencerLeavesOperandsAndInputs := by
  intro s t h
  have hm := sequencerStep_cases h
  obtain ⟨hhost, hlen, -⟩ := sequencerMove_host hm
  exact ⟨sequencerMove_operands hm, fun a => sequencerMove_peek hm .inp a (by simp),
    fun a => sequencerMove_peek hm .dset a (by simp), fun ho a => sequencerMove_peek hm .out a fun _ => ho,
    hhost, hlen, sequencerMove_readNo hm⟩

/-- `SEED` and `RESULT` change only in a squeeze step that sends its bytes there (R203), `MIX` and `ACC` only
while the HO runs, `MIXHASH` only in the final step (R180). -/
theorem sequencerMove_buffers {s t : State} (h : SequencerMove s t) :
    (s.core.scPhase ≠ .squeeze ∨ s.core.dst ≠ .seed → t.core.seed = s.core.seed) ∧
      (s.core.scPhase ≠ .squeeze ∨ s.core.dst ≠ .result → t.core.result = s.core.result) ∧
      (s.core.hoPhase = .idle → t.core.mix = s.core.mix ∧ t.core.acc = s.core.acc) ∧
      (s.core.hoPhase ≠ .final → t.core.mixHash = s.core.mixHash) := by
  cases h with
  | engine => rw [peStep_core]; simp
  | absorb => simp [absorbBlock]
  | absorbEnd => simp
  | pad => simp [padBlock]
  | squeeze u _ hs _ hu | squeezeEnd u _ hs _ hu =>
    obtain ⟨_, _, _, _, _, _, rfl, -, hseed, hresult⟩ := deliverBytes_update hu
    exact ⟨fun h => hseed (h.resolve_left (absurd hs)), fun h => hresult (h.resolve_left (absurd hs)),
      fun _ => ⟨rfl, rfl⟩, fun _ => rfl⟩
  | clear => unfold scClear; split <;> simp [clearRegs]
  | tile _ _ hh => simp [hoTile, hh]
  | access _ _ _ _ hh => simp only [State.draw_core, accessRegs]; split <;> simp [hh]
  | fold _ _ hh => simp only [hoFold]; split <;> simp [hh]
  | final _ _ hh => simp [hoFinal, hh]
  | finish => simp [hoEnd]
  | idle => simp

/-- A host command's pass sends its bytes to `OUT`, and only the second pass of a `HASH` sends them to
`RESULT` (R139, R180). -/
theorem CoreRegs.passRouted.dst_of_phase {c : CoreRegs} (h : c.passRouted) :
    (c.hoPhase = .idle → c.dst = .out) ∧ (c.dst = .result → c.hoPhase = .finish) := by
  unfold CoreRegs.passRouted at h
  split at h
  · rename_i hh; simp [hh, h]
  · rename_i hh; simp [hh, h]
  · rename_i hh; simp [hh]
  all_goals exact h.elim

/-- Settles O55: in a sound state a squeeze step sends its bytes where its pass's owner says. -/
theorem onlyHashWritesRecordAndBuffers : Obligations.OnlyHashWritesRecordAndBuffers := by
  intro s t hs h
  obtain ⟨hseed, hresult, hmix, hmixHash⟩ := sequencerMove_buffers (sequencerStep_cases h)
  have route (hq : s.core.scPhase = .squeeze) := (hs.routed (by simp [hq])).dst_of_phase
  have result (hh : s.core.hoPhase ≠ .finish) : t.core.result = s.core.result := hresult <| by
    by_cases hq : s.core.scPhase = .squeeze
    · exact .inr fun hd => hh ((route hq).2 hd)
    · exact .inl hq
  refine ⟨fun hh => ⟨hseed ?_, (hmix hh).1, (hmix hh).2, result (by simp [hh]), hmixHash (by simp [hh])⟩,
    result, hmixHash⟩
  by_cases hq : s.core.scPhase = .squeeze
  · exact .inr (by simp [(route hq).1 hh])
  · exact .inl hq

end Sys2Proof.Machine
end

section
/-! Reset (10_state.md R41, 70_reset_and_hazards.md R240), and the steps in which the host makes no access
(R26, R98). -/

namespace Sys2Proof.Machine

theorem resetMove_peek (s : State) (k : MemSpace) (a : Nat) : (resetMove s).peek k a = s.peek k a := by
  cases k <;> rfl

/-- Settles O1: the reset move is `resetMove`. -/
theorem resetStateIsZeroAndIdle : Obligations.ResetStateIsZeroAndIdle :=
  ⟨rfl, by decide, rfl, fun s rest =>
    ⟨resetMove { s with host := rest }, rfl, rfl,
      fun k a => (resetMove_peek _ k a).trans (State.peek_withHost s rest k a), rfl, rfl⟩⟩

theorem reset_memoryCanonical : State.reset.memoryCanonical := fun k => by cases k <;> exact ⟨rfl, rfl⟩

theorem reset_quiet : State.reset.quiet := fun k => by cases k <;> rfl

/-- Settles O2: nothing is listed, pending or running at reset. -/
theorem resetMeetsTheInvariants : Obligations.ResetMeetsTheInvariants :=
  ⟨reset_memoryCanonical, rfl, fun _ => ⟨reset_quiet, rfl, rfl⟩, reset_statusConsistent, reset_sound⟩

/-- On an idle CORE no step is enabled (R26). -/
theorem sequencerStep_of_idle {s : State} (hb : s.core.busy = false) : sequencerStep s = .next s := by
  obtain ⟨hp, hs, hh⟩ := (CoreRegs.busy_eq_false _).1 hb
  simp [sequencerStep, controllerStep, hp, hs, hh]

/-- While BUSY a `WAIT` gives the sequencer its step and stays scheduled (R98). -/
theorem step_wait_of_busy {s : State} {rest : List HostMove} (hh : s.host = .wait :: rest)
    (hb : s.core.busy = true) : step s = sequencerStep s := by
  simp only [step, hh, hostMove, waitMove, if_pos hb]
  rw [← hh]

/-- Settles O5, by the next move of the schedule. -/
theorem unattendedStepIsSequencerStep : Obligations.UnattendedStepIsSequencerStep := by
  refine ⟨fun s hh => ?_, fun s rest hh => ?_, fun s rest hh => ⟨step_wait_of_busy hh, fun hb => ⟨?_, ?_⟩⟩,
    fun s hb => sequencerStep_of_idle hb⟩
  · simp only [step, hh]
  · simp only [step, hh, hostMove]
  · simp [step, hh, hostMove, waitMove, hb, State.deliver]
  · rw [CoreRegs.status_busyBit, hb]

end Sys2Proof.Machine
end

section
/-! What a step of the sequencer and an access of the host can do to the memories and to the bookkeeping of
R248, said once, and the canonical form of both (20_memory.md R61, 70_reset_and_hazards.md R248). -/

namespace Sys2Proof.Machine

/-! ## The sequencer's step, as far as memory goes -/

/-- What a step of the sequencer does outside the CORE's registers: nothing but using a draw up, or the end of
the command, or the delivery of the squeezed bytes. -/
inductive SequencerEffect (s : State) : State → Prop where
  /-- The memories and the bookkeeping of R248 are not touched. -/
  | registers (c : CoreRegs) (draws : Nat) (hns : s.core.peRun = false → s.core.scPhase ≠ .squeeze) :
      SequencerEffect s { s with core := c, draws := draws }
  /-- The command ends (R117, R136, R181). -/
  | ends (c : CoreRegs) (doubt : List (Nat × Nat)) (hb : c.busy = false)
      (hns : s.core.peRun = false → s.core.scPhase ≠ .squeeze) :
      SequencerEffect s (State.finish { s with core := c, doubt := doubt })
  /-- R135. -/
  | squeeze (u : State) (c : CoreRegs) (hp : s.core.peRun = false) (hs : s.core.scPhase = .squeeze)
      (hu : deliverBytes s s.core.outPos.toNat
        (laneBytes s.core.lanes (min s.core.rRate.toNat s.core.orem.toNat)) = some u) :
      SequencerEffect s (State.draw { u with core := c })

theorem sequencerMove_effect {s t : State} (h : SequencerMove s t) : SequencerEffect s t := by
  cases h with
  | engine hp =>
    unfold peStep
    split
    · rename_i h
      exact .ends _ s.doubt ((CoreRegs.busy_eq_false _).2 (by simpa [peRegs, h.1] using h.2)) (by simp [hp])
    · exact .registers _ s.draws (by simp [hp])
  | squeeze u hp hs hr hu => exact .squeeze u _ hp hs (by rwa [Nat.min_eq_left hr])
  | squeezeEnd u hp hs hr hu => exact .squeeze u _ hp hs (by rwa [Nat.min_eq_right (Nat.le_of_lt hr)])
  | clear hp hs =>
    unfold scClear
    split
    · rename_i hh; exact .ends _ _ ((CoreRegs.busy_eq_false _).2 ⟨hp, rfl, hh⟩) (by simp [hs])
    · exact .registers _ s.draws (by simp [hs])
  | finish hp hs => exact .ends _ s.doubt ((CoreRegs.busy_eq_false _).2 ⟨hp, hs, rfl⟩) (by simp [hs])
  | idle hb => exact .registers s.core s.draws (by simp [((CoreRegs.busy_eq_false _).1 hb).2.1])
  | absorb _ _ hs | pad _ _ hs | access _ _ _ hs => exact .registers _ (s.draws + 1) (by simp [hs])
  | absorbEnd _ hs | tile _ hs | fold _ hs | final _ hs => exact .registers _ s.draws (by simp [hs])

/-! ## The canonical form -/

/-- A space in its one canonical form: its cells, and the list of its raced bytes. -/
def Space.Canonical (k : MemSpace) (m : Space) : Prop :=
  Memory.wf k.bytes m.cells = true ∧ Memory.rising 0 k.bytes m.raced = true

theorem Space.Canonical.settle {k : MemSpace} {m : Space} (h : m.Canonical k) : m.settle.Canonical k :=
  ⟨h.1, rfl⟩

section
variable {k : MemSpace} {m : Space} {a : Nat} (b : Byte) (h : m.Canonical k) (ha : a < k.bytes)
include h ha

theorem Space.Canonical.write : (m.write a b).Canonical k := ⟨Memory.wf_poke b h.1 ha, h.2⟩

theorem Space.Canonical.writeRaced : (m.writeRaced a b).Canonical k :=
  ⟨Memory.wf_poke b h.1 ha, Memory.rising_note _ h.2 ha⟩

theorem Space.Canonical.writeAhead : (m.writeAhead a b).Canonical k :=
  ⟨Memory.wf_poke b h.1 ha, Memory.rising_put _ h.2 (Nat.zero_le _) ha⟩

end

/-- What is canonical in `s` is in `t`: the memories, and the list of the other values of R248. -/
structure State.KeepsCanonical (s t : State) : Prop where
  memory : s.memoryCanonical → t.memoryCanonical
  shadow : s.shadowCanonical → t.shadowCanonical

theorem State.KeepsCanonical.trans {s t u : State} (h : s.KeepsCanonical t) (h' : t.KeepsCanonical u) :
    s.KeepsCanonical u :=
  ⟨fun hs => h'.memory (h.memory hs), fun hs => h'.shadow (h.shadow hs)⟩

/-- It does so if it keeps each space canonical, and the list. -/
theorem State.KeepsCanonical.of_spaces {s t : State}
    (hm : ∀ k, (s.space k).Canonical k → (t.space k).Canonical k)
    (hs : s.shadowCanonical → t.shadowCanonical) : s.KeepsCanonical t :=
  ⟨fun h k => hm k (h k), hs⟩

theorem State.KeepsCanonical.of_eq {s t : State} (hm : ∀ k, t.space k = s.space k) (hs : t.shadow = s.shadow) :
    s.KeepsCanonical t :=
  .of_spaces (fun k h => by rwa [hm k]) fun h => by rwa [State.shadowCanonical, hs]

/-- Dropping the bookkeeping of R248 leaves what is canonical. -/
theorem State.KeepsCanonical.of_settle {s t : State} (hm : ∀ k, t.space k = (s.space k).settle)
    (hs : t.shadow = []) : s.KeepsCanonical t :=
  .of_spaces (fun k h => by rw [hm k]; exact h.settle) fun _ => by rw [State.shadowCanonical, hs]; rfl

theorem State.keepsCanonical_withHost (s : State) (moves : List HostMove) :
    s.KeepsCanonical { s with host := moves } :=
  .of_eq (fun k => by cases k <;> rfl) rfl

theorem State.shadowCanonical.put {s : State} (h : s.shadowCanonical) {a : Nat} (b : Byte)
    (ha : a < MemSpace.out.bytes) : Memory.rising 0 MemSpace.out.bytes (Memory.put s.shadow a b) = true :=
  Memory.rising_put b h (Nat.zero_le _) ha

/-- A delivery puts every other value at an address that is there. -/
theorem deliverBytes_shadowCanonical {bs : List Byte} {s t : State} {a : Nat}
    (h : deliverBytes s a bs = some t) (hs : s.shadowCanonical) : t.shadowCanonical := by
  induction bs generalizing s a with
  | nil => cases h; exact hs
  | cons b bs ih =>
    simp only [deliverBytes] at h
    split at h
    · cases h
    · rename_i u hu
      refine ih h ?_
      unfold deliverByte at hu
      split at hu
      · obtain ⟨hp, e, -⟩ := writeOut_some hu
        rw [e]
        exact hs.put _ (provides_lt hp)
      · cases hu; exact hs
      · cases hu; exact hs

theorem deliverBytes_keepsCanonical {bs : List Byte} {s t : State} {a : Nat}
    (h : deliverBytes s a bs = some t) : s.KeepsCanonical t := by
  refine .of_spaces (fun k hk => ?_) (deliverBytes_shadowCanonical h)
  have e := (deliverBytes_some h).1
  cases k with
  | inp | dset => rw [e]; exact hk
  | out =>
    refine ⟨deliverBytes_wf h hk.1, ?_⟩
    rw [e]
    exact hk.2

theorem sequencerMove_keepsCanonical {s t : State} (h : SequencerMove s t) : s.KeepsCanonical t := by
  cases sequencerMove_effect h with
  | registers => exact .of_eq (fun k => by cases k <;> rfl) rfl
  | ends => exact .of_settle (fun k => by cases k <;> rfl) rfl
  | squeeze u c _ _ hu => exact (deliverBytes_keepsCanonical hu).trans (.of_eq (fun k => by cases k <;> rfl) rfl)

/-- A write of one byte by the host, where there is memory. -/
theorem hostWriteByte_keepsCanonical {s : State} {k : MemSpace} {a : Nat} (b : Byte)
    (hp : s.provides k a = true) : s.KeepsCanonical (hostWriteByte k a b s) := by
  have ha := provides_lt hp
  cases k with
  | inp =>
    refine .of_spaces (fun j hj => ?_) id
    cases j with
    | inp => simp only [hostWriteByte, State.space_inp]; split <;> [exact hj.writeRaced b ha; exact hj.write b ha]
    | out | dset => exact hj
  | dset =>
    refine .of_spaces (fun j hj => ?_) id
    cases j with
    | dset =>
      simp only [hostWriteByte, State.space_dset]; split <;> [exact hj.writeRaced b ha; exact hj.write b ha]
    | inp | out => exact hj
  | out =>
    have other {t : State} (hi : t.inMem = s.inMem) (hd : t.dset = s.dset)
        (ho : s.outMem.Canonical .out → t.outMem.Canonical .out)
        (hs : s.shadowCanonical → t.shadowCanonical) : s.KeepsCanonical t :=
      .of_spaces (fun j hj => by cases j <;> simp_all) hs
    simp only [hostWriteByte, hostWriteOut]
    split
    · split
      · exact other rfl rfl (fun h => h.writeAhead b ha) id
      · split
        · exact other rfl rfl id fun h => h.put _ ha
        · exact other rfl rfl (fun h => h.write b ha) fun h => h.put _ ha
    · exact other rfl rfl (fun h => h.write b ha) id

theorem provide_keepsCanonical (k : MemSpace) (size : Option Nat) (s : State) :
    s.KeepsCanonical (provide k size s) := by
  refine .of_spaces (fun j hj => ?_) (by simp [provide, State.shadowCanonical])
  by_cases h : j = k
  · subst h; rw [provide, State.space_setSpace]; exact hj
  · rw [provide, State.space_setSpace_other _ _ _ _ h]; exact hj

theorem hostMove_keepsCanonical {m : HostMove} {s t : State} (h : hostMove m s = .next t) (ht : m ≠ .tick)
    (hw : m = .wait → s.core.busy = false) : s.KeepsCanonical t := by
  rcases hostMove_shape h ht hw with ⟨c, rfl⟩ | ⟨w, d, o, rfl, -⟩ | ⟨-, rfl⟩ | ⟨k, a, b, -, hp, rfl⟩ |
    ⟨k, size, rfl⟩
  · exact .of_eq (fun k => by cases k <;> rfl) rfl
  · exact .of_eq (fun k => by cases k <;> rfl) rfl
  · exact .of_settle (fun k => by cases k <;> rfl) rfl
  · exact hostWriteByte_keepsCanonical b hp
  · exact provide_keepsCanonical k size s

/-- Settles O50, by the kinds of move: a list changes only at an address inside its space, or is dropped. -/
theorem everyStepKeepsMemoryCanonical : Obligations.EveryStepKeepsMemoryCanonical := by
  intro s t h
  have kept : s.KeepsCanonical t := by
    rcases step_sequencer_or_host h with ⟨-, moves, -, hm⟩ | ⟨m, rest, -, ht, hw, hm⟩
    · exact (s.keepsCanonical_withHost moves).trans (sequencerMove_keepsCanonical hm)
    · exact (s.keepsCanonical_withHost rest).trans (hostMove_keepsCanonical hm ht hw)
  exact ⟨kept.memory, kept.shadow⟩

end Sys2Proof.Machine
end

section
/-! The host's accesses to the memories, on an idle CORE and to the output of a running command, and the
register accesses that have no meaning (20_memory.md R61, R64, 70_reset_and_hazards.md R241, R248). -/

namespace Sys2Proof.Machine

/-- Settles O24: `Reg.ofAccess` is the three tests of R64, and a scheduled access asks it first. -/
theorem oddRegisterAccessIsRefused : Obligations.OddRegisterAccessIsRefused := by
  refine fun a => ⟨by simp [Reg.ofAccess], fun s v rest h => ⟨?_, ?_⟩⟩ <;> simp only [step, hostMove, h]

/-! ## A scheduled access -/

@[simp] theorem State.provides_withHost (s : State) (moves : List HostMove) (k : MemSpace) (a : Nat) :
    State.provides { s with host := moves } k a = s.provides k a := by cases k <;> rfl

/-- A scheduled read of a byte that is there. -/
theorem step_memRead {s : State} {k : MemSpace} {a : Nat} (hp : s.provides k a = true)
    (rest : List HostMove) :
    step { s with host := .memRead k a :: rest } = .next (hostReadByte k a { s with host := rest }) :=
  hostMemory_provided _ rest hp

/-- A scheduled write of a byte that is there. -/
theorem step_memWrite {s : State} {k : MemSpace} {a : Nat} (b : Byte) (hp : s.provides k a = true)
    (rest : List HostMove) :
    step { s with host := .memWrite k a b :: rest } = .next (hostWriteByte k a b { s with host := rest }) :=
  hostMemory_provided _ rest hp

/-! ## What a read gives -/

theorem CoreRegs.writesOut_of_idle {c : CoreRegs} (h : c.busy = false) (a : Nat) : c.writesOut a = false := by
  obtain ⟨-, -, ho⟩ := CoreRegs.uses_of_idle h
  exact ho a

theorem hostReadByte_of_doubt {s : State} {a : Nat} (h : Doubt.covers s.doubt a = true) :
    hostReadByte .out a s = (s.deliver ((Config.abandonedOutByte s.draws).setWidth 32)).draw := by
  simp [hostReadByte, h]

theorem hostReadByte_of_written {s : State} {a : Nat} (h : Doubt.covers s.doubt a = false)
    (hw : s.core.writesOut a = true) : hostReadByte .out a s = readWhileWritten a s := by
  simp [hostReadByte, h, hw]

/-- A byte that is neither in doubt nor written by a running command is read as it is. -/
theorem hostReadByte_ordinary {s : State} {k : MemSpace} {a : Nat}
    (h : k ≠ .out ∨ Doubt.covers s.doubt a = false) (hw : s.core.writesOut a = false) :
    hostReadByte k a s = s.deliver ((s.peek k a).setWidth 32) := by
  simp only [hostReadByte, hw]
  rcases h with h | h <;> simp [h]

/-- After the command's write a read gives the byte there or the other one that is kept (R248). -/
theorem readWhileWritten_after {s : State} {a : Nat} (h : a < s.core.outPos.toNat) :
    ∃ b : Byte, (b = s.peek .out a ∨ Memory.find? s.shadow a = some b) ∧
      readWhileWritten a s = (s.deliver (b.setWidth 32)).draw := by
  simp only [readWhileWritten, if_neg (Nat.not_le.2 h)]
  refine ⟨_, ?_, rfl⟩
  split
  · cases hf : Memory.find? s.shadow a with
    | none => exact .inl rfl
    | some other => exact .inr rfl
  · exact .inl rfl

section
variable {s : State} {a : Nat} (rest : List HostMove)

theorem step_memRead_ordinary {k : MemSpace} (hp : s.provides k a = true)
    (hd : k ≠ .out ∨ Doubt.covers s.doubt a = false) (hw : s.core.writesOut a = false) :
    step { s with host := .memRead k a :: rest } =
      .next { s with host := rest, reads := (s.peek k a).setWidth 32 :: s.reads } := by
  rw [step_memRead hp, hostReadByte_ordinary (s := { s with host := rest }) hd hw, State.peek_withHost]
  rfl

/-- Before the command's write a read gives the old byte and is owed the choice (R248). -/
theorem step_memRead_before (hp : s.provides .out a = true) (hd : Doubt.covers s.doubt a = false)
    (hw : s.core.writesOut a = true) (hle : s.core.outPos.toNat ≤ a) :
    step { s with host := .memRead .out a :: rest } =
      .next
        { s with
          host := rest
          reads := (s.peek .out a).setWidth 32 :: s.reads
          owed := (s.reads.length, a) :: s.owed } := by
  rw [step_memRead hp, hostReadByte_of_written (s := { s with host := rest }) hd hw, readWhileWritten, if_pos hle]
  rfl

theorem step_memRead_after (hp : s.provides .out a = true) (hd : Doubt.covers s.doubt a = false)
    (hw : s.core.writesOut a = true) (hlt : a < s.core.outPos.toNat) :
    ∃ b : Byte, (b = s.peek .out a ∨ Memory.find? s.shadow a = some b) ∧
      step { s with host := .memRead .out a :: rest } =
        .next { s with host := rest, reads := b.setWidth 32 :: s.reads, draws := s.draws + 1 } := by
  obtain ⟨b, hbyte, e⟩ := readWhileWritten_after (s := { s with host := rest }) hlt
  refine ⟨b, hbyte, ?_⟩
  rw [step_memRead hp, hostReadByte_of_written (s := { s with host := rest }) hd hw, e]
  rfl

end

/-! ## A write on an idle CORE -/

/-- On an idle CORE a write stores the byte, and a byte of `OUT` is no longer in doubt. -/
theorem hostWriteByte_of_idle {s : State} (k : MemSpace) (a : Nat) (b : Byte) (hb : s.core.busy = false) :
    hostWriteByte k a b s =
      { s.setSpace k ((s.space k).write a b) with
        doubt := if k = .out then Doubt.dropAt a s.doubt else s.doubt } := by
  obtain ⟨hi, hd, ho⟩ := CoreRegs.uses_of_idle hb
  cases k <;> simp [hostWriteByte, hostWriteOut, hi, hd, ho, State.setSpace]

section
variable {s : State} (k : MemSpace) (a : Nat) (b : Byte)

theorem provides_hostWriteByte_of_idle (hb : s.core.busy = false) (j : MemSpace) (x : Nat) :
    (hostWriteByte k a b s).provides j x = s.provides j x := by
  rw [hostWriteByte_of_idle k a b hb]
  cases k <;> cases j <;> rfl

/-- The byte written on an idle CORE is there, and every other byte of every memory is as before. -/
theorem peek_hostWriteByte_of_idle (hm : s.memoryCanonical) (hb : s.core.busy = false) (j : MemSpace)
    (x : Nat) : (hostWriteByte k a b s).peek j x = if j = k ∧ x = a then b else s.peek j x := by
  have stored : (hostWriteByte k a b s).peek j x =
      Memory.peek ((s.setSpace k ((s.space k).write a b)).space j).cells x := by
    rw [hostWriteByte_of_idle k a b hb]
    cases j <;> rfl
  rw [stored]
  by_cases hj : j = k
  · subst hj
    simpa [State.space_setSpace, Space.write, State.peek] using Memory.peek_poke b (hm j).1 x
  · rw [State.space_setSpace_other _ _ _ _ hj, if_neg fun h => hj h.1]
    rfl

/-- The byte written on an idle CORE is not in doubt. -/
theorem doubt_hostWriteByte_of_idle (hb : s.core.busy = false) :
    k ≠ .out ∨ Doubt.covers (hostWriteByte k a b s).doubt a = false := by
  rw [hostWriteByte_of_idle k a b hb]
  by_cases hk : k = .out
  · exact .inr (by simp [hk, Doubt.covers_dropAt])
  · exact .inl hk

end

/-- A scheduled read of the byte just written on an idle CORE. -/
theorem step_hostWriteByte_of_idle {s : State} {k : MemSpace} {a : Nat} (v : Byte) {rest : List HostMove}
    (hh : s.host = .memRead k a :: rest) (hm : s.memoryCanonical) (hb : s.core.busy = false)
    (hp : s.provides k a = true) :
    step (hostWriteByte k a v s) =
      .next { hostWriteByte k a v s with host := rest, reads := v.setWidth 32 :: s.reads } := by
  have hread := peek_hostWriteByte_of_idle k a v hm hb k a
  have hprovides := provides_hostWriteByte_of_idle k a v hb k a
  have hdoubt := doubt_hostWriteByte_of_idle k a v hb
  obtain ⟨hcore, hhost, hreads, -⟩ := hostWriteByte_frame k a v s
  generalize hostWriteByte k a v s = t at *
  have scheduled : t = { t with host := .memRead k a :: rest } := by rw [← hh, ← hhost]
  have hidle : t.core.writesOut a = false := by rw [hcore]; exact CoreRegs.writesOut_of_idle hb a
  have e := step_memRead_ordinary rest (hprovides.trans hp) hdoubt hidle
  rwa [← scheduled, hread, if_pos ⟨rfl, rfl⟩, hreads] at e

/-- On an idle CORE the host reads back what it wrote, and no other byte changes (R61). -/
theorem hostWrite_readBack {s : State} {k : MemSpace} {a : Nat} (v : Byte) (rest : List HostMove)
    (hm : s.memoryCanonical) (hb : s.core.busy = false) (hp : s.provides k a = true) :
    ∃ t, step { s with host := HostMove.memWrite k a v :: HostMove.memRead k a :: rest } = .next t ∧
      t.core = s.core ∧ t.peek k a = v ∧ (∀ j b, j ≠ k ∨ b ≠ a → t.peek j b = s.peek j b) ∧
      step t = .next { t with host := rest, reads := v.setWidth 32 :: s.reads } := by
  have hm' := (s.keepsCanonical_withHost (.memRead k a :: rest)).memory hm
  have hpeek := peek_hostWriteByte_of_idle k a v hm' hb
  refine ⟨_, step_memWrite v hp _, (hostWriteByte_frame k a v _).1, by simp [hpeek], fun j x hne => ?_,
    step_hostWriteByte_of_idle v rfl hm' hb (by rwa [State.provides_withHost])⟩
  rw [hpeek, if_neg fun h => hne.elim (absurd h.1) (absurd h.2), State.peek_withHost]

/-! ## What a step does to a read, and to the bookkeeping of R248 -/

/-- A value given to the host changes no earlier read. -/
theorem readNo_cons {l : List Word} (w : Word) {n : Nat} (hn : n < l.length) :
    (w :: l).reverse[n]? = l.reverse[n]? := by
  rw [List.reverse_cons, List.getElem?_append_left (by simpa using hn)]

/-- The sequencer changes a read only where its step writes the byte read, and it is owed a choice (R248). -/
theorem sequencerMove_settles {s t : State} (h : SequencerMove s t) (n : Nat) :
    t.readNo n = s.readNo n ∨
      ∃ a, (n, a) ∈ s.owed ∧ s.core.reaches .out a ∧
        t.readNo n = some ((laneByte s.core.lanes (a - s.core.outPos.toNat)).setWidth 32) := by
  cases sequencerMove_effect h with
  | registers | ends => exact .inl rfl
  | squeeze u c hp hs hu =>
    obtain ⟨-, settled, -⟩ := deliverBytes_reads hu
    rcases settled n with e | ⟨j, hj, howed, hd, e⟩
    · exact .inl e
    · rw [laneBytes_length] at hj
      rw [laneBytes_getD _ _ _ hj] at e
      refine .inr ⟨_, howed, ⟨hp, hd, hs, by omega, by omega⟩, ?_⟩
      rw [Nat.add_sub_cancel_left]
      exact e

theorem hostMove_readNo {m : HostMove} {s t : State} (h : hostMove m s = .next t) (ht : m ≠ .tick)
    (hw : m = .wait → s.core.busy = false) {n : Nat} (hn : n < s.reads.length) :
    t.readNo n = s.readNo n := by
  rcases hostMove_shape h ht hw with ⟨c, rfl⟩ | ⟨w, d, o, rfl, -⟩ | ⟨-, rfl⟩ | ⟨k, a, b, -, -, rfl⟩ |
    ⟨k, size, rfl⟩
  · rfl
  · exact readNo_cons w hn
  · rfl
  · obtain ⟨-, -, hreads, -⟩ := hostWriteByte_frame k a b s
    rw [State.readNo, hreads]; rfl
  · rw [State.readNo, provide, State.setSpace_reads]; rfl

/-- The step that squeezes a byte owes no read of it any more, and where the host has not written it stores
it and keeps the byte it replaces (R135, R248). -/
theorem sequencerMove_writes {s t : State} (h : SequencerMove s t) {a : Nat} (hr : s.core.reaches .out a) :
    (∀ n, (n, a) ∉ t.owed) ∧
      (s.memoryCanonical → Memory.find? s.outMem.raced a = none →
        t.peek .out a = laneByte s.core.lanes (a - s.core.outPos.toNat) ∧
          Memory.find? t.shadow a = some (s.peek .out a)) := by
  obtain ⟨hp, hd, hs, hlo, hhi⟩ := hr
  cases sequencerMove_effect h with
  | registers c d hns => exact absurd hs (hns hp)
  | ends c d _ hns => exact absurd hs (hns hp)
  | squeeze u c _ _ hu =>
    refine ⟨fun n hn => ?_, fun hm hraced => ?_⟩
    · obtain ⟨-, -, stillOwed⟩ := deliverBytes_reads hu
      exact (stillOwed _ hn).2 hd ⟨hlo, by rwa [laneBytes_length]⟩
    · obtain ⟨hpeek, hshadow⟩ := deliverBytes_out hu hd (hm .out).1 a
      rw [laneBytes_length, hostsByteStays_quiet hraced, laneBytes_getD _ _ _ (by omega)] at hpeek hshadow
      rw [State.peek_draw, State.peek_withCore, hpeek]
      exact ⟨by simp [hlo, hhi], by simpa [hlo, hhi] using hshadow⟩

/-- The other value of a byte of `OUT`, and the reads of it owed a choice, stay. -/
def State.KeepsChoice (s t : State) (a : Nat) : Prop :=
  Memory.find? t.shadow a = Memory.find? s.shadow a ∧ ∀ n, (n, a) ∈ s.owed → (n, a) ∈ t.owed

/-- While the command runs the sequencer keeps them for every byte it does not write. -/
theorem sequencerMove_keepsChoice {s t : State} (h : SequencerMove s t) (hb : t.core.busy = true) {a : Nat}
    (hr : ¬s.core.reaches .out a) : s.KeepsChoice t a := by
  cases sequencerMove_effect h with
  | registers => exact ⟨rfl, fun _ => id⟩
  | ends c d hidle => exact absurd (hidle.symm.trans hb) (by decide)
  | squeeze u c hp hs hu =>
    obtain ⟨-, hshadow, howed, -⟩ := deliverBytes_other (x := a) hu fun hd hx => hr ⟨hp, hd, hs, by simpa using hx⟩
    exact ⟨hshadow, howed⟩

/-- A host write of a byte keeps them for every other byte. -/
theorem hostWriteByte_keepsChoice {s : State} {k : MemSpace} {x a : Nat} (b : Byte) (h : k = .out → x ≠ a) :
    s.KeepsChoice (hostWriteByte k x b s) a := by
  obtain ⟨-, -, -, howed⟩ := hostWriteByte_frame k x b s
  refine ⟨?_, fun n hn => by rwa [howed]⟩
  cases k with
  | inp | dset => rfl
  | out =>
    have put (c : Byte) := Memory.find?_put_other s.shadow x a c (h rfl).symm
    simp only [hostWriteByte, hostWriteOut]
    split
    · split
      · rfl
      · split <;> exact put _
    · rfl

theorem hostMove_keepsChoice {m : HostMove} {s t : State} (h : hostMove m s = .next t) (ht : m ≠ .tick)
    (hw : m = .wait → s.core.busy = false) (hb : t.core.busy = true) {a : Nat}
    (hm : ∀ v, m ≠ .memWrite .out a v) : s.KeepsChoice t a := by
  rcases hostMove_shape h ht hw with ⟨c, rfl⟩ | ⟨w, d, o, rfl, ho⟩ | ⟨-, rfl⟩ | ⟨k, x, b, rfl, -, rfl⟩ |
    ⟨k, size, rfl⟩
  · exact ⟨rfl, fun _ => id⟩
  · refine ⟨rfl, fun n hn => ?_⟩
    rcases ho with rfl | ⟨x, rfl, -⟩
    · exact hn
    · exact List.mem_cons_of_mem _ hn
  · exact absurd hb (show ¬CoreRegs.reset.busy = true by decide)
  · exact hostWriteByte_keepsChoice b fun hk hx => hm b (by rw [hk, hx])
  · exact ⟨by rw [provide, State.setSpace_shadow], fun n hn => by rwa [provide, State.setSpace_owed]⟩

/-- Settles O30: the idle accesses by what a read gives and a write stores, the rest by the kinds of move. -/
theorem hostReadsBackWhatItWrote : Obligations.HostReadsBackWhatItWrote := by
  refine ⟨fun s k a v rest hm hb hp => ⟨hostWrite_readBack v rest hm hb hp, fun hd => ?_, ?_⟩,
    fun s a rest hp hw hd => ⟨fun hle => ?_, fun hlt => ?_⟩, fun s t n h hn => ?_,
    fun s t a hm h hr => ?_, fun s t a h hb hnw hnr => ?_⟩
  · exact step_memRead_ordinary rest hp hd (CoreRegs.writesOut_of_idle hb a)
  · rintro rfl hd
    rw [step_memRead hp, hostReadByte_of_doubt (s := { s with host := rest }) hd]
    rfl
  · exact step_memRead_before rest hp hd hw hle
  · exact step_memRead_after rest hp hd hw hlt
  · rcases step_sequencer_or_host h with ⟨hseq, moves, -, hmove⟩ | ⟨m, rest, -, ht, hwait, hmove⟩
    · exact (sequencerMove_settles hmove n).imp id fun hx => ⟨hseq, hx⟩
    · exact .inl (hostMove_readNo hmove ht hwait hn)
  · obtain ⟨howed, hstored⟩ := sequencerMove_writes (sequencerStep_cases h) hr
    exact ⟨howed, hstored hm⟩
  · rcases step_sequencer_or_host h with ⟨hseq, moves, -, hmove⟩ | ⟨m, rest, hh, ht, hwait, hmove⟩
    · exact sequencerMove_keepsChoice hmove hb fun hr => hnr ⟨hseq, hr⟩
    · exact hostMove_keepsChoice hmove ht hwait hb fun v hv => hnw ⟨v, rest, by rw [hh, hv]⟩

end Sys2Proof.Machine
end

section
/-! Where the sequencer stops (20_memory.md R74, 70_reset_and_hazards.md R244): an access that fails is one to
a byte that is not there. -/

namespace Sys2Proof.Machine

/-! ## When an access of the CORE fails -/

/-- A byte from `a` on, of `n`, that is not there. -/
def State.Lacks (s : State) (k : MemSpace) (a n : Nat) : Prop :=
  ∃ x, a ≤ x ∧ x < a + n ∧ s.provides k x = false

theorem State.Lacks.of_offset {s : State} {k : MemSpace} {a n : Nat}
    (h : ∃ j, j < n ∧ s.provides k (a + j) = false) : s.Lacks k a n := by
  obtain ⟨j, hj, hp⟩ := h
  exact ⟨a + j, by omega, by omega, hp⟩

theorem State.not_lacks_zero (s : State) (k : MemSpace) (a : Nat) : ¬s.Lacks k a 0 := by
  rintro ⟨x, h1, h2, -⟩
  omega

/-- The first byte is not there, or one of the others. -/
theorem State.lacks_succ {s : State} {k : MemSpace} {a n : Nat} :
    s.Lacks k a (n + 1) ↔ s.provides k a = false ∨ s.Lacks k (a + 1) n := by
  constructor
  · rintro ⟨x, h1, h2, hp⟩
    rcases Nat.eq_or_lt_of_le h1 with rfl | h
    · exact .inl hp
    · exact .inr ⟨x, h, by omega, hp⟩
  · rintro (hp | ⟨x, h1, h2, hp⟩)
    · exact ⟨a, by omega, by omega, hp⟩
    · exact ⟨x, by omega, by omega, hp⟩

theorem coreRead_of_lacking {s : State} {k : MemSpace} {a : Nat} (h : s.provides k a = false) :
    s.coreRead k a = none := by
  simp [State.coreRead, h]

/-- A read fails exactly where a byte is not there. -/
theorem memRead_eq_none {s : State} {k : MemSpace} {a n : Nat} :
    s.memRead k a n = none ↔ s.Lacks k a n := by
  refine ⟨fun h => .of_offset (memRead_none h), fun h => ?_⟩
  induction n generalizing a with
  | zero => exact absurd h (s.not_lacks_zero k a)
  | succ n ih =>
    rw [State.memRead]
    rcases State.lacks_succ.1 h with hp | h
    · rw [coreRead_of_lacking hp]
    · rw [ih h]
      cases s.coreRead k a <;> rfl

/-- The input of a pass fails only from `IN`. -/
theorem srcBytes_eq_none {s : State} {a n : Nat} :
    srcBytes s a n = none ↔ s.core.src = .inp ∧ s.Lacks .inp a n := by
  cases hs : s.core.src <;> simp [srcBytes, hs, memRead_eq_none]

/-- A delivery fails only to `OUT`, exactly where a byte is not there. -/
theorem deliverBytes_eq_none {bs : List Byte} {s : State} {a : Nat} :
    deliverBytes s a bs = none ↔ s.core.dst = .out ∧ s.Lacks .out a bs.length := by
  refine ⟨fun h => (deliverBytes_none h).imp id .of_offset, fun h => ?_⟩
  induction bs generalizing s a with
  | nil => exact absurd h.2 (s.not_lacks_zero .out a)
  | cons b bs ih =>
    obtain ⟨hd, hl⟩ := h
    simp only [deliverBytes, deliverByte, hd]
    split
    · rfl
    · rename_i u hu
      obtain ⟨hp, e, -⟩ := writeOut_some hu
      have hprov (x : Nat) : u.provides .out x = s.provides .out x := by rw [e]; rfl
      obtain ⟨x, h1, h2, hx⟩ := (State.lacks_succ.1 hl).resolve_left (by simp [hp])
      exact ih ⟨by rw [e]; exact hd, x, h1, h2, (hprov x).trans hx⟩

/-! ## The steps that stop -/

/-- The sequencer's step reaches a byte of the space that is not there. -/
def State.StuckAt (s : State) (k : MemSpace) : Prop := ∃ a, s.core.reaches k a ∧ s.provides k a = false

theorem stuckAt_inp {s : State} : s.StuckAt .inp ↔
    s.core.peRun = false ∧
      (s.core.scPhase = .absorb ∧ s.core.rRate.toNat ≤ s.core.rem.toNat ∧
          srcBytes s s.core.inPos.toNat s.core.rRate.toNat = none ∨
        s.core.scPhase = .pad ∧ srcBytes s s.core.inPos.toNat s.core.rem.toNat = none) := by
  simp only [srcBytes_eq_none]
  constructor
  · rintro ⟨a, ⟨hp, hs, h1, ⟨hph, hr, h2⟩ | ⟨hph, h2⟩⟩, hx⟩
    · exact ⟨hp, .inl ⟨hph, hr, hs, a, h1, h2, hx⟩⟩
    · exact ⟨hp, .inr ⟨hph, hs, a, h1, h2, hx⟩⟩
  · rintro ⟨hp, ⟨hph, hr, hs, a, h1, h2, hx⟩ | ⟨hph, hs, a, h1, h2, hx⟩⟩
    · exact ⟨a, ⟨hp, hs, h1, .inl ⟨hph, hr, h2⟩⟩, hx⟩
    · exact ⟨a, ⟨hp, hs, h1, .inr ⟨hph, h2⟩⟩, hx⟩

theorem stuckAt_out {s : State} : s.StuckAt .out ↔
    s.core.peRun = false ∧ s.core.scPhase = .squeeze ∧
      deliverBytes s s.core.outPos.toNat
        (laneBytes s.core.lanes (min s.core.rRate.toNat s.core.orem.toNat)) = none := by
  rw [deliverBytes_eq_none, laneBytes_length]
  constructor
  · rintro ⟨a, ⟨hp, hd, hs, h1, h2⟩, hx⟩
    exact ⟨hp, hs, hd, a, h1, h2, hx⟩
  · rintro ⟨hp, hs, hd, a, h1, h2, hx⟩
    exact ⟨a, ⟨hp, hd, hs, h1, h2⟩, hx⟩

theorem stuckAt_dset {s : State} : s.StuckAt .dset ↔
    s.core.peRun = false ∧ s.core.scPhase = .idle ∧ s.core.hoPhase = .access ∧
      (s.memRead .dset (blockAddr s.core.nextPage 0) 64 = none ∨
        s.memRead .dset (blockAddr s.core.nextPage 1) 64 = none) := by
  simp only [memRead_eq_none]
  constructor
  · rintro ⟨a, ⟨hp, hs, hh, b, j, hb, hj, rfl⟩, hx⟩
    have block : s.Lacks .dset (blockAddr s.core.nextPage b) 64 := .of_offset ⟨j, hj, hx⟩
    obtain rfl | rfl : b = 0 ∨ b = 1 := by omega
    · exact ⟨hp, hs, hh, .inl block⟩
    · exact ⟨hp, hs, hh, .inr block⟩
  · rintro ⟨hp, hs, hh, h⟩
    have block (b : Nat) (hb : b < 2) : s.Lacks .dset (blockAddr s.core.nextPage b) 64 → s.StuckAt .dset := by
      rintro ⟨a, h1, h2, hx⟩
      exact ⟨a, ⟨hp, hs, hh, b, a - blockAddr s.core.nextPage b, hb, by omega, by omega⟩, hx⟩
    exact h.elim (block 0 (by decide)) (block 1 (by decide))

theorem scAbsorb_fault {s : State} {f : Fault} : scAbsorb s = .fault f ↔
    f = .memoryStuck .inp ∧ s.core.rRate.toNat ≤ s.core.rem.toNat ∧
      srcBytes s s.core.inPos.toNat s.core.rRate.toNat = none := by
  unfold scAbsorb
  split
  · split <;> simp_all [eq_comm (a := f)]
  · simp_all

theorem scPad_fault {s : State} {f : Fault} : scPad s = .fault f ↔
    f = .memoryStuck .inp ∧ srcBytes s s.core.inPos.toNat s.core.rem.toNat = none := by
  unfold scPad
  split <;> simp_all [eq_comm (a := f)]

theorem scSqueeze_fault {s : State} {f : Fault} : scSqueeze s = .fault f ↔
    f = .memoryStuck .out ∧
      deliverBytes s s.core.outPos.toNat
        (laneBytes s.core.lanes (min s.core.rRate.toNat s.core.orem.toNat)) = none := by
  unfold scSqueeze
  split
  · rename_i hr
    rw [Nat.min_eq_left hr]
    split <;> simp_all [eq_comm (a := f)]
  · rename_i hr
    rw [Nat.min_eq_right (by omega)]
    split <;> simp_all [eq_comm (a := f)]

theorem hoAccess_fault {s : State} {f : Fault} : hoAccess s = .fault f ↔
    f = .memoryStuck .dset ∧
      (s.memRead .dset (blockAddr s.core.nextPage 0) 64 = none ∨
        s.memRead .dset (blockAddr s.core.nextPage 1) 64 = none) := by
  unfold hoAccess
  cases s.memRead .dset (blockAddr s.core.nextPage 0) 64 <;>
    cases s.memRead .dset (blockAddr s.core.nextPage 1) 64 <;> simp [eq_comm (a := f)]

theorem MemSpace.exists_iff {p : MemSpace → Prop} : (∃ k, p k) ↔ p .inp ∨ p .out ∨ p .dset :=
  ⟨fun ⟨k, h⟩ => by cases k <;> simp [h], by rintro (h | h | h) <;> exact ⟨_, h⟩⟩

/-- The sequencer stops with the name of a space exactly where it is stuck there. -/
theorem sequencerStep_fault {s : State} {f : Fault} :
    sequencerStep s = .fault f ↔ ∃ k, f = .memoryStuck k ∧ s.StuckAt k := by
  rw [MemSpace.exists_iff, stuckAt_inp, stuckAt_out, stuckAt_dset]
  cases hp : s.core.peRun with
  | true => simp [sequencerStep, hp]
  | false =>
    cases hs : s.core.scPhase with
    | absorb => simp [sequencerStep, controllerStep, hp, hs, scAbsorb_fault]
    | pad => simp [sequencerStep, controllerStep, hp, hs, scPad_fault]
    | squeeze => simp [sequencerStep, controllerStep, hp, hs, scSqueeze_fault]
    | clear => simp [sequencerStep, controllerStep, hp, hs]
    | idle =>
      cases hh : s.core.hoPhase with
      | access => simp [sequencerStep, controllerStep, hp, hs, hh, hoAccess_fault]
      | idle | tile | fold | final | finish => simp [sequencerStep, controllerStep, hp, hs, hh]

theorem sequencerStep_not_refused (s : State) (r : Refusal) : sequencerStep s ≠ .refused r := by
  unfold sequencerStep controllerStep scAbsorb scPad scSqueeze hoAccess
  repeat' split
  all_goals simp

/-- Settles O58, space by space: what a step reaches is what its access reads or writes. -/
theorem sequencerStopsOnlyWhereMemoryIsMissing : Obligations.SequencerStopsOnlyWhereMemoryIsMissing := by
  refine fun s => ⟨fun f => sequencerStep_fault.trans ?_, sequencerStep_not_refused s⟩
  constructor
  · rintro ⟨k, hf, a, hr, hp⟩; exact ⟨k, a, hf, hr, hp⟩
  · rintro ⟨k, a, hf, hr, hp⟩; exact ⟨k, hf, a, hr, hp⟩

/-! ## Whole memories -/

/-- In a sound state every byte the sequencer reaches is inside its space (R68, R131, R138). -/
theorem CoreRegs.SequencerSound.reaches_lt {c : CoreRegs} (h : c.SequencerSound) {k : MemSpace} {a : Nat}
    (hr : c.reaches k a) : a < k.bytes := by
  cases k with
  | inp =>
    obtain ⟨-, -, -, ⟨hs, h1, h2⟩ | ⟨hs, h2⟩⟩ := hr
    all_goals
      have hlen := (h.routed (by simp [hs])).lengths_lt.1
      show a < 2 ^ 32
      omega
  | out =>
    obtain ⟨-, -, hs, -, h2⟩ := hr
    have hlen := (h.routed (by simp [hs])).lengths_lt.2
    show a < 2 ^ 32
    omega
  | dset =>
    obtain ⟨-, -, -, b, j, hb, hj, rfl⟩ := hr
    have hpage := c.nextPage.isLt
    show blockAddr c.nextPage b + j < 2 ^ 64
    unfold blockAddr
    omega

/-- Settles O56: a whole memory has every byte a sound state reaches. -/
theorem sequencerNeverStopsOnWholeMemories : Obligations.SequencerNeverStopsOnWholeMemories := by
  intro s hw hs
  cases h : sequencerStep s with
  | next t => exact ⟨t, rfl⟩
  | fault f =>
    obtain ⟨k, -, a, hr, hp⟩ := sequencerStep_fault.1 h
    rw [provides_of_whole hw (hs.reaches_lt hr)] at hp
    cases hp
  | refused r => exact absurd h (sequencerStep_not_refused s r)

end Sys2Proof.Machine
end

section
/-! The decoder and the encoder (30_encoding.md R90 to R95): a word is one command's word or illegal, and
decoding a byte string inverts encoding a command. -/

namespace Sys2Proof

/-! ## Words -/

/-- A word is its two fields, `ZERO` above `OPCODE` (R90). -/
theorem commandWord_fields (w : Word) : w.extractLsb' 8 24 ++ w.extractLsb' 0 8 = w :=
  BitVec.extractLsb'_append_extractLsb' (w := 24) (len := 8)

theorem decodeWord_encode (i : Instr) : decodeWord (encode i) = .ok i := by
  cases i <;> rfl

/-- A word that decodes has `ZERO` clear and the command's opcode (R91, R92). -/
theorem fields_of_decodeWord {w : Word} {i : Instr} (h : decodeWord w = .ok i) :
    w.extractLsb' 8 24 = 0 ∧ w.extractLsb' 0 8 = opcodeOf i := by
  unfold decodeWord at h
  split at h
  · cases h
  · rename_i hz
    refine ⟨not_not.mp hz, BitVec.eq_of_toNat_eq ?_⟩
    split at h <;> cases h <;> assumption

/-- A word decodes to a command exactly when it is that command's word. -/
theorem decodeWord_eq_ok_iff (w : Word) (i : Instr) : decodeWord w = .ok i ↔ w = encode i := by
  constructor
  · intro h
    obtain ⟨hzero, hop⟩ := fields_of_decodeWord h
    rw [← commandWord_fields w, hzero, hop, encode]
  · rintro rfl
    exact decodeWord_encode i

/-- The command words are the numbers 1 to 7 (R92). -/
theorem exists_encode_iff (w : Word) : (∃ i, w = encode i) ↔ 1 ≤ w.toNat ∧ w.toNat ≤ 7 := by
  constructor
  · rintro ⟨i, rfl⟩
    cases i <;> decide
  · rintro ⟨h1, h7⟩
    suffices h : ∃ i, w.toNat = (encode i).toNat from h.imp fun i => BitVec.eq_of_toNat_eq
    interval_cases w.toNat
    exacts [⟨.permute, rfl⟩, ⟨.sponge, rfl⟩, ⟨.digest256, rfl⟩, ⟨.digest512, rfl⟩, ⟨.mix, rfl⟩,
      ⟨.fold, rfl⟩, ⟨.hash, rfl⟩]

/-- The fields are legal exactly when the word is a number from 1 to 7 (R92, R95). -/
theorem ofWord_wellFormed_iff (w : Word) :
    (CommandWord.ofWord w).wellFormed = true ↔ 1 ≤ w.toNat ∧ w.toNat ≤ 7 := by
  have hw := w.isLt
  simp only [CommandWord.wellFormed, CommandWord.zeroClear, CommandWord.opcodeAssigned, CommandWord.ofWord,
    Bool.and_eq_true, beq_iff_eq, decide_eq_true_eq, ← BitVec.toNat_inj, BitVec.extractLsb'_toNat,
    Nat.shiftRight_eq_div_pow, BitVec.ofNat_eq_ofNat, BitVec.toNat_ofNat]
  omega

/-- Settles O8: the three clauses are about the numbers 1 to 7. -/
theorem everyWordIsOneCommandOrIllegal : Obligations.EveryWordIsOneCommandOrIllegal := by
  intro w
  refine ⟨?_, decodeWord_eq_ok_iff w, ?_⟩
  · simp only [ofWord_wellFormed_iff, ← exists_encode_iff, decodeWord_eq_ok_iff]
  · rw [← Bool.not_eq_true, ofWord_wellFormed_iff]
    omega

/-- Settles O6, by evaluating the decoder on the ten words. -/
theorem commandWordsDecode : Obligations.CommandWordsDecode :=
  ⟨rfl, rfl, rfl, rfl, rfl, rfl, rfl, rfl, rfl, rfl⟩

/-! ## Byte strings -/

/-- A string decodes exactly when its first four bytes make a word that does (R62, R90). -/
theorem decode_eq_ok_iff (bs rest : List Byte) (i : Instr) :
    decode bs = .ok (i, rest) ↔
      ∃ b0 b1 b2 b3, bs = b0 :: b1 :: b2 :: b3 :: rest ∧ decodeWord (wordOfBytes b0 b1 b2 b3) = .ok i := by
  constructor
  · intro h
    unfold decode at h
    split at h
    · split at h
      · cases h
        exact ⟨_, _, _, _, rfl, ‹_›⟩
      · cases h
    · cases h
  · rintro ⟨b0, b1, b2, b3, rfl, h⟩
    simp only [decode, h]

/-- Four bytes make a command's word exactly when they are its bytes, least significant first. -/
theorem wordOfBytes_eq_encode_iff (b0 b1 b2 b3 : Byte) (i : Instr) :
    wordOfBytes b0 b1 b2 b3 = encode i ↔ [b0, b1, b2, b3] = encodeBytes i := by
  constructor
  · intro h
    obtain ⟨h0, h1, h2, h3⟩ := Machine.byteOfWord_wordOfBytes b0 b1 b2 b3
    rw [encodeBytes, ← h, h0, h1, h2, h3]
  · intro h
    simp only [encodeBytes, List.cons.injEq, and_true] at h
    obtain ⟨rfl, rfl, rfl, rfl⟩ := h
    exact Machine.wordOfBytes_byteOfWord _

/-- Settles O7: a string decodes by its first four bytes, and these make `i`'s word exactly when they are
its bytes. -/
theorem decodeInvertsEncode : Obligations.DecodeInvertsEncode := by
  intro bs rest i
  simp only [decode_eq_ok_iff, decodeWord_eq_ok_iff, wordOfBytes_eq_encode_iff]
  constructor
  · rintro ⟨b0, b1, b2, b3, rfl, h⟩
    rw [← h]
    rfl
  · rintro rfl
    exact ⟨_, _, _, _, rfl, rfl⟩

end Sys2Proof
end

section
/-! A write of `CMD` (10_state.md R33, 30_encoding.md R91, R95): it runs the decoded command, or, on an
illegal word, ends at once with `E_ILLEGAL_CMD`. -/

namespace Sys2Proof.Machine

/-- A scheduled 32-bit write at offset 0 is a write of `CMD`. -/
theorem step_writeCmd (s : State) (w : Word) (rest : List HostMove) :
    step { s with host := .regWrite { width := .w32, offset := 0 } w :: rest } =
      writeCmd w { s with host := rest } :=
  (step_regWrite (ofAccess_access .cmd) w s rest).trans (if_pos rfl)

theorem writeCmd_of_decodes {w : Word} {i : Instr} (h : decodeWord w = .ok i) (s : State) :
    writeCmd w s = exec i s := by
  simp only [writeCmd, h]

theorem writeCmd_of_illegal {w : Word} (h : ¬(1 ≤ w.toNat ∧ w.toNat ≤ 7)) (s : State) :
    writeCmd w s = illegalCommand s := by
  unfold writeCmd
  split
  · rename_i i hi
    exact absurd ((exists_encode_iff w).1 ⟨i, (decodeWord_eq_ok_iff w i).1 hi⟩) h
  · rfl

/-- Settles O4: both states have the write of `CMD` as their next move. -/
theorem stepRunsDecodedCommand : Obligations.StepRunsDecodedCommand := by
  constructor
  · intro s w i rest hh hw
    have hs : s = { s with host := .regWrite { width := .w32, offset := 0 } w :: rest } := by rw [← hh]
    rw [hs, step_writeCmd, writeCmd_of_decodes hw]
  · intro s i
    have hw : BitVec.ofNat 32 ((encode i).toNat % 2 ^ 32) = encode i := by
      rw [Nat.mod_eq_of_lt (encode i).isLt, BitVec.ofNat_toNat, BitVec.setWidth_eq]
    rw [State.withFetchWord, issueCommand, commandMove, hw]
    exact (step_writeCmd { s with core := s.core.madeIdle } _ _).trans
      (writeCmd_of_decodes (decodeWord_encode i) _)

/-- Settles O9: the acceptance of an illegal word is `raise E_ILLEGAL_CMD`. -/
theorem illegalWordChangesOnlyStatus : Obligations.IllegalWordChangesOnlyStatus := by
  intro s w rest hb hw
  rw [step_writeCmd, writeCmd_of_illegal (by omega)]
  exact acceptance_of_idle _ _ hb

end Sys2Proof.Machine
end

section
/-! The pseudo-instructions that load operands (30_encoding.md R94, R98): what their writes leave in the
operand registers. -/

namespace Sys2Proof.Machine

/-! ## The values written -/

/-- A wide operand is its two halves, the high one first (R94). -/
theorem wide_halves (n : BitVec 64) : n.extractLsb' 32 32 ++ n.extractLsb' 0 32 = n :=
  BitVec.extractLsb'_append_extractLsb' (w := 32) (len := 32)

theorem byteOfWord_le32 (bs : List Byte) (k j : Nat) (hj : j < 4) :
    byteOfWord (le32 bs k) j = bs.getD (k + j) 0 := by
  obtain ⟨h0, h1, h2, h3⟩ :=
    byteOfWord_wordOfBytes (bs.getD k 0) (bs.getD (k + 1) 0) (bs.getD (k + 2) 0) (bs.getD (k + 3) 0)
  interval_cases j <;> assumption

/-- A buffer whose words are the little-endian words of a string holds the bytes of the string (R8). -/
theorem wordByte_of_le32 {n : Nat} {v : Vector Word n} {bs : List Byte}
    (hv : ∀ k : Fin n, v[k] = le32 bs (4 * k.val)) {a : Nat} (ha : a < 4 * n) :
    wordByte v a = bs.getD a 0 := by
  have hk : a / 4 < n := by omega
  calc wordByte v a
      = byteOfWord v[a / 4] (a % 4) := dif_pos hk
    _ = byteOfWord (le32 bs (4 * (a / 4))) (a % 4) := congrArg (byteOfWord · _) (hv ⟨a / 4, hk⟩)
    _ = bs.getD a 0 := by rw [byteOfWord_le32 _ _ _ (by omega), Nat.div_add_mod]

/-! ## The writes -/

/-- The registers after a list of register writes, the first of the list first. -/
def CoreRegs.writeRegs (c : CoreRegs) (ws : List (Reg × Word)) : CoreRegs :=
  ws.foldl (fun c p => c.writeReg p.1 p.2) c

/-- The eight writes of `LDHDR h` (R98). -/
def headerWrites (h : List Byte) : List (Reg × Word) :=
  (List.finRange 8).map fun k => (.hdr k, le32 h (4 * k.val))

/-- The six writes of `LDNONCE n`, `LDSIZE f`, `LDDSLEN d` (R98). -/
def wideWrites (n f d : BitVec 64) : List (Reg × Word) :=
  [(.nonceLo, n.extractLsb' 0 32), (.nonceHi, n.extractLsb' 32 32),
    (.fullSizeLo, f.extractLsb' 0 32), (.fullSizeHi, f.extractLsb' 32 32),
    (.dsLenLo, d.extractLsb' 0 32), (.dsLenHi, d.extractLsb' 32 32)]

theorem CoreRegs.writeRegs_append (c : CoreRegs) (xs ys : List (Reg × Word)) :
    c.writeRegs (xs ++ ys) = (c.writeRegs xs).writeRegs ys := List.foldl_append

/-- A write of one header word leaves the others. -/
theorem hdr_writeReg_hdr (c : CoreRegs) (k j : Fin 8) (v : Word) :
    (c.writeReg (.hdr k) v).hdr[j] = if j = k then v else c.hdr[j] := by
  by_cases h : j = k
  · subst h; simp [CoreRegs.writeReg]
  · simp [CoreRegs.writeReg, Fin.val_inj, h, Ne.symm h]

/-- A header word after some header words were written. -/
theorem hdr_writeRegs (g : Fin 8 → Word) (ks : List (Fin 8)) (c : CoreRegs) (j : Fin 8) :
    (c.writeRegs (ks.map fun k => (.hdr k, g k))).hdr[j] = if j ∈ ks then g j else c.hdr[j] := by
  induction ks generalizing c with
  | nil => rfl
  | cons k ks ih =>
    refine (ih (c.writeReg (.hdr k) (g k))).trans ?_
    rw [hdr_writeReg_hdr]
    by_cases hjk : j = k
    · subst hjk; simp
    · simp [hjk]

/-- `LDHDR h` leaves `h` in the header's bytes. -/
theorem hdr_headerWrites (c : CoreRegs) (h : List Byte) (hl : h.length = 32) :
    (List.range 32).map (wordByte (c.writeRegs (headerWrites h)).hdr) = h := by
  have hv (k : Fin 8) : (c.writeRegs (headerWrites h)).hdr[k] = le32 h (4 * k.val) :=
    (hdr_writeRegs _ _ c k).trans (if_pos (List.mem_finRange k))
  rw [List.map_congr_left fun a ha => wordByte_of_le32 hv (List.mem_range.1 ha), map_range_getD h 32 hl]

/-- `LDNONCE n`, `LDSIZE f`, `LDDSLEN d` leave their operands, and the header as it was. -/
theorem writeRegs_wideWrites (c : CoreRegs) (n f d : BitVec 64) :
    (c.writeRegs (wideWrites n f d)).hdr = c.hdr ∧ (c.writeRegs (wideWrites n f d)).nonce = n ∧
      (c.writeRegs (wideWrites n f d)).fullSize = f ∧ (c.writeRegs (wideWrites n f d)).dsLen = d := by
  simp only [CoreRegs.writeRegs, wideWrites, List.foldl_cons, List.foldl_nil, CoreRegs.writeReg,
    CoreRegs.nonce, CoreRegs.fullSize, CoreRegs.dsLen, wide_halves, and_self]

/-- The four scripts are these 14 writes, as moves of the host. -/
theorem operandScripts_eq_writes (h : List Byte) (n f d : BitVec 64) :
    ldHdr h ++ ldNonce n ++ ldSize f ++ ldDsLen d =
      (headerWrites h ++ wideWrites n f d).map fun p => wr p.1 p.2 := rfl

/-- No write of the four scripts is one of `CMD`. -/
theorem operandWrites_ne_cmd (h : List Byte) (n f d : BitVec 64) :
    ∀ p ∈ headerWrites h ++ wideWrites n f d, p.1 ≠ .cmd :=
  List.forall_mem_append.2 ⟨by simp [headerWrites], by simp [wideWrites]⟩

/-- Settles O29: the scripts are 14 register writes, the header's first. -/
theorem operandScriptsAssemble : Obligations.OperandScriptsAssemble := by
  intro s h n f d hb hl
  obtain ⟨hhdr, hn, hf, hd⟩ := writeRegs_wideWrites (s.core.writeRegs (headerWrites h)) n f d
  refine ⟨_, runSteps_writes (headerWrites h ++ wideWrites n f d) [] 0 _ hb (operandWrites_ne_cmd h n f d)
    ((operandScripts_eq_writes h n f d).trans (List.append_nil _).symm), ?_⟩
  change (List.range 32).map (wordByte (s.core.writeRegs (_ ++ _)).hdr) = h ∧ _
  rw [CoreRegs.writeRegs_append]
  exact ⟨by rw [hhdr, hdr_headerWrites _ _ hl], hn, hf, hd⟩

end Sys2Proof.Machine
end

section
/-! The Permutation Engine (40_permutation.md R111 to R118): the four parts of a round lane by lane, the
round step, and the command `PERMUTE` from its acceptance to its end. -/

namespace Sys2Proof.Machine

/-! ## Rho/Pi -/

/-- A lane that is no target of the loop keeps its value. -/
theorem rhoPiLoop_of_notMem {l : List (Fin 25 × Nat)} {i : Fin 25} (hi : i ∉ l.map Prod.fst) (t : Lane)
    (v : Vector Lane 25) : (rhoPiLoop l t v)[i] = v[i] := by
  induction l generalizing t v with
  | nil => rfl
  | cons p l ih =>
    obtain ⟨hip, hil⟩ := not_or.1 (List.mem_cons.not.1 hi)
    exact (ih hil _ _).trans (Vector.getElem_set_ne _ _ fun h => hip (Fin.ext h.symm))

/-- The rolling temporary makes the loop a simultaneous assignment: a target takes the rotated value that
stood, before the loop, in the target before it; the first one takes the temporary's. -/
theorem rhoPiLoop_target {l : List (Fin 25 × Nat)} (hl : (l.map Prod.fst).Nodup) (t : Lane)
    (v : Vector Lane 25) (k : Nat) (hk : k < l.length) :
    (rhoPiLoop l t v)[l[k].1] =
      rotl64 ((t :: l.map fun p => v[p.1])[k]'(by simp; omega)) l[k].2 := by
  induction l generalizing t v k with
  | nil => cases hk
  | cons p l ih =>
    obtain ⟨hp, hl⟩ := List.nodup_cons.1 hl
    cases k with
    | zero => exact (rhoPiLoop_of_notMem hp _ _).trans (Vector.getElem_set_self _)
    | succ k =>
      have kept : (l.map fun q => (v.set p.1 (rotl64 t p.2))[q.1]) = l.map fun q => v[q.1] :=
        List.map_congr_left fun q hq => Vector.getElem_set_ne _ _ fun h =>
          hp (Fin.ext h ▸ List.mem_map_of_mem hq)
      have rest := ih hl v[p.1] (v.set p.1 (rotl64 t p.2)) k (Nat.lt_of_succ_lt_succ hk)
      simp only [kept] at rest
      exact rest

/-- Rho/Pi at each target of `PILN`: its source is the target before it, lane 1 for the first (R112). -/
theorem rhoPi_target (v : Vector Lane 25) (k : Fin 24) :
    (rhoPi v)[piln[k]] = rotl64 v[((1 :: piln)[k] : Fin 25)] rotc[k] := by
  have sources : (v[1] :: (piln.zip rotc).map fun p => v[p.1]) = (1 :: piln).map fun i => v[i] := rfl
  have hk : k.val < (piln.zip rotc).length := k.isLt
  have h := rhoPiLoop_target (by decide) v[1] v k.val hk
  simp only [sources, List.getElem_map, List.getElem_zip] at h
  exact h

theorem rotateLeft_zero (x : Lane) : x.rotateLeft 0 = x := by
  simp [BitVec.rotateLeft_def, BitVec.ushiftRight_eq_zero]

/-- Lane 0 is no target (R112). -/
theorem rhoPi_zero (v : Vector Lane 25) : (rhoPi v)[(0 : Fin 25)] = v[(0 : Fin 25)] :=
  rhoPiLoop_of_notMem (by decide) _ _

/-- Settles O31: each row of the table but lane 0's is one target of the loop. -/
theorem rhoPiMovesEveryLane : Obligations.RhoPiMovesEveryLane := by
  intro v row hrow
  have source : row = (0, 0, 0) ∨ ∃ k : Fin 24, row = (piln[k], (1 :: piln)[k], rotc[k]) := by
    revert row; decide
  refine ⟨?_, by revert row; decide⟩
  obtain rfl | ⟨k, rfl⟩ := source
  · exact (rhoPi_zero v).trans (rotateLeft_zero _).symm
  · exact rhoPi_target v k

/-! ## Theta, Chi and Iota -/

/-- The lane `n` places further in the row of lane `(x, y)` (R113). -/
theorem lane_in_row (x y n : Fin 5) :
    5 * ((x.val + 5 * y.val) / 5) + (x.val + 5 * y.val + n.val) % 5 = (x + n).val + 5 * y.val := by
  rw [Fin.val_add]; omega

/-- Settles O32: a lane's index gives back its coordinates. -/
theorem thetaAndChiByCoordinates : Obligations.ThetaAndChiByCoordinates := by
  intro v par hpar x y
  have parity : columnParity v = par := funext fun z => (hpar z).symm
  have column : Fin.ofNat 5 (x.val + 5 * y.val) = x := Fin.ext (by simp [Nat.mod_eq_of_lt])
  constructor
  · simp only [theta, Vector.getElem_ofFn, column, thetaEffect, parity, rotl64]; rfl
  · have next := lane_in_row x y 1
    have afterNext := lane_in_row x y 2
    simp only [Fin.val_one, Fin.val_two] at next afterNext
    simp only [chi, Vector.getElem_ofFn, next, afterNext]; rfl

/-- Iota XORs its round's constant into lane 0 (R114). -/
theorem iota_zero (v : Vector Lane 25) (r : Fin 24) : (iota v r)[0] = v[0] ^^^ rc r :=
  Vector.getElem_set_self _

/-- Iota leaves the other 24 lanes (R114). -/
theorem iota_of_ne_zero (v : Vector Lane 25) (r : Fin 24) {i : Fin 25} (hi : i ≠ 0) :
    (iota v r)[i] = v[i] :=
  Vector.getElem_set_ne _ _ fun h => hi (Fin.ext h.symm)

/-! ## The round step -/

theorem sequencerStep_of_peRun {s : State} (hp : s.core.peRun = true) :
    sequencerStep s = .next (peStep s) := if_pos hp

/-- Settles O33: the step is `peStep`, and the listing of the constants is `rc`. -/
theorem engineStepAppliesOneRound : Obligations.EngineStepAppliesOneRound := by
  refine ⟨fun s hp => ⟨peStep s, sequencerStep_of_peRun hp, peStep_peek s, ?_⟩, fun v =>
    ⟨fun row hrow => ?_, fun r _ hi => iota_of_ne_zero v r hi⟩⟩
  · have running : (if s.core.rnd = 23 then false else s.core.peRun) = decide (s.core.rnd ≠ 23) := by
      simp [hp]
    rw [peStep_core, running, keccakRound]
  · change row ∈ (List.finRange 24).map fun r => (r, rc r) at hrow
    obtain ⟨r, -, rfl⟩ := List.mem_map.1 hrow
    exact iota_zero v r

/-! ## `PERMUTE`

R118 is claimed from every idle state, also where the bookkeeping of R248 is not empty, and `peRun_rounds`
asks for `quiet` memories: the run is followed here as an update of the lanes and `RND` alone. -/

/-- Settles O18: the acceptance clears the status and starts the PE. -/
theorem permuteAcceptanceStartsEngine : Obligations.PermuteAcceptanceStartsEngine :=
  fun _ hb => acceptance_of_idle acceptPermute _ hb

/-- The state with its lanes moved on by the first `j` rounds (R117). -/
def State.withRounds (s : State) (j : Nat) : State :=
  { s with
    core :=
      { s.core with
        lanes := ((List.finRange 24).take j).foldl keccakRound s.core.lanes
        rnd := Fin.ofNat 24 j } }

theorem State.withRounds_zero {s : State} (hr : s.core.rnd = 0) : s.withRounds 0 = s := by
  have count : Fin.ofNat 24 0 = s.core.rnd := hr.symm
  simp only [State.withRounds, count, List.take_zero, List.foldl_nil]

/-- The lanes after one more round. -/
theorem foldl_take_rounds (v : Vector Lane 25) {j : Nat} (hj : j < 24) :
    ((List.finRange 24).take (j + 1)).foldl keccakRound v =
      keccakRound (((List.finRange 24).take j).foldl keccakRound v) (Fin.ofNat 24 j) := by
  have round : Fin.ofNat 24 j = ⟨j, hj⟩ := Fin.ext (Nat.mod_eq_of_lt hj)
  rw [← List.take_append_getElem (by simpa using hj), List.foldl_append, round]
  simp

/-- A round step before round 23 counts and applies its round, and does nothing else (R117). -/
theorem peStep_withRounds (s : State) {j : Nat} (hj : j < 23) :
    peStep (s.withRounds j) = s.withRounds (j + 1) := by
  have notLast : Fin.ofNat 24 j ≠ 23 := fun h => by simp [Fin.ext_iff] at h; omega
  have count : Fin.ofNat 24 j + 1 = Fin.ofNat 24 (j + 1) := Fin.ext (by simp [Fin.val_add])
  simp only [peStep, peRegs, State.withRounds, notLast, false_and, if_false, count,
    foldl_take_rounds _ (Nat.lt_succ_of_lt hj)]

/-- Round 23 stops the engine, with the lanes `F(S)` (R116, R117). -/
theorem peStep_withRounds_last (s : State) :
    (peStep (s.withRounds 23)).core =
      { s.core with
        lanes := keccakF s.core.lanes
        rnd := 0
        peRun := false
        done := s.core.done || decide (s.core.scPhase = .idle ∧ s.core.hoPhase = .idle) } := by
  have last : Fin.ofNat 24 23 = 23 := rfl
  have all : (List.finRange 24).take (23 + 1) = List.finRange 24 := rfl
  have lanes := foldl_take_rounds s.core.lanes (j := 23) (by decide)
  rw [all, last] at lanes
  rw [peStep_core]
  simp only [State.withRounds, last, ← lanes, keccakF, if_true, true_and]

/-- After `j` rounds the engine still runs, and the next step of an unattended machine is its own. -/
theorem runSteps_one_withRounds {s : State} (hu : s.unattended) (hp : s.core.peRun = true) (j : Nat) :
    runSteps 1 (s.withRounds j) = .next (peStep (s.withRounds j)) :=
  runSteps_sequencer (s := s.withRounds j) hu (sequencerStep_of_peRun (s := s.withRounds j) hp) 0

/-- A run of the engine up to its last round. -/
theorem runSteps_withRounds {s : State} (hu : s.unattended) (hp : s.core.peRun = true)
    (hr : s.core.rnd = 0) {j : Nat} (hj : j ≤ 23) : runSteps j s = .next (s.withRounds j) := by
  induction j with
  | zero => exact congrArg _ (State.withRounds_zero hr).symm
  | succ j ih =>
    rw [runSteps_add 1 (ih (by omega)), runSteps_one_withRounds hu hp, peStep_withRounds s hj]

theorem State.withRounds_peek (s : State) (j : Nat) (k : MemSpace) (a : Nat) :
    (s.withRounds j).peek k a = s.peek k a := State.peek_withCore s _ k a

theorem State.withRounds_reads (s : State) (j : Nat) : (s.withRounds j).reads = s.reads := rfl

/-- The run of the engine to its end (R116, R117). -/
theorem runSteps_engine {s : State} (hu : s.unattended) (hp : s.core.peRun = true)
    (hr : s.core.rnd = 0) :
    ∃ t, runSteps 24 s = .next t ∧ s.SameMemory t ∧ t.reads = s.reads ∧
      t.core =
        { s.core with
          lanes := keccakF s.core.lanes
          rnd := 0
          peRun := false
          done := s.core.done || decide (s.core.scPhase = .idle ∧ s.core.hoPhase = .idle) } :=
  ⟨peStep (s.withRounds 23),
    (runSteps_add 1 (runSteps_withRounds hu hp hr le_rfl)).trans (runSteps_one_withRounds hu hp 23),
    fun k a => (peStep_peek _ k a).trans (State.withRounds_peek s 23 k a),
    (peStep_reads _).trans (State.withRounds_reads s 23), peStep_withRounds_last s⟩

/-- Settles O34: the run of the engine, from the state the acceptance leaves. -/
theorem permuteAppliesF : Obligations.PermuteAppliesF := by
  intro s hb hu
  obtain ⟨hp, hs, hh⟩ := (CoreRegs.busy_eq_false _).1 hb
  obtain ⟨t, run, memory, reads, core⟩ :=
    runSteps_engine (s := { s with core := s.core.clearStatus.startPe }) hu rfl rfl
  refine ⟨_, t, permuteAcceptanceStartsEngine s hb, rfl, run, ?_,
    fun k a => (memory k a).trans (State.peek_withCore s _ k a), reads⟩
  have ends : decide (s.core.scPhase = .idle ∧ s.core.hoPhase = .idle) = true := by simp [hs, hh]
  simp only [core, CoreRegs.startPe, CoreRegs.clearStatus, ends, Bool.or_true, hp]

end Sys2Proof.Machine
end

section
/-! The Sponge Controller (41_sponge.md R130 to R142): each of its steps byte by byte, a whole pass, and the
commands `SPONGE`, `DIGEST256` and `DIGEST512` from their acceptance to their end. -/

namespace Sys2Proof.Machine

/-! ## Acceptance -/

/-- Settles O19, command by command. -/
theorem spongeAcceptanceStartsPass : Obligations.SpongeAcceptanceStartsPass := by
  rintro s i r d hb hc (⟨rfl, hr, rfl⟩ | ⟨rfl, rfl, rfl⟩ | ⟨rfl, rfl, rfl⟩)
  · obtain ⟨starts, -, -, hrate⟩ := execSponge_starts hb hc
    obtain rfl : s.core.rate.extractLsb' 0 8 = r := BitVec.eq_of_toNat_eq (hrate.trans hr.symm)
    exact starts
  · exact (execDigest256_starts hb hc).1
  · exact (execDigest512_starts hb hc).1

/-! ## The clear step -/

theorem sequencerStep_of_clear {s : State} (hp : s.core.peRun = false) (hs : s.core.scPhase = .clear) :
    sequencerStep s = .next (scClear s) := by
  simp [sequencerStep, hp, controllerStep, hs]

theorem scClear_core (s : State) :
    (scClear s).core =
      { s.core with
        lanes := zeroLanes
        scPhase := .idle
        done := s.core.done || decide (s.core.hoPhase = .idle) } := by
  unfold scClear
  split <;> rename_i hh <;> simp [hh, clearRegs]

/-- Settles O38, on both sides of the HO's phase. -/
theorem clearStepZeroesLanes : Obligations.ClearStepZeroesLanes := fun s hp hs =>
  ⟨scClear s, sequencerStep_of_clear hp hs, scClear_peek s, scClear_core s⟩

/-! ## The absorb step and the pad step -/

theorem add_rate_toNat {p : Word} {r : BitVec 8} (h : p.toNat + r.toNat < 2 ^ 32) :
    (p + r.setWidth 32).toNat = p.toNat + r.toNat := by
  rw [BitVec.toNat_add, rate_toNat, Nat.mod_eq_of_lt h]

theorem sub_rate_toNat {q : Word} {r : BitVec 8} (h : r.toNat ≤ q.toNat) :
    (q - r.setWidth 32).toNat = q.toNat - r.toNat := by
  rw [BitVec.toNat_sub_of_le ((rate_toNat r).trans_le h), rate_toNat]

/-- Input from `IN`, there and not raced, is the bytes that are there (R137). -/
theorem srcBytes_of_inp {s : State} (hs : s.core.src = .inp) (hq : s.quiet) {a n : Nat}
    (h : s.holds .inp (a + n)) :
    srcBytes s a n = some ((List.range n).map fun j => s.peek .inp (a + j)) := by
  simp only [srcBytes, hs]
  exact memRead_quiet hq fun j hj => h _ (by omega)

theorem sequencerStep_of_absorb {s : State} {block : List Byte} (hp : s.core.peRun = false)
    (hs : s.core.scPhase = .absorb) (hr : s.core.rRate.toNat ≤ s.core.rem.toNat)
    (hb : srcBytes s s.core.inPos.toNat s.core.rRate.toNat = some block) :
    sequencerStep s = .next (State.draw { s with core := absorbBlock s.core block }) := by
  simp [sequencerStep, hp, controllerStep, hs, scAbsorb, hr, hb]

theorem sequencerStep_of_absorbEnd {s : State} (hp : s.core.peRun = false)
    (hs : s.core.scPhase = .absorb) (hr : s.core.rem.toNat < s.core.rRate.toNat) :
    sequencerStep s = .next { s with core := { s.core with scPhase := .pad } } := by
  simp [sequencerStep, hp, controllerStep, hs, scAbsorb, Nat.not_le.2 hr]

theorem sequencerStep_of_pad {s : State} {tail : List Byte} (hp : s.core.peRun = false)
    (hs : s.core.scPhase = .pad) (hb : srcBytes s s.core.inPos.toNat s.core.rem.toNat = some tail) :
    sequencerStep s = .next (State.draw { s with core := padBlock s.core tail }) := by
  simp [sequencerStep, hp, controllerStep, hs, scPad, hb]

/-- The bytes of `S` after a block is absorbed (R133). -/
theorem laneByte_absorbBlock (c : CoreRegs) {block : List Byte} {k : Nat} (hb : block.length ≤ 200)
    (hk : k < 200) :
    laneByte (absorbBlock c block).lanes k = laneByte c.lanes k ^^^ block.getD k 0 := by
  simp [absorbBlock, laneByte_xorLaneBytes block c.lanes 0 k (by omega) hk]

/-- Settles O35. -/
theorem absorbStepXorsOneBlock : Obligations.AbsorbStepXorsOneBlock := by
  intro s hp hs hsrc hq hlt hr hh
  refine ⟨fun hle => ?_, sequencerStep_of_absorbEnd hp hs⟩
  have input := srcBytes_of_inp hsrc hq (a := s.core.inPos.toNat) (n := s.core.rRate.toNat)
    fun a ha => hh a (by omega)
  refine ⟨_, sequencerStep_of_absorb hp hs hle input, fun k a => by simp, fun k hk => ?_,
    add_rate_toNat (by omega), sub_rate_toNat hle, rfl⟩
  rw [State.draw_core, laneByte_absorbBlock _ (by simp; omega) hk, getD_map_range]

/-- Settles O36. -/
theorem padStepXorsDomainLastBitAndTail : Obligations.PadStepXorsDomainLastBitAndTail := by
  intro s hp hs hsrc hq hlt hrem hr hh
  refine ⟨_, sequencerStep_of_pad hp hs (srcBytes_of_inp hsrc hq hh), fun k a => by simp, fun k hk => ?_,
    BitVec.toNat_add_of_lt hlt, rfl⟩
  have bytes := laneByte_padLanes s.core.lanes s.core.rRate.toNat s.core.rDom
    ((List.range s.core.rem.toNat).map fun j => s.peek .inp (s.core.inPos.toNat + j)) k
    (by simpa using hrem) hr hk
  rw [getD_map_range, List.length_map, List.length_range] at bytes
  exact bytes

/-! ## The squeeze step -/

theorem sequencerStep_of_squeeze {s u : State} (hp : s.core.peRun = false)
    (hs : s.core.scPhase = .squeeze) (hr : s.core.rRate.toNat ≤ s.core.orem.toNat)
    (hu : deliverBytes s s.core.outPos.toNat (laneBytes s.core.lanes s.core.rRate.toNat) = some u) :
    sequencerStep s = .next (State.draw { u with core := squeezeBlock u.core }) := by
  simp [sequencerStep, hp, controllerStep, hs, scSqueeze, hr, hu]

theorem sequencerStep_of_squeezeEnd {s u : State} (hp : s.core.peRun = false)
    (hs : s.core.scPhase = .squeeze) (hr : s.core.orem.toNat < s.core.rRate.toNat)
    (hu : deliverBytes s s.core.outPos.toNat (laneBytes s.core.lanes s.core.orem.toNat) = some u) :
    sequencerStep s = .next (State.draw { u with core := squeezeTail u.core }) := by
  simp [sequencerStep, hp, controllerStep, hs, scSqueeze, Nat.not_le.2 hr, hu]

/-- A delivery to `OUT`, there and not raced, stores the first `n` bytes of `S` at `OUTPOS` and changes no
register and no other byte (R203). -/
theorem deliver_out {s : State} {n : Nat} (hd : s.core.dst = .out) (hq : s.quiet)
    (hw : s.memoryCanonical) (hlt : s.core.outPos.toNat + n < 2 ^ 32)
    (hh : s.holds .out (s.core.outPos.toNat + n)) :
    ∃ u, deliverBytes s s.core.outPos.toNat (laneBytes s.core.lanes n) = some u ∧ u.core = s.core ∧
      (∀ a, u.peek .out a =
        if s.core.outPos.toNat ≤ a ∧ a < s.core.outPos.toNat + n then
          laneByte s.core.lanes (a - s.core.outPos.toNat)
        else s.peek .out a) ∧
      ∀ a, u.peek .inp a = s.peek .inp a ∧ u.peek .dset a = s.peek .dset a := by
  obtain ⟨u, hu, -, -, -, hcore, hseed, hresult, hinp, hdset, -, -, hout⟩ :=
    deliver_run s n hq hw (by rw [hd]; exact hlt.le) fun _ => hh
  rw [hseed (by simp [hd]), hresult (by simp [hd])] at hcore
  rw [hd] at hout
  exact ⟨u, hu, hcore, hout, fun a => by simp [State.peek, hinp, hdset]⟩

/-- Settles O37: a full block, or the final chunk. -/
theorem squeezeStepStoresStateBytes : Obligations.SqueezeStepStoresStateBytes := by
  intro s hp hs hd hq hw hlt _ _ hh
  have deliver (n : Nat) (hn : n ≤ s.core.orem.toNat) := deliver_out (n := n) hd hq hw (by omega)
    fun a ha => hh a (by omega)
  rcases Nat.lt_or_ge s.core.orem.toNat s.core.rRate.toNat with hr | hr
  · obtain ⟨u, hu, hcore, hout, hother⟩ := deliver _ le_rfl
    refine ⟨_, s.core.orem.toNat, (Nat.min_eq_right hr.le).symm, sequencerStep_of_squeezeEnd hp hs hr hu,
      fun a => by simp [hout], fun a => by simp [hother], ?_, (Nat.sub_self _).symm,
      fun h => absurd hr (Nat.not_lt.2 h), fun _ => ?_⟩
    · rw [State.draw_core, hcore]; exact BitVec.toNat_add_of_lt hlt
    · rw [State.draw_core, hcore]; rfl
  · obtain ⟨u, hu, hcore, hout, hother⟩ := deliver _ hr
    refine ⟨_, s.core.rRate.toNat, (Nat.min_eq_left hr).symm, sequencerStep_of_squeeze hp hs hr hu,
      fun a => by simp [hout], fun a => by simp [hother], ?_, ?_, fun _ => ?_,
      fun h => absurd h (Nat.not_lt.2 hr)⟩
    · rw [State.draw_core, hcore]; exact add_rate_toNat (by omega)
    · rw [State.draw_core, hcore]; exact sub_rate_toNat hr
    · rw [State.draw_core, hcore]; rfl

/-! ## A whole pass -/

/-- From the start of a pass (R132) to its squeeze phase: the machine absorbs its input and has padded the
rest of it, with the PE about to permute (R138). -/
theorem runSteps_absorbAndPad {s : State} {r : BitVec 8} {d : Byte} {src : Source} {n : Word} {dst : Dest}
    {l : Word} {m : List Byte} {c : CoreRegs} (hc : s.core = startSponge r d src n dst l c)
    (hp : c.peRun = false) (hu : s.unattended) (hq : s.quiet) (hr : 1 ≤ r.toNat)
    (hm : srcBytes s 0 n.toNat = some m) :
    ∃ t lanes, runSteps (25 * (n.toNat / r.toNat) + 2) s = .next t ∧ t.host = [] ∧
      (∀ k, t.space k = s.space k) ∧ keccakF lanes = absorbAll m r.toNat d ∧
      t.core =
        { s.core with
          lanes := lanes
          inPos := n
          rem := 0
          peRun := true
          rnd := 0
          scPhase := .squeeze } := by
  generalize hb : n.toNat / r.toNat = b
  have hn : n.toNat = b * r.toNat + n.toNat % r.toNat := by rw [← hb, Nat.div_add_mod']
  have ho : n.toNat % r.toNat < r.toNat := Nat.mod_lt _ hr
  have hlen := srcBytes_length hm
  obtain ⟨u, run, hhost, hspace, hcore⟩ := absorb_phase b s (n.toNat % r.toNat) m hu hq (by simp [hc])
    (by simp [hc, hp]) (by simpa [hc]) (by simpa [hc]) (by simpa [hc])
    (by simpa [hc] using n.isLt) (by simpa [hc])
  have hpos : u.core.inPos.toNat = b * r.toNat := by
    have small : b * r.toNat < 2 ^ 32 := by omega
    rw [hcore]; simpa [hc] using small
  have hrem : u.core.rem.toNat = n.toNat % r.toNat := by
    have small : n.toNat % r.toNat < 2 ^ 32 := by omega
    rw [hcore]; simpa using small
  have hend : u.core.inPos + u.core.rem = n :=
    BitVec.eq_of_toNat_eq (by rw [BitVec.toNat_add_of_lt] <;> omega)
  have input : srcBytes u u.core.inPos.toNat u.core.rem.toNat = some (m.drop (b * r.toNat)) := by
    rw [hn] at hm
    have rest := (srcBytes_split hm).2
    rw [srcBytes_congr hq hspace (by rw [hcore]) (by rw [hcore]) (by rw [hcore]), hpos, hrem]
    simpa using rest
  have step := sequencerStep_of_pad (by rw [hcore]; simp [hc, hp]) (by rw [hcore]) input
  refine ⟨_, (padBlock u.core (m.drop (b * r.toNat))).lanes,
    (runSteps_add 1 run).trans (runSteps_sequencer hhost step 0), hhost, fun k => ?_, ?_, ?_⟩
  · rw [← hspace k]; cases k <;> rfl
  · rw [absorbAll, hlen, hb, mul_comm r.toNat, hcore]; simp [padBlock, hc]
  · rw [State.draw_core, padBlock, hend, hcore]
    rfl

/-- The clear step changes no byte a pass has put out (R136). -/
theorem scClear_outputByte (s : State) (d : Dest) (a : Nat) :
    (scClear s).outputByte d a = s.outputByte d a := by
  cases d <;> simp only [State.outputByte, scClear_core, scClear_peek]

theorem peek_congr {s t : State} {k : MemSpace} (h : t.space k = s.space k) (a : Nat) :
    t.peek k a = s.peek k a := by
  rw [State.peek, State.peek, h]

/-- Settles O39: the absorb phase with the pad step, the squeeze phase, and the clear step. -/
theorem spongePassComputesSponge : Obligations.SpongePassComputesSponge := by
  intro s r d src n dst l m c hc hp hu hq hw hr1 hr2 hm hcap hh
  obtain ⟨u, lanes, run, uhost, uspace, hlanes, ucore⟩ := runSteps_absorbAndPad hc hp hu hq hr1 hm
  obtain ⟨udst, urate, upos, uorem⟩ :
      u.core.dst = dst ∧ u.core.rRate = r ∧ u.core.outPos = 0 ∧ u.core.orem = l := by
    rw [ucore]; simp [hc]
  have hl : l.toNat = l.toNat / r.toNat * r.toNat + l.toNat % r.toNat := (Nat.div_add_mod' _ _).symm
  have squeeze := squeeze_phase (l.toNat / r.toNat) u (l.toNat % r.toNat) uhost (quiet_of_space hq uspace)
    (canonical_of_space hw uspace) (by rw [ucore]) (by rw [ucore]) (by rw [ucore])
  simp only [udst, urate, upos, uorem, BitVec.toNat_zero, BitVec.ofNat_eq_ofNat, Nat.zero_add] at squeeze
  obtain ⟨v, vrun, vhost, -, -, vinp, vdset, vout, vseed, vresult, ⟨_, vcore⟩, vbytes⟩ :=
    squeeze hr1 hr2 hl (Nat.mod_lt _ hr1) l.isLt hcap
      fun h a ha => (provides_of_space uspace .out a).trans (hh h a ha)
  have clear := sequencerStep_of_clear (s := v) (by rw [vcore]) (by rw [vcore])
  have memory (k : MemSpace) (h : v.space k = u.space k) (a : Nat) : (scClear v).peek k a = s.peek k a :=
    (scClear_peek v k a).trans (peek_congr (h.trans (uspace k)) a)
  have total : 25 * (n.toNat / r.toNat + 1 + l.toNat / r.toNat) + 3 =
      25 * (n.toNat / r.toNat) + 2 + (25 * (l.toNat / r.toNat + 1) + 1) := by omega
  refine ⟨scClear v, ?_, fun a => ?_, ?_, fun h => ?_, fun h => ?_, fun a => ?_, fun h a => ?_⟩
  · rw [total, runSteps_add _ run, runSteps_add _ vrun]
    exact runSteps_sequencer vhost clear 0
  · have kept : u.outputByte dst a = s.outputByte dst a :=
      outputByte_congr dst a uspace (by rw [ucore]) (by rw [ucore])
    have start : u.core.lanes = lanes := by rw [ucore]
    simpa [scClear_outputByte, kept, start, hlanes, spongeFn] using vbytes a
  · rw [scClear_core, vcore, ucore]
    simp [hc, hp, zeroLanes]
  · rw [scClear_core]; exact (vseed h).trans (by rw [ucore])
  · rw [scClear_core]; exact (vresult h).trans (by rw [ucore])
  · exact ⟨memory .inp vinp a, memory .dset vdset a⟩
  · exact memory .out (vout h) a

/-! ## The commands -/

/-- The state a host's sponge-type command leaves at its acceptance (R132, R139 to R141). -/
def State.startedPass (s : State) (r : BitVec 8) (d : Byte) : State :=
  { s with core := startSponge r d .inp s.core.inLen .out s.core.outLen s.core.clearStatus }

theorem State.startedPass_space (s : State) (r : BitVec 8) (d : Byte) (k : MemSpace) :
    (s.startedPass r d).space k = s.space k := by cases k <;> rfl

/-- What such a command has done at its end: `OUT` starts with `OUTLEN` bytes of `output`, `S` is zero,
`DONE` is set without error, and nothing else has changed. -/
def State.EndsPassWith (s t : State) (output : List Byte) : Prop :=
  (∀ a, t.peek .out a = if a < s.core.outLen.toNat then output.getD a 0 else s.peek .out a) ∧
    (∀ a, t.peek .inp a = s.peek .inp a ∧ t.peek .dset a = s.peek .dset a) ∧
    t.core.lanes = Vector.replicate 25 0 ∧ t.core.busy = false ∧ t.core.done = true ∧
    t.core.err = false ∧ t.core.errCode = 0 ∧ s.core.SameOperands t.core ∧
    t.core.seed = s.core.seed ∧ t.core.mix = s.core.mix ∧ t.core.acc = s.core.acc ∧
    t.core.result = s.core.result ∧ t.core.mixHash = s.core.mixHash

/-- The pass of a host's command, from its acceptance to its end. -/
theorem runSteps_startedPass {s : State} {r : BitVec 8} (d : Byte) (hb : s.core.busy = false)
    (hu : s.unattended) (hq : s.quiet) (hw : s.memoryCanonical) (hr1 : 1 ≤ r.toNat) (hr2 : r.toNat ≤ 199)
    (hin : s.holds .inp s.core.inLen.toNat) (hout : s.holds .out s.core.outLen.toNat) :
    ∃ t,
      runSteps (25 * (s.core.inLen.toNat / r.toNat + 1 + s.core.outLen.toNat / r.toNat) + 3)
          (s.startedPass r d) = .next t ∧
      s.EndsPassWith t
        (spongeFn s.core.outLen.toNat (s.bytes .inp s.core.inLen.toNat) r.toNat d) := by
  obtain ⟨hp, -, hh⟩ := (CoreRegs.busy_eq_false _).1 hb
  have space := s.startedPass_space r d
  have peek := peek_of_space space
  have quiet := quiet_of_space hq space
  have input : srcBytes (s.startedPass r d) 0 s.core.inLen.toNat =
      some (s.bytes .inp s.core.inLen.toNat) := by
    rw [srcBytes_of_inp rfl quiet fun a ha =>
      (provides_of_space space .inp a).trans (hin a (by omega))]
    simp [State.bytes, peek]
  obtain ⟨t, run, bytes, core, seed, result, others, -⟩ := spongePassComputesSponge (s.startedPass r d) r d
    .inp _ .out _ _ s.core.clearStatus rfl hp hu quiet (canonical_of_space hw space) hr1 hr2
    input s.core.outLen.isLt.le fun _ a ha => (provides_of_space space .out a).trans (hout a ha)
  rw [seed (by decide), result (by decide)] at core
  refine ⟨t, run, fun a => ?_, fun a => ?_, ?_⟩
  · simpa [State.outputByte, peek] using bytes a
  · simpa [peek] using others a
  · rw [core]
    exact ⟨rfl, by simp [CoreRegs.busy, State.startedPass, hp, hh], by simp [hh], rfl, rfl,
      { CoreRegs.SameOperands.refl s.core with }, rfl, rfl, rfl, rfl, rfl⟩

/-- Settles O40: the accepted rate is `RATE`, and the pass does the rest. -/
theorem spongeCommandWritesSpongeOutput : Obligations.SpongeCommandWritesSpongeOutput := by
  intro s hb hu hq hw hc hin hout
  obtain ⟨starts, hr1, hr2, hrate⟩ := execSponge_starts hb hc
  rw [← hrate] at hr1 hr2 ⊢
  obtain ⟨t, run, ends⟩ := runSteps_startedPass s.core.domain hb hu hq hw hr1 hr2 hin hout
  exact ⟨_, t, starts, run, ends⟩

/-- An output shorter than the rate is taken from `S` with no further permutation (R206). -/
theorem spongeFn_of_lt {l r : Nat} (m : List Byte) (d : Byte) (h : l < r) :
    spongeFn l m r d = laneBytes (absorbAll m r d) l := by
  rw [spongeFn, Nat.div_eq_of_lt h, Nat.mod_eq_of_lt h, squeezeLoop]

/-- Below the rate, a byte of a shorter output is that byte of a longer one (R206). -/
theorem spongeFn_getD_of_lt {l l' r : Nat} (m : List Byte) (d : Byte) {a : Nat} (ha : a < l) (hl : l ≤ l')
    (hr : l' < r) : (spongeFn l m r d).getD a 0 = (spongeFn l' m r d).getD a 0 := by
  rw [spongeFn_of_lt m d (by omega), spongeFn_of_lt m d hr, laneBytes_getD _ _ _ ha,
    laneBytes_getD _ _ _ (by omega)]

/-- The pass of a digest command: its output is no longer than its nominal size, below the rate, so the
squeeze phase never starts the PE. -/
theorem runSteps_digestPass {s : State} {r : BitVec 8} {size : Nat} (hb : s.core.busy = false)
    (hu : s.unattended) (hq : s.quiet) (hw : s.memoryCanonical) (hin : s.holds .inp s.core.inLen.toNat)
    (hout : s.holds .out s.core.outLen.toNat) (hl : s.core.outLen.toNat ≤ size) (hsize : size < r.toNat)
    (hr : r.toNat ≤ 199) :
    ∃ t,
      runSteps (25 * (s.core.inLen.toNat / r.toNat + 1) + 3) (s.startedPass r domainByte) = .next t ∧
      s.EndsPassWith t (spongeFn size (s.bytes .inp s.core.inLen.toNat) r.toNat domainByte) := by
  obtain ⟨t, run, bytes, frame⟩ := runSteps_startedPass domainByte hb hu hq hw (by omega) hr hin hout
  rw [Nat.div_eq_of_lt (hl.trans_lt hsize), Nat.add_zero] at run
  exact ⟨t, run, fun a => (bytes a).trans (ite_congr rfl (fun ha => spongeFn_getD_of_lt _ _ ha hl hsize)
    fun _ => rfl), frame⟩

/-- Settles O41, digest by digest. -/
theorem digestCommandsWriteKeccakDigests : Obligations.DigestCommandsWriteKeccakDigests := by
  rintro s i digest r hb hu hq hw hc hin hout (⟨rfl, rfl, rfl⟩ | ⟨rfl, rfl, rfl⟩)
  · obtain ⟨starts, hl⟩ := execDigest256_starts hb hc
    obtain ⟨t, run, ends⟩ := runSteps_digestPass (r := rate256) hb hu hq hw hin hout hl (by decide) (by decide)
    exact ⟨_, t, starts, run, ends⟩
  · obtain ⟨starts, hl⟩ := execDigest512_starts hb hc
    obtain ⟨t, run, ends⟩ := runSteps_digestPass (r := rate512) hb hu hq hw hin hout hl (by decide) (by decide)
    exact ⟨_, t, starts, run, ends⟩

end Sys2Proof.Machine
end

section
/-! The Mixing Primitive, and the commands `MIX` and `FOLD` (42_mixing.md R160 to R164). -/

namespace Sys2Proof.Machine

/-! ## `mix` -/

/-- `mix` in natural numbers (R160). -/
theorem mixFn_toNat (x y : Word) : (mixFn x y).toNat = (16777619 * x.toNat % 2 ^ 32) ^^^ y.toNat := by
  rw [mixFn, mul32, BitVec.toNat_xor, BitVec.toNat_mul]
  rfl

/-- `PRIME` is odd; its inverse modulo 2^32 is 0x359C449B (R161). -/
theorem prime_isUnit : IsUnit prime := .of_mul_eq_one 0x359C449B (by decide)

/-- The product by a unit, then an involution (R161). -/
theorem mixFn_bijective_left (y : Word) : Function.Bijective fun x => mixFn x y :=
  (xor_left_involutive y).bijective.comp (IsUnit.isUnit_iff_mulLeft_bijective.1 prime_isUnit)

/-- XOR with a fixed word is an involution (R161). -/
theorem mixFn_bijective_right (x : Word) : Function.Bijective fun y => mixFn x y :=
  (xor_right_involutive (mul32 x prime)).bijective

/-- Settles O13: `mixFn` is not commutative at 0 and 1, and not associative at 1, 0 and 0. -/
theorem mixIsPrimeProductXorAndBijective : Obligations.MixIsPrimeProductXorAndBijective :=
  ⟨mixFn_toNat, mixFn_bijective_left, mixFn_bijective_right, ⟨0, 1, by decide⟩, ⟨1, 0, 0, by decide⟩⟩

/-! ## The two commands -/

/-- Settles O10: the acceptance is `acceptMix`; the values are `mixFn` evaluated. -/
theorem mixWritesAccumulator : Obligations.MixWritesAccumulator := by
  have onlyTopBit : mul32 0x80000000 prime = 0x80000000 := by decide
  exact ⟨fun _ hb => acceptance_of_idle acceptMix _ hb, by decide, by decide, by decide,
    fun y => congrArg (· ^^^ y) onlyTopBit, by decide⟩

/-- Settles O11: the acceptance is `acceptFold`. -/
theorem foldWritesAccumulator : Obligations.FoldWritesAccumulator :=
  fun _ hb => acceptance_of_idle acceptFold _ hb

/-! ## A fold of several words -/

/-- A scheduled issue of a command is its acceptance (R91, R97). -/
theorem step_issue (s : State) (i : Instr) (rest : List HostMove) :
    step { s with host := issue i :: rest } = exec i { s with host := rest } :=
  (step_writeCmd s (encode i) rest).trans (writeCmd_of_decodes (decodeWord_encode i) _)

/-- The first step of a run. -/
theorem runSteps_succ_of_next {s t : State} (h : step s = .next t) (n : Nat) :
    runSteps (n + 1) s = runSteps n t := by
  simp only [runSteps, h]

/-- The registers after `WR OPB, w` and `FOLD` on an idle CORE (R164). -/
def CoreRegs.foldIn (c : CoreRegs) (w : Word) : CoreRegs :=
  { c with acc := mixFn c.acc w, opb := w, done := true, err := false, errCode := 0 }

/-- `WR OPB, w` and `FOLD`, first in the schedule of an idle CORE, fold `w` into `ACC`. -/
theorem runSteps_foldIn {s : State} (hb : s.core.busy = false) (n : Nat) (w : Word) (rest : List HostMove) :
    runSteps (n + 2) { s with host := wr .opb w :: issue .fold :: rest } =
      runSteps n { s with host := rest, core := s.core.foldIn w } := by
  have writes := step_write s .opb w (issue .fold :: rest) hb (by decide)
  have folds : step { s with host := issue .fold :: rest, core := s.core.writeReg .opb w } =
      .next { s with host := rest, core := s.core.foldIn w } :=
    (step_issue { s with core := s.core.writeReg .opb w } .fold rest).trans (foldWritesAccumulator _ hb)
  rw [runSteps_succ_of_next writes, runSteps_succ_of_next folds]

/-- A schedule that folds words into `ACC`, the first one first. -/
theorem runSteps_folds {s : State} (hb : s.core.busy = false) (ws : List Word) :
    runSteps (2 * ws.length) { s with host := ws.flatMap fun w => [wr .opb w, issue .fold] } =
      .next { s with host := [], core := ws.foldl CoreRegs.foldIn s.core } := by
  induction ws generalizing s with
  | nil => rfl
  | cons w ws ih => exact (runSteps_foldIn hb _ w _).trans (ih (s := { s with core := s.core.foldIn w }) hb)

/-- Settles O12: after the write of `ACC` the schedule folds three words. -/
theorem threeFoldsComputeFold4 : Obligations.ThreeFoldsComputeFold4 := by
  intro s w0 w1 w2 w3 hb
  exact ⟨rfl, (runSteps_succ_of_next (step_write s .acc w0 _ hb (by decide)) 6).trans
    (runSteps_folds (s := { s with core := s.core.writeReg .acc w0 }) hb [w1, w2, w3])⟩

end Sys2Proof.Machine
end

section
/-! Runs of a machine left to itself that change no byte of memory, said by the registers they end with. -/

namespace Sys2Proof.Machine

/-- The machine is left to itself with nothing raced, its memories in their canonical form, the first `n`
bytes of `DSET` there, and `d` the bytes of `DSET`. -/
structure State.Serves (s : State) (n : Nat) (d : Nat → Byte) : Prop where
  unattended : s.unattended
  quiet : s.quiet
  canonical : s.memoryCanonical
  holds : s.holds .dset n
  dataset : s.peek .dset = d

theorem runSteps_memoryCanonical {n : Nat} {s t : State} (h : runSteps n s = .next t)
    (hw : s.memoryCanonical) : t.memoryCanonical := by
  induction n generalizing s with
  | zero => cases h; exact hw
  | succ n ih =>
    simp only [runSteps] at h
    split at h
    · rename_i u hu; exact ih h ((everyStepKeepsMemoryCanonical _ _ hu).1 hw)
    · cases h
    · cases h

/-- A run that changes no byte keeps all of it. -/
theorem State.Serves.after {s t : State} {n m : Nat} {d : Nat → Byte} (hs : s.Serves n d)
    (run : runSteps m s = .next t) (memory : s.SameMemory t) : t.Serves n d := by
  obtain ⟨hu, -, -, hq⟩ := runSteps_keeps hs.unattended run
  exact
    { unattended := hu
      quiet := hq hs.quiet
      canonical := runSteps_memoryCanonical run hs.canonical
      holds := fun a ha => (runSteps_provides hs.unattended run .dset a).trans (hs.holds a ha)
      dataset := (funext (memory .dset)).trans hs.dataset }

theorem State.Serves.withCore {s : State} {n : Nat} {d : Nat → Byte} (hs : s.Serves n d) (c : CoreRegs) :
    State.Serves { s with core := c } n d where
  unattended := hs.unattended
  quiet k := by have := hs.quiet k; cases k <;> exact this
  canonical := canonical_withCore c hs.canonical
  holds := hs.holds
  dataset := hs.dataset

/-- `n` steps end with the registers `c`, and change no byte of memory. -/
def State.RunsTo (s : State) (n : Nat) (c : CoreRegs) : Prop :=
  ∃ t, runSteps n s = .next t ∧ s.SameMemory t ∧ t.core = c

theorem State.RunsTo.of_step {s t : State} {c : CoreRegs} (hu : s.unattended)
    (h : sequencerStep s = .next t) (memory : s.SameMemory t) (hc : t.core = c) : s.RunsTo 1 c :=
  ⟨t, runSteps_sequencer hu h 0, memory, hc⟩

/-- A step that changes the registers only. -/
theorem State.RunsTo.of_registers {s : State} {c c' : CoreRegs} (hu : s.unattended)
    (h : sequencerStep s = .next { s with core := c }) (hc : c = c') : s.RunsTo 1 c' :=
  .of_step hu h (State.peek_withCore s c) hc

/-- A run put before another. -/
theorem State.RunsTo.of_run {s t : State} {m m' : Nat} {c : CoreRegs} (h : t.RunsTo m' c)
    (run : runSteps m s = .next t) (memory : s.SameMemory t) : s.RunsTo (m + m') c := by
  obtain ⟨u, run', memory', core⟩ := h
  exact ⟨u, (runSteps_add m' run).trans run', fun k a => (memory' k a).trans (memory k a), core⟩

theorem State.RunsTo.trans {s : State} {n m m' : Nat} {d : Nat → Byte} {c c' : CoreRegs}
    (h : s.RunsTo m c) (hs : s.Serves n d)
    (h' : ∀ t : State, t.Serves n d → t.core = c → t.RunsTo m' c') : s.RunsTo (m + m') c' := by
  obtain ⟨t, run, memory, core⟩ := h
  exact (h' t (hs.after run memory) core).of_run run memory

end Sys2Proof.Machine
end

section
/-! The steps of the Hash Orchestrator, from the acceptance of `HASH` on (43_orchestrator.md R172 to R181). -/

namespace Sys2Proof.Machine

/-- The PE and the SC are at rest, and the HO's next action is `p`. -/
structure CoreRegs.Resting (c : CoreRegs) (p : HoPhase) : Prop where
  peRun : c.peRun = false
  scPhase : c.scPhase = .idle
  hoPhase : c.hoPhase = p

/-! ## Acceptance -/

theorem loadSeed_words (c : CoreRegs) :
    (∀ k : Fin 8, (loadSeed c)[k.val] = c.hdr[k]) ∧ (loadSeed c)[8] = c.nonceLo ∧
      (loadSeed c)[9] = c.nonceHi ∧ ∀ w : Fin 16, 10 ≤ w.val → (loadSeed c)[w] = c.seed[w] := by
  refine ⟨fun k => ?_, ?_, ?_, fun w hw => ?_⟩
  · simp [loadSeed]
  · simp [loadSeed]
  · simp [loadSeed]
  · simp [loadSeed, show ¬w.val < 8 by omega, show w.val ≠ 8 by omega, show w.val ≠ 9 by omega]

/-- Settles O20: the acceptance is `startHash`, its `SEED` is `loadSeed` word by word. -/
theorem hashAcceptanceStartsExpansion : Obligations.HashAcceptanceStartsExpansion := by
  intro s hb hc
  obtain ⟨starts, -, -, -, -, pages⟩ := execHash_starts hb hc
  obtain ⟨header, nonceLo, nonceHi, others⟩ := loadSeed_words (clearRecord s.core.clearStatus)
  refine ⟨_, _, header, nonceLo, nonceHi, others, ?_, starts⟩
  have size := s.core.fullSize_toNat
  show (s.core.fullSize.extractLsb' 7 32).toNat * 128 = _
  omega

/-! ## The page of a round -/

theorem pageIndex_toNat (pages s0 : Word) (i : Nat) (m : Word) :
    (pageIndex pages s0 i m).toNat =
      (((16777619 * (s0 ^^^ BitVec.ofNat 32 i).toNat) % 2 ^ 32) ^^^ m.toNat) % pages.toNat := by
  rw [pageIndex, BitVec.toNat_umod, mixFn_toNat]

theorem pageIndex_lt {pages : Word} (hp : pages ≠ 0) (s0 : Word) (i : Nat) (m : Word) :
    (pageIndex pages s0 i m).toNat < pages.toNat := by
  rw [pageIndex, BitVec.toNat_umod]
  exact Nat.mod_lt _ ((word_ne_zero pages).1 hp)

/-- Settles O43, by `pageIndex_lt`. -/
theorem fetchesStayInsideThePages : Obligations.FetchesStayInsideThePages := by
  intro pages s0 m i j b hp hj hb
  have := pageIndex_lt hp s0 i m
  refine ⟨pageIndex_toNat pages s0 i m, ?_⟩
  unfold blockAddr
  omega

/-! ## The access step -/

/-- Byte `128 * page + a` of the page is byte `a mod 64` of its word-block `a div 64` (R68, R177). -/
theorem datasetWord_of_page (d : Nat → Byte) (page : Word) {w : Nat} (hw : w < 32) :
    datasetWord ((List.range 64).map fun j => d (blockAddr page 0 + j))
        ((List.range 64).map fun j => d (blockAddr page 1 + j)) w =
      wordOfBytes (d (128 * page.toNat + 4 * w)) (d (128 * page.toNat + 4 * w + 1))
        (d (128 * page.toNat + 4 * w + 2)) (d (128 * page.toNat + 4 * w + 3)) := by
  have byte {j : Nat} (hj : j < 4) :
      (if w < 16 then (List.range 64).map fun j => d (blockAddr page 0 + j)
          else (List.range 64).map fun j => d (blockAddr page 1 + j)).getD (4 * (w % 16) + j) 0 =
        d (128 * page.toNat + 4 * w + j) := by
    split <;> rw [getD_map_range, if_pos (by omega), blockAddr] <;> congr 1 <;> omega
  rw [datasetWord, le32, byte (j := 1) (by decide), byte (j := 2) (by decide), byte (j := 3) (by decide)]
  exact congrArg (wordOfBytes · _ _ _) (byte (j := 0) (by decide))

/-- The registers after an access round over the dataset `d` (R175). -/
def CoreRegs.afterAccess (c : CoreRegs) (d : Nat → Byte) : CoreRegs :=
  { c with
    mix := hashRound c.seed[0] c.pages d c.mix c.i.val
    i := if c.i = 63 then 63 else c.i + 1
    k := if c.i = 63 then 0 else c.k
    hoPhase := if c.i = 63 then .fold else c.hoPhase }

/-- Where the pages are there and not raced, the access step is R182's round. -/
theorem sequencerStep_of_access {s : State} (hr : s.core.Resting .access) (hpages : s.core.pages ≠ 0)
    (hq : s.quiet) (hh : s.holds .dset (128 * s.core.pages.toNat)) :
    sequencerStep s = .next (State.draw { s with core := s.core.afterAccess (s.peek .dset) }) := by
  obtain ⟨hp, hs, hho⟩ := hr
  have page := pageIndex_lt hpages s.core.seed[0] s.core.i.val (s.core.mix[s.core.i.val % 32])
  have fetch (j : Nat) (hj : j < 2) : s.memRead .dset (blockAddr s.core.nextPage j) 64 =
      some ((List.range 64).map fun b => s.peek .dset (blockAddr s.core.nextPage j + b)) := by
    refine memRead_quiet hq fun b hb => hh _ ?_
    rw [CoreRegs.nextPage, blockAddr]
    omega
  have mixed : mixBlocks s.core.mix
      ((List.range 64).map fun b => s.peek .dset (blockAddr s.core.nextPage 0 + b))
      ((List.range 64).map fun b => s.peek .dset (blockAddr s.core.nextPage 1 + b)) =
        hashRound s.core.seed[0] s.core.pages (s.peek .dset) s.core.mix s.core.i.val := by
    simp only [mixBlocks, datasetWord_of_page _ _ (Fin.is_lt _)]
    rfl
  simp only [sequencerStep, hp, controllerStep, hs, hho, hoAccess, fetch 0 (by decide),
    fetch 1 (by decide), accessRegs, mixed, CoreRegs.afterAccess]
  by_cases hi : s.core.i = 63 <;> simp [hi]

/-- Settles O44: the step is one `hashRound`. -/
theorem accessRoundMixesOnePage : Obligations.AccessRoundMixesOnePage := by
  intro s hp hs hho hpages hq hh
  refine ⟨_, _, rfl, sequencerStep_of_access ⟨hp, hs, hho⟩ hpages hq hh, fun k a => by simp,
    fun w => ?_, ?_⟩
  · exact Vector.getElem_ofFn _
  · rw [State.draw_core, CoreRegs.afterAccess, hho]

/-! ## The fold step -/

/-- The mix words after the first `j` fold steps over `m`. -/
def foldedMix (m : Vector Word 32) (j : Nat) : Vector Word 32 :=
  Vector.ofFn fun w => if h : w.val < 8 ∧ w.val < j then foldGroup m ⟨w.val, h.1⟩ else m[w]

theorem foldedMix_zero (m : Vector Word 32) : foldedMix m 0 = m := by
  apply Vector.ext
  simp [foldedMix]

/-- A word the first `j` fold steps have not reached. -/
theorem foldedMix_of_ge (m : Vector Word 32) {j w : Nat} (hw : w < 32) (h : 8 ≤ w ∨ j ≤ w) :
    (foldedMix m j)[w] = m[w] := by
  rw [foldedMix, Vector.getElem_ofFn]
  exact dif_neg (by dsimp only; omega)

theorem foldedMix_of_lt (m : Vector Word 32) {j : Nat} (k : Fin 8) (h : k.val < j) :
    (foldedMix m j)[k.val] = foldGroup m k := by
  rw [foldedMix, Vector.getElem_ofFn]
  exact dif_pos ⟨k.isLt, h⟩

/-- Group `j` lies above the words the steps before it have written (R185). -/
theorem foldGroup_foldedMix (m : Vector Word 32) (j : Fin 8) :
    foldGroup (foldedMix m j.val) j = foldGroup m j := by
  unfold foldGroup
  simp only [foldedMix_of_ge m (j := j.val) (w := 4 * j.val) _ (.inr (by omega)),
    foldedMix_of_ge m (j := j.val) (w := 4 * j.val + 1) _ (.inr (by omega)),
    foldedMix_of_ge m (j := j.val) (w := 4 * j.val + 2) _ (.inr (by omega)),
    foldedMix_of_ge m (j := j.val) (w := 4 * j.val + 3) _ (.inr (by omega))]

theorem set_foldedMix (m : Vector Word 32) (j : Fin 8) :
    (foldedMix m j.val).set j.val (foldGroup m j) = foldedMix m (j.val + 1) := by
  apply Vector.ext
  intro w hw
  rcases eq_or_ne j.val w with rfl | hne
  · rw [Vector.getElem_set_self, foldedMix_of_lt m j (Nat.lt_succ_self _)]
  · rw [Vector.getElem_set_ne _ _ hne]
    simp only [foldedMix, Vector.getElem_ofFn, show w < j.val ↔ w < j.val + 1 by omega]

theorem sequencerStep_of_fold {s : State} (hr : s.core.Resting .fold) :
    sequencerStep s = .next { s with core := hoFold s.core } := by
  obtain ⟨hp, hs, hho⟩ := hr
  simp [sequencerStep, hp, controllerStep, hs, hho]

/-- The registers after `j` fold steps, and before the last one. -/
def CoreRegs.withFolds (c : CoreRegs) (j : Fin 8) (acc : Word) : CoreRegs :=
  { c with mix := foldedMix c.mix j.val, acc := acc, k := j }

/-- The registers after all the fold steps (R179). -/
def CoreRegs.afterFolds (c : CoreRegs) : CoreRegs :=
  { c with mix := foldedMix c.mix 8, acc := foldGroup c.mix 7, k := 7, hoPhase := .final }

theorem CoreRegs.withFolds_zero {c : CoreRegs} (hk : c.k = 0) : c.withFolds 0 c.acc = c := by
  rw [CoreRegs.withFolds, Fin.val_zero, foldedMix_zero, ← hk]

theorem CoreRegs.Resting.withFolds {c : CoreRegs} {p : HoPhase} (hr : c.Resting p) (j : Fin 8) (acc : Word) :
    (c.withFolds j acc).Resting p := by
  obtain ⟨hp, hs, hho⟩ := hr
  constructor <;> simpa only [CoreRegs.withFolds]

/-- A fold step before the last (R179). -/
theorem hoFold_withFolds (c : CoreRegs) (j : Fin 7) (acc : Word) :
    hoFold (c.withFolds j.castSucc acc) = c.withFolds j.succ (foldGroup c.mix j.castSucc) := by
  have notLast : j.castSucc ≠ 7 := Fin.castSucc_ne_last j
  have count : j.castSucc.val + 1 = j.succ.val := rfl
  simp only [hoFold, CoreRegs.withFolds, foldGroup_foldedMix, set_foldedMix, if_neg notLast,
    Fin.coeSucc_eq_succ, count]

theorem hoFold_withFolds_last (c : CoreRegs) (acc : Word) :
    hoFold (c.withFolds 7 acc) = c.afterFolds := by
  have group := foldGroup_foldedMix c.mix 7
  have words := set_foldedMix c.mix 7
  simp only [hoFold, CoreRegs.withFolds, CoreRegs.afterFolds, group, words, if_true]
  rfl

section
variable {s : State} (hu : s.unattended) (hr : s.core.Resting .fold)
include hu hr

theorem runSteps_one_withFolds (j : Fin 8) (acc : Word) :
    runSteps 1 { s with core := s.core.withFolds j acc } =
      .next { s with core := hoFold (s.core.withFolds j acc) } :=
  runSteps_sequencer (s := { s with core := s.core.withFolds j acc }) hu
    (sequencerStep_of_fold (s := { s with core := s.core.withFolds j acc }) (hr.withFolds j acc)) 0

/-- The fold steps before the last. -/
theorem runSteps_withFolds (hk : s.core.k = 0) (j : Fin 8) :
    ∃ acc, runSteps j.val s = .next { s with core := s.core.withFolds j acc } := by
  induction j using Fin.induction with
  | zero => exact ⟨s.core.acc, by rw [CoreRegs.withFolds_zero hk, Fin.val_zero, runSteps]⟩
  | succ j ih =>
    obtain ⟨acc, run⟩ := ih
    refine ⟨foldGroup s.core.mix j.castSucc, (runSteps_add 1 run).trans ?_⟩
    rw [runSteps_one_withFolds hu hr, hoFold_withFolds]

/-- The eight fold steps (R179). -/
theorem runSteps_folding (hk : s.core.k = 0) :
    runSteps 8 s = .next { s with core := s.core.afterFolds } := by
  obtain ⟨acc, run⟩ := runSteps_withFolds hu hr hk 7
  exact (runSteps_add 1 run).trans (by rw [runSteps_one_withFolds hu hr, hoFold_withFolds_last])

end

/-- Settles O45: no fold step reads a word an earlier one wrote, so `MIX` ends as `foldedMix`. -/
theorem eightFoldsCompressInPlace : Obligations.EightFoldsCompressInPlace := by
  intro s hu hp hs hho hk
  refine ⟨_, runSteps_folding hu ⟨hp, hs, hho⟩ hk, fun k a => State.peek_withCore s _ k a, fun k => ?_,
    fun w hw => ?_, ?_⟩
  · exact foldedMix_of_lt s.core.mix k k.isLt
  · exact foldedMix_of_ge s.core.mix w.isLt (.inl hw)
  · have last : (foldedMix s.core.mix 8)[7] = foldGroup s.core.mix 7 :=
      foldedMix_of_lt s.core.mix 7 (by decide)
    rw [CoreRegs.afterFolds, last]

/-! ## The tile, final and end steps -/

theorem sequencerStep_of_tile {s : State} (hr : s.core.Resting .tile) :
    sequencerStep s = .next { s with core := hoTile s.core } := by
  obtain ⟨hp, hs, hho⟩ := hr
  simp [sequencerStep, hp, controllerStep, hs, hho]

theorem sequencerStep_of_final {s : State} (hr : s.core.Resting .final) :
    sequencerStep s = .next { s with core := hoFinal s.core } := by
  obtain ⟨hp, hs, hho⟩ := hr
  simp [sequencerStep, hp, controllerStep, hs, hho]

theorem sequencerStep_of_finish {s : State} (hr : s.core.Resting .finish) :
    sequencerStep s = .next (hoEnd s) := by
  obtain ⟨hp, hs, hho⟩ := hr
  simp [sequencerStep, hp, controllerStep, hs, hho]

theorem hoEnd_peek (s : State) (k : MemSpace) (a : Nat) : (hoEnd s).peek k a = s.peek k a :=
  (State.peek_finish _ k a).trans (State.peek_withCore s _ k a)

/-- `MIX` holds `SEED` twice (R174). -/
theorem tileMix_words (seed : Vector Word 16) (w : Fin 16) :
    (tileMix seed)[w.val] = seed[w] ∧ (tileMix seed)[w.val + 16] = seed[w] := by
  simp [tileMix, Nat.mod_eq_of_lt]

/-- Settles O46, step by step. -/
theorem tileFinalAndEndSteps : Obligations.TileFinalAndEndSteps := by
  intro s hp hs
  refine ⟨fun hho => ⟨tileMix s.core.seed, tileMix_words s.core.seed, sequencerStep_of_tile ⟨hp, hs, hho⟩⟩,
    fun hho => ⟨mixHashOf s.core.mix, fun k => Vector.getElem_ofFn _, sequencerStep_of_final ⟨hp, hs, hho⟩⟩,
    fun hho => ⟨hoEnd s, sequencerStep_of_finish ⟨hp, hs, hho⟩, hoEnd_peek s, ?_, rfl⟩⟩
  exact (CoreRegs.busy_eq_false _).2 ⟨hp, hs, rfl⟩

end Sys2Proof.Machine
end

section
/-! The command `HASH` from its acceptance to its end (43_orchestrator.md R172 to R184). -/

namespace Sys2Proof.Machine

/-! ## The expansion pass and the final pass -/

theorem spongeFn_length (l : Nat) (m : List Byte) (r : Nat) (d : Byte) : (spongeFn l m r d).length = l := by
  rw [spongeFn, squeezeLoop_length, Nat.div_add_mod']

/-- The registers after a pass of `n` bytes of input and `l` of output into `SEED` or `RESULT`. -/
def CoreRegs.passEnded (c : CoreRegs) (n l : Word) (seed : Vector Word 16) (result : Vector Word 8) :
    CoreRegs :=
  { c with
    lanes := Vector.replicate 25 0
    rnd := 0
    scPhase := .idle
    inPos := n
    rem := 0
    outPos := l
    orem := 0
    seed := seed
    result := result }

/-- A pass of the Hash Orchestrator: it fills `SEED` or `RESULT` with the output of `Sponge` (R138, R203). -/
theorem runsTo_pass {s : State} {r : BitVec 8} {dom : Byte} {src : Source} {n : Word} {dst : Dest} {l : Word}
    {m : List Byte} {c : CoreRegs} {k : Nat} {d : Nat → Byte} (hs : s.Serves k d)
    (hc : s.core = startSponge r dom src n dst l c) (hp : c.peRun = false) (hh : c.hoPhase ≠ .idle)
    (hr1 : 1 ≤ r.toNat) (hr2 : r.toNat ≤ 199) (hm : srcBytes s 0 n.toNat = some m)
    (hd : dst ≠ .out) (hcap : l.toNat ≤ dst.capacity) :
    ∃ seed result,
      s.RunsTo (25 * (n.toNat / r.toNat + 1 + l.toNat / r.toNat) + 3)
          (s.core.passEnded n l seed result) ∧
      (dst = .seed → result = s.core.result ∧
        (List.range l.toNat).map (wordByte seed) = spongeFn l.toNat m r.toNat dom) ∧
      (dst = .result → seed = s.core.seed ∧
        (List.range l.toNat).map (wordByte result) = spongeFn l.toNat m r.toNat dom) := by
  obtain ⟨t, run, bytes, core, seed, result, others, out⟩ := spongePassComputesSponge s r dom src n dst l m c
    hc hp hs.unattended hs.quiet hs.canonical hr1 hr2 hm hcap fun h => absurd h hd
  have output : (List.range l.toNat).map (t.outputByte dst) = spongeFn l.toNat m r.toNat dom := by
    rw [← map_range_getD _ _ (spongeFn_length l.toNat m r.toNat dom)]
    exact List.map_congr_left fun a ha => (bytes a).trans (if_pos (List.mem_range.1 ha))
  refine ⟨t.core.seed, t.core.result, ⟨t, run, fun k a => ?_, ?_⟩, ?_, ?_⟩
  · cases k with
    | inp => exact (others a).1
    | out => exact out hd a
    | dset => exact (others a).2
  · simpa [CoreRegs.passEnded, hh] using core
  · rintro rfl
    exact ⟨result (by decide), output⟩
  · rintro rfl
    exact ⟨seed (by decide), output⟩

/-- The registers the acceptance of a `HASH` leaves when no check fails (R172). -/
def CoreRegs.hashStarted (c : CoreRegs) : CoreRegs := startHash (clearRecord c.clearStatus)

/-- The registers after the expansion pass, with `seed` in `SEED` (R173). -/
def CoreRegs.hashExpanded (c : CoreRegs) (seed : Vector Word 16) : CoreRegs :=
  c.hashStarted.passEnded 40 64 seed c.hashStarted.result

theorem hashExpanded_resting {c : CoreRegs} (hb : c.busy = false) (seed : Vector Word 16) :
    (c.hashExpanded seed).Resting .tile :=
  ⟨((CoreRegs.busy_eq_false c).1 hb).1, rfl, rfl⟩

/-- The expansion pass (R173): `SEED` is the expanded seed. -/
theorem runsTo_expansion {s : State} {n : Nat} {d : Nat → Byte} (hs : s.Serves n d)
    (hb : s.core.busy = false) :
    ∃ seed,
      State.RunsTo { s with core := s.core.hashStarted } 28 (s.core.hashExpanded seed) ∧
      (List.range 64).map (wordByte seed) =
        hashSeed ((List.range 32).map (wordByte s.core.hdr)) s.core.nonce := by
  obtain ⟨hp, -, -⟩ := (CoreRegs.busy_eq_false _).1 hb
  have input : srcBytes { s with core := s.core.hashStarted } 0 40 =
      some ((List.range 32).map (wordByte s.core.hdr) ++ bytes64 s.core.nonce) :=
    congrArg some (loadSeed_bytes (clearRecord s.core.clearStatus))
  obtain ⟨seed, result, run, filled, -⟩ := runsTo_pass (r := rate512) (dst := .seed) (n := 40) (l := 64)
    (hs.withCore s.core.hashStarted) rfl hp (by simp) (by decide) (by decide) input (by decide) (by decide)
  obtain ⟨rfl, bytes⟩ := filled rfl
  exact ⟨seed, run, bytes⟩

/-- `MIXHASHB` is the first 32 bytes of `MIXB` (R180). -/
theorem wordByte_mixHashOf (m : Vector Word 32) {a : Nat} (ha : a < 32) :
    wordByte (mixHashOf m) a = wordByte m a := by
  simp only [wordByte]
  rw [dif_pos (by omega), dif_pos (by omega), mixHashOf, Vector.getElem_ofFn]

/-- The input of the final pass: the expanded seed and the compressed words (R180, R182). -/
theorem srcBytes_of_seedMix96 {s : State} (h : s.core.src = .seedMix96) :
    srcBytes s 0 96 =
      some ((List.range 64).map (wordByte s.core.seed) ++ hashMixHash (mixHashOf s.core.mix)) := by
  rw [hashMixHash, bytes32_words]
  simp only [srcBytes, h]
  rw [show 96 = 64 + 32 by rfl, List.range_add, List.map_append, List.map_map]
  refine congrArg some (congrArg₂ _ ?_ ?_)
  · exact List.map_congr_left fun a ha => by simp [List.mem_range.1 ha]
  · exact List.map_congr_left fun a ha => by simp [wordByte_mixHashOf _ (List.mem_range.1 ha)]

/-- The final pass (R180): `RESULT` is `Keccak256` of its input. -/
theorem runsTo_finalPass {s : State} {c : CoreRegs} {n : Nat} {d : Nat → Byte} (hs : s.Serves n d)
    (hr : c.Resting .final) (hc : s.core = hoFinal c) :
    ∃ result, s.RunsTo 28 ((hoFinal c).passEnded 96 32 c.seed result) ∧
      (List.range 32).map (wordByte result) =
        keccak256 ((List.range 64).map (wordByte c.seed) ++ hashMixHash (mixHashOf c.mix)) := by
  have input := srcBytes_of_seedMix96 (s := s) (by rw [hc]; rfl)
  obtain ⟨seed, result, run, -, filled⟩ := runsTo_pass (r := rate256) (n := 96) (l := 32) (dst := .result)
    hs hc hr.peRun (by simp) (by decide) (by decide) input (by decide) (by decide)
  obtain ⟨rfl, bytes⟩ := filled rfl
  rw [hc] at run bytes
  exact ⟨result, run, bytes⟩

/-! ## From the tile step to the final step -/

/-- The registers after `j` access rounds over the dataset `d`, and before the last one. -/
def CoreRegs.withAccesses (c : CoreRegs) (d : Nat → Byte) (j : Fin 64) : CoreRegs :=
  { c with mix := (List.range j.val).foldl (hashRound c.seed[0] c.pages d) c.mix, i := j }

/-- The registers after all the access rounds (R175). -/
def CoreRegs.afterAccesses (c : CoreRegs) (d : Nat → Byte) : CoreRegs :=
  { c with
    mix := (List.range 64).foldl (hashRound c.seed[0] c.pages d) c.mix
    i := 63
    k := 0
    hoPhase := .fold }

theorem CoreRegs.withAccesses_zero {c : CoreRegs} (hi : c.i = 0) (d : Nat → Byte) :
    c.withAccesses d 0 = c := by
  rw [CoreRegs.withAccesses, Fin.val_zero, List.range_zero, List.foldl_nil, ← hi]

theorem CoreRegs.Resting.withAccesses {c : CoreRegs} {p : HoPhase} (hr : c.Resting p) (d : Nat → Byte)
    (j : Fin 64) : (c.withAccesses d j).Resting p := by
  obtain ⟨hp, hs, hho⟩ := hr
  constructor <;> simpa only [CoreRegs.withAccesses]

/-- One more round. -/
theorem foldl_range_succ_hashRound (s0 p : Word) (d : Nat → Byte) (m : Vector Word 32) (j : Nat) :
    (List.range (j + 1)).foldl (hashRound s0 p d) m =
      hashRound s0 p d ((List.range j).foldl (hashRound s0 p d) m) j := by
  rw [List.range_succ, List.foldl_append, List.foldl_cons, List.foldl_nil]

/-- An access round before the last (R175). -/
theorem afterAccess_withAccesses (c : CoreRegs) (d : Nat → Byte) (j : Fin 63) :
    (c.withAccesses d j.castSucc).afterAccess d = c.withAccesses d j.succ := by
  have notLast : j.castSucc ≠ 63 := Fin.castSucc_ne_last j
  simp only [CoreRegs.afterAccess, CoreRegs.withAccesses, notLast, if_false, Fin.coeSucc_eq_succ,
    Fin.val_castSucc, Fin.val_succ, foldl_range_succ_hashRound]

theorem afterAccess_withAccesses_last (c : CoreRegs) (d : Nat → Byte) :
    (c.withAccesses d 63).afterAccess d = c.afterAccesses d := by
  have rounds := foldl_range_succ_hashRound c.seed[0] c.pages d c.mix 63
  have last : (63 : Fin 64).val = 63 := rfl
  simp only [CoreRegs.afterAccess, CoreRegs.withAccesses, CoreRegs.afterAccesses, if_true, last, rounds]

section
variable {s : State} {c : CoreRegs} {d : Nat → Byte} (hs : s.Serves (128 * c.pages.toNat) d)
  (hpages : c.pages ≠ 0)
include hs hpages

theorem runsTo_access (hc : s.core = c) (hr : c.Resting .access) : s.RunsTo 1 (c.afterAccess d) := by
  subst hc
  have step := sequencerStep_of_access hr hpages hs.quiet hs.holds
  rw [hs.dataset] at step
  exact .of_step hs.unattended step (fun k a => by simp) (State.draw_core _)

theorem runsTo_access_of_withAccesses {j : Fin 64} (hc : s.core = c.withAccesses d j)
    (hr : c.Resting .access) : s.RunsTo 1 ((c.withAccesses d j).afterAccess d) := by
  have pages : (c.withAccesses d j).pages = c.pages := by rw [CoreRegs.withAccesses]
  exact runsTo_access (by rwa [pages]) (by rwa [pages]) hc (hr.withAccesses d j)

/-- The access rounds before the last. -/
theorem runsTo_withAccesses (hc : s.core = c) (hr : c.Resting .access) (hi : c.i = 0) (j : Fin 64) :
    s.RunsTo j.val (c.withAccesses d j) := by
  induction j using Fin.induction with
  | zero => exact ⟨s, rfl, fun _ _ => rfl, hc.trans (CoreRegs.withAccesses_zero hi d).symm⟩
  | succ j ih =>
    rw [← afterAccess_withAccesses]
    exact ih.trans hs fun t ht hc => runsTo_access_of_withAccesses ht hpages hc hr

/-- The 64 access rounds (R175). -/
theorem runsTo_accesses (hc : s.core = c) (hr : c.Resting .access) (hi : c.i = 0) :
    s.RunsTo 64 (c.afterAccesses d) := by
  rw [← afterAccess_withAccesses_last]
  exact (runsTo_withAccesses hs hpages hc hr hi 63).trans hs fun t ht hc =>
    runsTo_access_of_withAccesses ht hpages hc hr

end

/-- The registers the final step starts from, with the mix words `mix` (R179). -/
def CoreRegs.mixed (c : CoreRegs) (mix : Vector Word 32) : CoreRegs :=
  { c with mix := mix, acc := mix[7], i := 63, k := 7, hoPhase := .final }

/-- The mix words the tile step, the access rounds and the fold steps leave (R174 to R179). -/
def CoreRegs.compressedMix (c : CoreRegs) (d : Nat → Byte) : Vector Word 32 :=
  foldedMix ((List.range 64).foldl (hashRound c.seed[0] c.pages d) (tileMix c.seed)) 8

theorem afterFolds_eq_mixed (c : CoreRegs) (d : Nat → Byte) :
    ((hoTile c).afterAccesses d).afterFolds = c.mixed (c.compressedMix d) := by
  have last (m : Vector Word 32) : (foldedMix m 8)[7] = foldGroup m 7 := foldedMix_of_lt m 7 (by decide)
  simp only [hoTile, CoreRegs.afterAccesses, CoreRegs.afterFolds, CoreRegs.mixed, CoreRegs.compressedMix,
    last]

theorem runsTo_folding {s : State} {c : CoreRegs} {n : Nat} {d : Nat → Byte} (hs : s.Serves n d)
    (hc : s.core = c) (hr : c.Resting .fold) (hk : c.k = 0) : s.RunsTo 8 c.afterFolds := by
  subst hc
  exact ⟨_, runSteps_folding hs.unattended hr hk, State.peek_withCore s _, rfl⟩

section
variable {c : CoreRegs} {p : HoPhase} (hr : c.Resting p)
include hr

theorem CoreRegs.Resting.hoTile : (hoTile c).Resting .access := by
  obtain ⟨hp, hs, -⟩ := hr
  constructor <;> simp only [hp, hs, Machine.hoTile]

theorem CoreRegs.Resting.afterAccesses (d : Nat → Byte) : (c.afterAccesses d).Resting .fold := by
  obtain ⟨hp, hs, -⟩ := hr
  constructor <;> simp only [hp, hs, CoreRegs.afterAccesses]

theorem CoreRegs.Resting.mixed (mix : Vector Word 32) : (c.mixed mix).Resting .final := by
  obtain ⟨hp, hs, -⟩ := hr
  constructor <;> simp only [hp, hs, CoreRegs.mixed]

end

/-- From the tile step up to the final step, 74 steps (R249). -/
theorem runsTo_mixing {s : State} {c : CoreRegs} {d : Nat → Byte} (hs : s.Serves (128 * c.pages.toNat) d)
    (hc : s.core = c) (hr : c.Resting .tile) (hpages : c.pages ≠ 0) :
    s.RunsTo 74 (hoFinal (c.mixed (c.compressedMix d))) := by
  have pages : (hoTile c).pages = c.pages := by rw [hoTile]
  have tile : s.RunsTo 1 (hoTile c) :=
    .of_registers hs.unattended (sequencerStep_of_tile (hc ▸ hr)) (by rw [hc])
  have accesses : s.RunsTo (1 + 64) ((hoTile c).afterAccesses d) := tile.trans hs fun t ht hc =>
    runsTo_accesses (by rwa [pages]) (by rwa [pages]) hc hr.hoTile (by rw [hoTile])
  have folds : s.RunsTo (1 + 64 + 8) (c.mixed (c.compressedMix d)) := accesses.trans hs fun t ht hc => by
    rw [← afterFolds_eq_mixed]
    exact runsTo_folding ht hc (hr.hoTile.afterAccesses d) (by rw [CoreRegs.afterAccesses])
  exact folds.trans (m' := 1) hs fun t ht hc =>
    .of_registers ht.unattended (sequencerStep_of_final (hc ▸ hr.mixed _)) (by rw [hc])

/-- They are the mix words of the reference function, compressed (R182). -/
theorem mixHashOf_compressedMix (c : CoreRegs) (d : Nat → Byte) :
    mixHashOf (c.compressedMix d) =
      hashCompressed (hashMix ((List.range 64).map (wordByte c.seed)) c.pages d) := by
  have word (w : Nat) (hw : w < 16) : le32 ((List.range 64).map (wordByte c.seed)) (4 * w) = c.seed[w] :=
    le32_words c.seed w hw
  have first : le32 ((List.range 64).map (wordByte c.seed)) 0 = c.seed[0] := word 0 (by decide)
  have tile : (Vector.ofFn fun w : Fin 32 => le32 ((List.range 64).map (wordByte c.seed)) (4 * (w.val % 16)))
      = tileMix c.seed :=
    congrArg Vector.ofFn (funext fun w => word (w.val % 16) (Nat.mod_lt _ (by decide)))
  rw [hashMix, first, tile, CoreRegs.compressedMix, mixHashOf, hashCompressed]
  exact congrArg Vector.ofFn (funext fun k => foldedMix_of_lt _ k k.isLt)

/-! ## The command -/

/-- `PAGES`, as `HASH` computes it (R172). -/
theorem hashStarted_pages {s : State} (hb : s.core.busy = false) (hc : firstError .hash s.core = none) :
    s.core.hashStarted.pages = BitVec.ofNat 32 (s.core.fullSize.toNat / 128) ∧
      128 * s.core.hashStarted.pages.toNat = s.core.fullSize.toNat ∧ s.core.hashStarted.pages ≠ 0 := by
  obtain ⟨-, hne, -, hlt, -, hpages⟩ := execHash_starts hb hc
  change s.core.fullSize.extractLsb' 7 32 = _ ∧ 128 * (s.core.fullSize.extractLsb' 7 32).toNat = _ ∧
    s.core.fullSize.extractLsb' 7 32 ≠ 0
  refine ⟨BitVec.eq_of_toNat_eq ?_, by omega, (word_ne_zero _).2 (by omega)⟩
  rw [BitVec.toNat_ofNat]
  omega

/-- Settles O47, by `runsTo_expansion`. -/
theorem expansionPassFillsSeed : Obligations.ExpansionPassFillsSeed := by
  intro s hb hu hq hw hc
  obtain ⟨seed, ⟨t, run, memory, core⟩, bytes⟩ :=
    runsTo_expansion (n := 0) ⟨hu, hq, hw, fun a ha => absurd ha (Nat.not_lt_zero a), rfl⟩ hb
  obtain ⟨hp, hs, hho⟩ := hashExpanded_resting hb seed
  refine ⟨_, t, (execHash_starts hb hc).1, run, ?_⟩
  rw [core]
  exact ⟨bytes, rfl, hs, hp, hho, fun k a => (memory k a).trans (State.peek_withCore s _ k a)⟩

/-- The end step (R181). -/
theorem runsTo_end {s : State} {c : CoreRegs} {n : Nat} {d : Nat → Byte} (hs : s.Serves n d)
    (hc : s.core = c) (hr : c.Resting .finish) : s.RunsTo 1 { c with hoPhase := .idle, done := true } := by
  subst hc
  exact .of_step hs.unattended (sequencerStep_of_finish hr) (hoEnd_peek s) rfl

/-- The registers at the end of a `HASH` (R183). -/
def CoreRegs.hashEnded (c : CoreRegs) (seed : Vector Word 16) (mix : Vector Word 32) (result : Vector Word 8) :
    CoreRegs :=
  { (hoFinal ((c.hashExpanded seed).mixed mix)).passEnded 96 32 seed result with
    hoPhase := .idle
    done := true }

/-- A `HASH` from its acceptance to its end, 131 steps (R249). -/
theorem runsTo_hash {s : State} {d : Nat → Byte} (hs : s.Serves s.core.fullSize.toNat d)
    (hb : s.core.busy = false) (hc : firstError .hash s.core = none) :
    ∃ seed mix result,
      State.RunsTo { s with core := s.core.hashStarted } 131 (s.core.hashEnded seed mix result) ∧
      (List.range 64).map (wordByte seed) =
        hashSeed ((List.range 32).map (wordByte s.core.hdr)) s.core.nonce ∧
      ((List.range 32).map (wordByte result), (List.range 32).map (wordByte (mixHashOf mix))) =
        hashFn ((List.range 32).map (wordByte s.core.hdr)) s.core.nonce s.core.hashStarted.pages d := by
  obtain ⟨-, size, pages⟩ := hashStarted_pages hb hc
  have started := hs.withCore s.core.hashStarted
  obtain ⟨seed, expansion, seedBytes⟩ := runsTo_expansion hs hb
  have resting := hashExpanded_resting hb seed
  obtain ⟨t, run, memory, core⟩ := expansion.trans started fun t ht hcore =>
    runsTo_mixing (size ▸ ht) hcore resting pages
  have mixHash := mixHashOf_compressedMix (s.core.hashExpanded seed) d
  generalize (s.core.hashExpanded seed).compressedMix d = mix at core mixHash
  obtain ⟨result, final, resultBytes⟩ := runsTo_finalPass (started.after run memory) (resting.mixed mix) core
  have ends := final.trans (started.after run memory) fun u hu hcore =>
    runsTo_end hu hcore ⟨resting.peRun, rfl, rfl⟩
  refine ⟨seed, mix, result, ends.of_run run memory, seedBytes, ?_⟩
  change mixHashOf mix = hashCompressed (hashMix ((List.range 64).map (wordByte seed)) _ d) at mixHash
  change _ = keccak256 ((List.range 64).map (wordByte seed) ++ hashMixHash (mixHashOf mix)) at resultBytes
  rw [seedBytes] at mixHash resultBytes
  rw [resultBytes, ← bytes32_words, ← hashMixHash, mixHash]
  rfl

/-- Settles O48: the registers are read off `hashEnded`, the output is that of `runsTo_hash`. -/
theorem hashCommandComputesHash : Obligations.HashCommandComputesHash := by
  intro s hb hu hq hw hc hh
  obtain ⟨seed, mix, result, ⟨t, run, memory, core⟩, seedBytes, output⟩ :=
    runsTo_hash ⟨hu, hq, hw, hh, rfl⟩ hb hc
  obtain ⟨pages, -, -⟩ := hashStarted_pages hb hc
  obtain ⟨hp, -, -⟩ := (CoreRegs.busy_eq_false _).1 hb
  have compressed (k : Fin 8) : mix[k.val] = (mixHashOf mix)[k] := by simp [mixHashOf]
  refine ⟨_, t, _, (execHash_starts hb hc).1, run, rfl, ?_⟩
  rw [core, ← pages]
  exact ⟨output, seedBytes, compressed, rfl, rfl, rfl,
    (CoreRegs.busy_eq_false _).2 ⟨hp, rfl, rfl⟩, rfl, rfl, rfl, { CoreRegs.SameOperands.refl s.core with },
    fun k a => (memory k a).trans (State.peek_withCore s _ k a)⟩

/-! ## What the record depends on -/

/-- A round reads the dataset below the size only (R68, R184). -/
theorem hashRound_congr {pages : Word} (hp : pages ≠ 0) {d d' : Nat → Byte}
    (hd : ∀ a, a < 128 * pages.toNat → d' a = d a) (s0 : Word) :
    hashRound s0 pages d' = hashRound s0 pages d := by
  funext m i
  have page := pageIndex_lt hp s0 i (m[i % 32]'(Nat.mod_lt i (by decide)))
  unfold pageIndex at page
  refine congrArg Vector.ofFn (funext fun w => ?_)
  have hw := w.isLt
  rw [hd _ (by omega), hd _ (by omega), hd _ (by omega), hd _ (by omega)]

theorem hashFn_congr {pages : Word} (hp : pages ≠ 0) {d d' : Nat → Byte}
    (hd : ∀ a, a < 128 * pages.toNat → d' a = d a) (header : List Byte) (nonce : BitVec 64) :
    hashFn header nonce pages d' = hashFn header nonce pages d := by
  simp only [hashFn, hashMix, hashRound_congr hp hd]

/-- Settles O49: both records are `hashFn`, which reads the dataset below the size only. -/
theorem hashDependsOnItsInputsOnly : Obligations.HashDependsOnItsInputsOnly := by
  intro s s' hb hb' hu hu' hq hq' hw hw' hc hc' hh hh' header nonce size bytes
  obtain ⟨u, t, _, accepts, run, rfl, output, -, -, -, -, -, -, hdone, -⟩ :=
    hashCommandComputesHash s hb hu hq hw hc hh
  obtain ⟨u', t', _, accepts', run', rfl, output', -, -, -, -, -, -, hdone', -⟩ :=
    hashCommandComputesHash s' hb' hu' hq' hw' hc' (by rwa [size])
  obtain ⟨pages, whole, positive⟩ := hashStarted_pages hb hc
  rw [pages] at whole positive
  rw [header, nonce, size, hashFn_congr positive fun a ha => bytes a (whole ▸ ha), ← output,
    Prod.mk.injEq] at output'
  obtain ⟨result, mixHash⟩ := output'
  exact ⟨u, u', t, t', accepts, run, accepts', run', hdone, hdone', eq_of_bytes result, eq_of_bytes mixHash⟩

end Sys2Proof.Machine
end

section
/-! The output of `Sponge` as the beginning of one stream of bytes (41_sponge.md R130, 44_serializer.md R206). -/

namespace Sys2Proof.Machine

/-- Byte `i` of all that squeezing at rate `r` gives from `v` on (R130): the length asked for has no part in it. -/
def squeezedByte (r : Nat) (v : Vector Lane 25) (i : Nat) : Byte := laneByte (keccakF^[i / r] v) (i % r)

theorem squeezedByte_of_lt {r i : Nat} (v : Vector Lane 25) (h : i < r) : squeezedByte r v i = laneByte v i := by
  rw [squeezedByte, Nat.div_eq_of_lt h, Nat.mod_eq_of_lt h, Function.iterate_zero_apply]

theorem squeezedByte_rate_add {r : Nat} (v : Vector Lane 25) (i : Nat) (h : 0 < r) :
    squeezedByte r v (r + i) = squeezedByte r (keccakF v) i := by
  rw [squeezedByte, Nat.add_div_left i h, Nat.add_mod_left, Function.iterate_succ_apply, squeezedByte]

theorem laneBytes_eq_squeezed {r n : Nat} (v : Vector Lane 25) (h : n ≤ r) :
    laneBytes v n = (List.range n).map (squeezedByte r v) :=
  List.map_congr_left fun _ hi => (squeezedByte_of_lt v ((List.mem_range.1 hi).trans_le h)).symm

/-- The squeeze loop gives the first `b * r + o` bytes of the stream. -/
theorem squeezeLoop_eq_squeezed {r o : Nat} (ho : o < r) (b : Nat) (v : Vector Lane 25) :
    squeezeLoop r o b v = (List.range (b * r + o)).map (squeezedByte r v) := by
  induction b generalizing v with
  | zero => rw [squeezeLoop, laneBytes_eq_squeezed v ho.le, Nat.zero_mul, Nat.zero_add]
  | succ b ih =>
    have later : squeezedByte r (keccakF v) = squeezedByte r v ∘ (r + ·) :=
      funext fun i => (squeezedByte_rate_add v i (by omega)).symm
    have size : (b + 1) * r + o = r + (b * r + o) := by ring
    rw [size, List.range_add, List.map_append, List.map_map, squeezeLoop, laneBytes_eq_squeezed v le_rfl, ih,
      later]

theorem spongeFn_eq_squeezed {r : Nat} (l : Nat) (m : List Byte) (d : Byte) (hr : 0 < r) :
    spongeFn l m r d = (List.range l).map (squeezedByte r (absorbAll m r d)) := by
  rw [spongeFn, squeezeLoop_eq_squeezed (Nat.mod_lt l hr), Nat.div_add_mod']

/-- Settles O42: outputs of both lengths are beginnings of one stream. -/
theorem shorterSpongeOutputIsBeginning : Obligations.ShorterSpongeOutputIsBeginning := by
  intro l l' r m d hr _ hl
  refine ⟨?_, spongeFn_length l m r d⟩
  rw [spongeFn_eq_squeezed l m d hr, spongeFn_eq_squeezed l' m d hr, ← List.map_take, List.take_range,
    Nat.min_eq_left hl]

end Sys2Proof.Machine
end

section
/-! The checks of a command (60_exceptions.md R211 to R218): an acceptance against `firstError`, failed and
passed, and what of a failed command stays for the next one. -/

namespace Sys2Proof.Machine

/-! ## The first failing check -/

/-- The error of the two buffer checks that the three sponge-type commands share, in their order (R215). -/
def CoreRegs.bufferError (c : CoreRegs) : Option ErrorKind :=
  if c.outLen ≠ 0 ∧ c.outPresent = false then some .noOut
  else if c.inLen ≠ 0 ∧ c.inPresent = false then some .noIn
  else none

theorem firstError_sponge (c : CoreRegs) : firstError .sponge c =
    if 200 ≤ c.rate.toNat ∨ c.rate = 0 then some .rate else c.bufferError := by
  simp only [firstError, commandChecks, CoreRegs.bufferError, word_ne_zero, word_eq_zero, or_comm]
  split_ifs <;> simp [*]

theorem firstError_digest256 (c : CoreRegs) : firstError .digest256 c =
    if digestSize256.toNat < c.outLen.toNat then some .outLen else c.bufferError := by
  have size : digestSize256.toNat = 32 := rfl
  simp only [firstError, commandChecks, CoreRegs.bufferError, word_ne_zero, size]
  split_ifs <;> simp [*]

theorem firstError_digest512 (c : CoreRegs) : firstError .digest512 c =
    if digestSize512.toNat < c.outLen.toNat then some .outLen else c.bufferError := by
  have size : digestSize512.toNat = 64 := rfl
  simp only [firstError, commandChecks, CoreRegs.bufferError, word_ne_zero, size]
  split_ifs <;> simp [*]

theorem firstError_hash (c : CoreRegs) : firstError .hash c =
    if c.fullSize = 0 ∨ c.fullSize.extractLsb' 0 7 ≠ 0 then some .fullSize
    else if c.fullSize.extractLsb' 39 25 ≠ 0 then some .pages
    else if c.dsLen.toNat < c.fullSize.toNat then some .dataset
    else none := by
  obtain ⟨f0, f1, f2⟩ := fullSize_tests c.fullSize
  simp only [firstError, commandChecks, f0, f1, f2]
  split_ifs <;> simp [*, -Nat.reducePow]

/-- Clearing the status fields leaves the checks as they were (R216). -/
theorem firstError_clearStatus (i : Instr) (c : CoreRegs) : firstError i c.clearStatus = firstError i c :=
  firstError_congr i c c.acc c.result c.mixHash false false 0

/-- The operand registers decide which check fails, and nothing else does (R216). -/
theorem CoreRegs.SameOperands.firstError_eq {c d : CoreRegs} (h : c.SameOperands d) (i : Instr) :
    firstError i d = firstError i c := by
  obtain ⟨-, -, ⟨sizeLo, sizeHi⟩, ⟨lenLo, lenHi⟩, rate, -, inLen, outLen, bufCfg, -, -⟩ := h
  have size : d.fullSize = c.fullSize := by rw [CoreRegs.fullSize, sizeHi, sizeLo, CoreRegs.fullSize]
  have len : d.dsLen = c.dsLen := by rw [CoreRegs.dsLen, lenHi, lenLo, CoreRegs.dsLen]
  have buffers : d.bufferError = c.bufferError := by
    rw [CoreRegs.bufferError, CoreRegs.outPresent, CoreRegs.inPresent, outLen, inLen, bufCfg]
    rfl
  cases i with
  | permute => rfl
  | sponge => rw [firstError_sponge, rate, buffers, firstError_sponge]
  | digest256 => rw [firstError_digest256, outLen, buffers, firstError_digest256]
  | digest512 => rw [firstError_digest512, outLen, buffers, firstError_digest512]
  | mix => rfl
  | fold => rfl
  | hash => rw [firstError_hash, size, len, firstError_hash]

/-! ## Acceptance when a check fails -/

/-- The registers after a command that ended with the error `e` (R172, R214). -/
def CoreRegs.failed (c : CoreRegs) (i : Instr) (e : ErrorKind) : CoreRegs :=
  { c with
    result := if i = .hash then Vector.replicate 8 0 else c.result
    mixHash := if i = .hash then Vector.replicate 8 0 else c.mixHash
    done := true
    err := true
    errCode := e.code }

theorem checkBuffers_fails (go : CoreRegs → CoreRegs) {c : CoreRegs} {e : ErrorKind}
    (h : c.bufferError = some e) : checkBuffers go c = c.raise e := by
  unfold CoreRegs.bufferError at h
  unfold checkBuffers
  split_ifs at h ⊢ <;> cases h <;> rfl

/-- The shape of the three sponge-type acceptances: a check of their own, then those of the buffers. -/
theorem ownCheck_then_buffers_fails {p : Prop} [Decidable p] {own e : ErrorKind} (go : CoreRegs → CoreRegs)
    {c : CoreRegs} (h : (if p then some own else c.bufferError) = some e) :
    (if p then c.raise own else checkBuffers go c) = c.raise e := by
  split_ifs at h ⊢
  · cases h; rfl
  · exact checkBuffers_fails go h

theorem acceptHash_fails {c : CoreRegs} {e : ErrorKind} (h : firstError .hash c = some e) :
    acceptHash c = (clearRecord c).raise e := by
  change firstError .hash (clearRecord c) = some e at h
  rw [firstError_hash] at h
  simp only [acceptHash]
  split_ifs at h ⊢ <;> cases h <;> rfl

/-- A failing check ends the command in its acceptance step (R214, R216). -/
theorem exec_of_firstError_some {i : Instr} {s : State} {e : ErrorKind} (hb : s.core.busy = false)
    (h : firstError i s.core = some e) : exec i s = .next { s with core := s.core.failed i e } := by
  rw [← firstError_clearStatus] at h
  cases i with
  | permute => cases h
  | mix => cases h
  | fold => cases h
  | sponge =>
    rw [firstError_sponge] at h
    rw [exec, execSponge, acceptance_of_idle _ _ hb, acceptSponge, ownCheck_then_buffers_fails _ h]
    rfl
  | digest256 =>
    rw [firstError_digest256] at h
    rw [exec, execDigest256, acceptance_of_idle _ _ hb, acceptDigest256, ownCheck_then_buffers_fails _ h]
    rfl
  | digest512 =>
    rw [firstError_digest512] at h
    rw [exec, execDigest512, acceptance_of_idle _ _ hb, acceptDigest512, ownCheck_then_buffers_fails _ h]
    rfl
  | hash =>
    rw [exec, execHash, acceptance_of_idle _ _ hb, acceptHash_fails h]
    rfl

/-! ## Acceptance when every check passes -/

theorem exec_of_firstError_none {i : Instr} {s : State} (hb : s.core.busy = false)
    (h : firstError i s.core = none) : ∃ t, exec i s = .next t ∧ t.core.err = false ∧ t.core.errCode = 0 := by
  cases i with
  | permute => exact ⟨_, acceptance_of_idle _ _ hb, rfl, rfl⟩
  | sponge => exact ⟨_, (execSponge_starts hb h).1, rfl, rfl⟩
  | digest256 => exact ⟨_, (execDigest256_starts hb h).1, rfl, rfl⟩
  | digest512 => exact ⟨_, (execDigest512_starts hb h).1, rfl, rfl⟩
  | mix => exact ⟨_, acceptance_of_idle _ _ hb, rfl, rfl⟩
  | fold => exact ⟨_, acceptance_of_idle _ _ hb, rfl, rfl⟩
  | hash => exact ⟨_, (execHash_starts hb h).1, rfl, rfl⟩

/-- Settles O14, from what an acceptance does with a check failed and with none. -/
theorem firstFailingCheckIsReported : Obligations.FirstFailingCheckIsReported :=
  fun _ _ hb => ⟨fun _ h => exec_of_firstError_some hb h, exec_of_firstError_none hb⟩

/-! ## Several failing checks -/

/-- `STATUS` after a failed command: the code, `ERR` and `DONE` (R32, R211). -/
theorem CoreRegs.status_failed {c : CoreRegs} (i : Instr) (e : ErrorKind) (hb : c.busy = false) :
    (c.failed i e).status = (0 : BitVec 16) ++ e.code ++ (6 : BitVec 8) := by
  have hb' : (c.failed i e).busy = false := hb
  rw [status, hb']
  change (0 : BitVec 16) ++ e.code ++ (0 : BitVec 5) ++ BitVec.ofBool true ++ BitVec.ofBool true ++
    BitVec.ofBool false = _
  cases e <;> decide

theorem exec_status_of_firstError {i : Instr} {s : State} {e : ErrorKind} (hb : s.core.busy = false)
    (h : firstError i s.core = some e) :
    ∃ t, exec i s = .next t ∧ t.core.status = (0 : BitVec 16) ++ e.code ++ (6 : BitVec 8) :=
  ⟨_, exec_of_firstError_some hb h, CoreRegs.status_failed i e hb⟩

/-- Settles O15: the command's own check comes before the buffer checks, and of these `E_NO_OUT` comes first. -/
theorem severalFailingChecksReportTheFirst : Obligations.SeveralFailingChecksReportTheFirst := by
  intro s hb hcfg hin hout
  have noOut : s.core.bufferError = some .noOut := by
    have absent : s.core.outPresent = false := by rw [CoreRegs.outPresent, hcfg]; rfl
    exact if_pos ⟨(word_ne_zero _).2 hout, absent⟩
  have size256 : digestSize256.toNat = 32 := rfl
  have size512 : digestSize512.toNat = 64 := rfl
  refine ⟨fun hr => exec_status_of_firstError (e := .rate) hb ?_,
    fun h1 h2 => exec_status_of_firstError (e := .noOut) hb ?_,
    fun hl => ⟨exec_status_of_firstError (e := .outLen) hb ?_, exec_status_of_firstError (e := .outLen) hb ?_⟩,
    fun hl => ⟨exec_status_of_firstError (e := .noOut) hb ?_, exec_status_of_firstError (e := .noOut) hb ?_⟩⟩
  · rw [firstError_sponge, if_pos (.inl hr)]
  · rw [firstError_sponge, if_neg (by rw [word_eq_zero]; omega), noOut]
  · rw [firstError_digest256, if_pos (by omega)]
  · rw [firstError_digest512, if_pos (by omega)]
  · rw [firstError_digest256, if_neg (by omega), noOut]
  · rw [firstError_digest512, if_neg (by omega), noOut]

/-! ## Issuing a failed command again -/

theorem CoreRegs.failed_failed (c : CoreRegs) (i : Instr) (e : ErrorKind) :
    (c.failed i e).failed i e = c.failed i e := by
  cases i <;> rfl

/-- A command on an idle CORE ends in error only where one of its checks fails. -/
theorem firstError_of_err {i : Instr} {s t : State} (hb : s.core.busy = false) (h : exec i s = .next t)
    (he : t.core.err = true) : ∃ e, firstError i s.core = some e ∧ t = { s with core := s.core.failed i e } := by
  cases hf : firstError i s.core with
  | some e =>
    rw [exec_of_firstError_some hb hf, Host.Outcome.next.injEq] at h
    exact ⟨e, rfl, h.symm⟩
  | none =>
    obtain ⟨u, hu, hn, -⟩ := exec_of_firstError_none hb hf
    rw [hu, Host.Outcome.next.injEq] at h
    rw [← h, hn] at he
    cases he

/-- Settles O16: a failed command writes no operand register, and with the same operands the same check
fails first. -/
theorem reissuedCommandFailsAgain : Obligations.ReissuedCommandFailsAgain := by
  intro i s t hb h he
  obtain ⟨e, hf, rfl⟩ := firstError_of_err hb h he
  have again {s' : State} (hb' : s'.core.busy = false) (same : s.core.SameOperands s'.core) :
      exec i s' = .next { s' with core := s'.core.failed i e } :=
    exec_of_firstError_some hb' ((same.firstError_eq i).trans hf)
  have kept : s.core.SameOperands (s.core.failed i e) := { CoreRegs.SameOperands.refl s.core with }
  refine ⟨?_, fun s' hb' same => ⟨_, again hb' same, rfl, rfl, rfl, hb'⟩⟩
  rw [again (s' := { s with core := s.core.failed i e }) hb kept, CoreRegs.failed_failed]

/-- Settles O17, by what a step of the sequencer does to the status fields. -/
theorem sequencerRaisesNoError : Obligations.SequencerRaisesNoError := by
  intro s t h
  obtain ⟨herr, hcode, -⟩ := sequencerMove_status (sequencerStep_cases h)
  exact ⟨herr, hcode⟩

end Sys2Proof.Machine
end

section
/-! Every running command ends (60_exceptions.md R220, 70_reset_and_hazards.md R249): each step of the
sequencer brings it nearer to its end, and the last one sets `DONE`. -/

namespace Sys2Proof.Machine

/-! ## What is left of a command -/

/-- How many phases of the orchestrator are still to come (R24). -/
def HoPhase.left : HoPhase → Nat
  | .tile => 5
  | .access => 4
  | .fold => 3
  | .final => 2
  | .finish => 1
  | .idle => 0

/-- How many phases of the pass in progress are still to come (R24). -/
def ScPhase.left : ScPhase → Nat
  | .absorb => 4
  | .pad => 3
  | .squeeze => 2
  | .clear => 1
  | .idle => 0

/-- What the phases have still to work through: the bytes of the pass, the access rounds, the fold groups. -/
def CoreRegs.workLeft (c : CoreRegs) : Nat :=
  c.rem.toNat + c.orem.toNat + (64 - c.i.val) + (8 - c.k.val)

/-- How many rounds the PE has still to do. -/
def CoreRegs.roundsLeft (c : CoreRegs) : Nat := if c.peRun then 24 - c.rnd.val else 0

/-- What is left of the running command: the outer controller's part weighs more than all of an inner one's,
for "the inner controller always runs to its end before the outer one moves" (R26). -/
def CoreRegs.left (c : CoreRegs) : ℕ ×ₗ ℕ ×ₗ ℕ ×ₗ ℕ :=
  toLex (c.hoPhase.left, toLex (c.scPhase.left, toLex (c.workLeft, c.roundsLeft)))

theorem CoreRegs.left_lt_iff {c d : CoreRegs} : d.left < c.left ↔
    d.hoPhase.left < c.hoPhase.left ∨ d.hoPhase.left = c.hoPhase.left ∧
      (d.scPhase.left < c.scPhase.left ∨ d.scPhase.left = c.scPhase.left ∧
        (d.workLeft < c.workLeft ∨ d.workLeft = c.workLeft ∧ d.roundsLeft < c.roundsLeft)) := by
  simp only [left, Prod.Lex.toLex_lt_toLex]

theorem CoreRegs.left_lt_of_hoPhase {c d : CoreRegs} {p q : HoPhase} (hc : c.hoPhase = p) (hd : d.hoPhase = q)
    (h : q.left < p.left) : d.left < c.left :=
  left_lt_iff.2 (.inl (by rwa [hc, hd]))

theorem CoreRegs.left_lt_of_scPhase {c d : CoreRegs} {p q : ScPhase} (hh : d.hoPhase = c.hoPhase)
    (hc : c.scPhase = p) (hd : d.scPhase = q) (h : q.left < p.left) : d.left < c.left :=
  left_lt_iff.2 (.inr ⟨by rw [hh], .inl (by rwa [hc, hd])⟩)

theorem CoreRegs.left_lt_of_workLeft {c d : CoreRegs} (hh : d.hoPhase = c.hoPhase) (hs : d.scPhase = c.scPhase)
    (h : d.workLeft < c.workLeft) : d.left < c.left :=
  left_lt_iff.2 (.inr ⟨by rw [hh], .inr ⟨by rw [hs], .inl h⟩⟩)

/-! ## Every step takes from it -/

theorem peStep_left_lt {s : State} (hp : s.core.peRun = true) : (peStep s).core.left < s.core.left := by
  rw [CoreRegs.left_lt_iff, peStep_core]
  generalize keccakRound s.core.lanes s.core.rnd = lanes
  refine .inr ⟨rfl, .inr ⟨rfl, .inr ⟨rfl, ?_⟩⟩⟩
  by_cases hr : s.core.rnd = 23
  · simp [CoreRegs.roundsLeft, hp, hr]
  · simp only [CoreRegs.roundsLeft, hp, hr, if_true, if_false]
    omega

/-- A block takes its length from the count of bytes left (R133, R135). -/
theorem sub_rate_lt {q : Word} {r : BitVec 8} (h0 : 1 ≤ r.toNat) (h : r.toNat ≤ q.toNat) :
    (q - r.setWidth 32).toNat < q.toNat := by
  rw [sub_rate_toNat h]
  omega

theorem absorbBlock_left_lt {c : CoreRegs} (block : List Byte) (h0 : 1 ≤ c.rRate.toNat)
    (hr : c.rRate.toNat ≤ c.rem.toNat) : (absorbBlock c block).left < c.left := by
  have bytes := sub_rate_lt h0 hr
  refine CoreRegs.left_lt_of_workLeft rfl rfl ?_
  simp only [CoreRegs.workLeft, absorbBlock, CoreRegs.startPe]
  omega

theorem squeezeBlock_left_lt {c : CoreRegs} (h0 : 1 ≤ c.rRate.toNat) (hr : c.rRate.toNat ≤ c.orem.toNat) :
    (squeezeBlock c).left < c.left := by
  have bytes := sub_rate_lt h0 hr
  refine CoreRegs.left_lt_of_workLeft rfl rfl ?_
  simp only [CoreRegs.workLeft, squeezeBlock, CoreRegs.startPe]
  omega

theorem scClear_left_lt {s : State} (hs : s.core.scPhase = .clear) : (scClear s).core.left < s.core.left := by
  unfold scClear
  split <;> exact CoreRegs.left_lt_of_scPhase (q := .idle) rfl hs rfl (by decide)

theorem accessRegs_left_lt {c : CoreRegs} (b0 b1 : List Byte) (hh : c.hoPhase = .access) :
    (accessRegs c b0 b1).left < c.left := by
  unfold accessRegs
  split
  · exact CoreRegs.left_lt_of_hoPhase (q := .fold) hh rfl (by decide)
  · refine CoreRegs.left_lt_of_workLeft rfl rfl ?_
    simp only [CoreRegs.workLeft]
    omega

theorem hoFold_left_lt {c : CoreRegs} (hh : c.hoPhase = .fold) : (hoFold c).left < c.left := by
  simp only [hoFold]
  split
  · exact CoreRegs.left_lt_of_hoPhase (q := .final) hh rfl (by decide)
  · refine CoreRegs.left_lt_of_workLeft rfl rfl ?_
    simp only [CoreRegs.workLeft]
    omega

/-- Each step of a busy sequencer leaves less of the command. -/
theorem sequencerMove_left_lt {s t : State} (h : SequencerMove s t) (hs : s.core.SequencerSound)
    (hb : s.core.busy = true) : t.core.left < s.core.left := by
  have rate (hph : s.core.scPhase ≠ .idle) : 1 ≤ s.core.rRate.toNat := (hs.rateRange hph).1
  cases h with
  | engine hp => exact peStep_left_lt hp
  | absorb block _ hph hr => exact absorbBlock_left_lt block (rate (by simp [hph])) hr
  | absorbEnd _ hph => exact CoreRegs.left_lt_of_scPhase (q := .pad) rfl hph rfl (by decide)
  | pad _ _ hph => exact CoreRegs.left_lt_of_scPhase (q := .squeeze) rfl hph rfl (by decide)
  | squeeze u _ hph hr hu =>
    obtain ⟨_, _, _, _, _, _, rfl, -⟩ := deliverBytes_update hu
    exact squeezeBlock_left_lt (rate (by simp [hph])) hr
  | squeezeEnd u _ hph _ hu =>
    obtain ⟨_, _, _, _, _, _, rfl, -⟩ := deliverBytes_update hu
    exact CoreRegs.left_lt_of_scPhase (q := .clear) rfl hph rfl (by decide)
  | clear _ hph => exact scClear_left_lt hph
  | tile _ _ hh => exact CoreRegs.left_lt_of_hoPhase (q := .access) hh rfl (by decide)
  | access b0 b1 _ _ hh => exact accessRegs_left_lt b0 b1 hh
  | fold _ _ hh => exact hoFold_left_lt hh
  | final _ _ hh => exact CoreRegs.left_lt_of_hoPhase (q := .finish) hh rfl (by decide)
  | finish _ _ hh => exact CoreRegs.left_lt_of_hoPhase (q := .idle) hh rfl (by decide)
  | idle hi => rw [hi] at hb; cases hb

/-! ## The last step -/

/-- The step that makes a busy CORE idle sets `DONE` (R117, R136, R181). -/
theorem sequencerMove_done {s t : State} (h : SequencerMove s t) (hb : s.core.busy = true)
    (hi : t.core.busy = false) : t.core.done = true := by
  obtain ⟨hp', hs', hh'⟩ := (CoreRegs.busy_eq_false _).1 hi
  cases h with
  | engine hp =>
    rw [peStep_core] at hp' hs' hh' ⊢
    have last : s.core.rnd = 23 := by simpa [hp] using hp'
    simpa [last] using Or.inr ⟨hs', hh'⟩
  | absorb => cases hp'
  | absorbEnd => cases hs'
  | pad => cases hp'
  | squeeze => cases hp'
  | squeezeEnd => cases hs'
  | clear =>
    unfold scClear at hh' ⊢
    split at hh'
    · rename_i hh; rw [if_pos hh]; rfl
    · rename_i hh; exact absurd hh' hh
  | tile => cases hh'
  | access b0 b1 _ _ hh =>
    simp only [State.draw_core, accessRegs] at hh'
    split at hh'
    · cases hh'
    · simp [hh] at hh'
  | fold _ _ hh =>
    simp only [hoFold] at hh'
    split at hh'
    · cases hh'
    · simp [hh] at hh'
  | final => cases hs'
  | finish => rfl
  | idle => rw [hi] at hb; cases hb

theorem sequencerMove_wholeMemories {s t : State} (h : SequencerMove s t) (hw : s.wholeMemories) :
    t.wholeMemories :=
  fun k => (sequencerMove_space h k).1.trans (hw k)

/-- Settles O57, by well-founded induction on what is left of the command. -/
theorem everyCommandTerminates : Obligations.EveryCommandTerminates := by
  intro s
  induction hl : s.core.left using WellFoundedLT.induction generalizing s with
  | ind l ih =>
    intro hw hs hu hb
    obtain ⟨t, ht⟩ := sequencerNeverStopsOnWholeMemories s hw hs
    have hm := sequencerStep_cases ht
    cases hb' : t.core.busy with
    | false => exact ⟨1, t, runSteps_sequencer hu ht 0, hb', sequencerMove_done hm hb hb'⟩
    | true =>
      obtain ⟨n, u, run, idle, done⟩ := ih t.core.left (hl ▸ sequencerMove_left_lt hm hs hb) t rfl
        (sequencerMove_wholeMemories hm hw) (sequencerMove_sound hm hs) ((sequencerMove_host hm).1.trans hu) hb'
      exact ⟨n + 1, u, (runSteps_sequencer hu ht n).trans run, idle, done⟩

end Sys2Proof.Machine
end

section
/-! A host write of a byte of `OUT`, by what the running command does with the byte
(70_reset_and_hazards.md R248). -/

namespace Sys2Proof.Machine

section
variable {s : State} {a : Nat} (b : Byte)

/-- No running command is to write the byte: an ordinary write. -/
theorem hostWriteOut_ordinary (hw : s.core.writesOut a = false) : hostWriteOut a b s =
    { s with outMem := s.outMem.write a b, doubt := Doubt.dropAt a s.doubt } := by
  simp [hostWriteOut, hw]

/-- Before the command's write the byte is stored, and noted. -/
theorem hostWriteOut_before (hw : s.core.writesOut a = true) (hle : s.core.outPos.toNat ≤ a) :
    hostWriteOut a b s = { s with outMem := s.outMem.writeAhead a b } := by
  simp [hostWriteOut, hw, hle]

/-- After the command's write one of the two values is stored, and the other one kept. -/
theorem hostWriteOut_after (hw : s.core.writesOut a = true) (hlt : a < s.core.outPos.toNat) :
    hostWriteOut a b s = State.draw { s with shadow := Memory.put s.shadow a b } ∨
      hostWriteOut a b s =
        State.draw
          { s with outMem := s.outMem.write a b, shadow := Memory.put s.shadow a (s.peek .out a) } := by
  simp only [hostWriteOut, hw, if_true, if_neg (Nat.not_le.2 hlt)]
  split
  · exact .inl rfl
  · exact .inr rfl

end

end Sys2Proof.Machine
end

section
/-! The bytes of `OUT` a reset has left unspecified (70_reset_and_hazards.md R241, R247): which steps put one
in and which take one out. -/

namespace Sys2Proof.Machine

/-- The running command writes exactly the bytes below its output length (R25). -/
theorem CoreRegs.writesOut_iff (c : CoreRegs) (a : Nat) : c.writesOut a = true ↔ a < c.outputLength := by
  unfold CoreRegs.writesOut CoreRegs.outputLength
  split <;> rename_i h
  · simp [h]
  · simp only [Nat.not_lt_zero, iff_false, Bool.and_eq_true, bne_iff_ne, beq_iff_eq]
    exact fun hc => h hc.1

/-- A reset puts in what the abandoned command was to write (R241). -/
theorem resetMove_covers (s : State) (a : Nat) : Doubt.covers (resetMove s).doubt a = true ↔
    s.core.writesOut a = true ∨ Doubt.covers s.doubt a = true := by
  simp [Doubt.covers_addBelow, CoreRegs.writesOut_iff]

/-- The clear step of a host command takes out the bytes below its output length (R247). -/
theorem scClear_covers (s : State) (a : Nat) : Doubt.covers (scClear s).doubt a = true ↔
    Doubt.covers s.doubt a = true ∧ ¬(s.core.hoPhase = .idle ∧ a < s.core.outPos.toNat) := by
  unfold scClear
  split <;> rename_i hh
  · simp [hh, Doubt.covers_dropBelow, and_comm]
  · simp [hh]

/-- A host write takes its own byte of `OUT` out of doubt, unless a running command is to write it. -/
theorem hostWriteByte_doubt (k : MemSpace) (a : Nat) (b : Byte) (s : State) : (hostWriteByte k a b s).doubt =
    if k = .out ∧ s.core.writesOut a = false then Doubt.dropAt a s.doubt else s.doubt := by
  cases k with
  | inp | dset => rfl
  | out =>
    show (hostWriteOut a b s).doubt = _
    cases hw : s.core.writesOut a with
    | false => rw [hostWriteOut_ordinary b hw]; rfl
    | true =>
      rcases Nat.lt_or_ge a s.core.outPos.toNat with hlt | hle
      · rcases hostWriteOut_after b hw hlt with e | e <;> rw [e] <;> rfl
      · rw [hostWriteOut_before b hw hle]; rfl

theorem hostWriteByte_covers (k : MemSpace) (a : Nat) (b : Byte) (s : State) (x : Nat) :
    Doubt.covers (hostWriteByte k a b s).doubt x = true ↔
      Doubt.covers s.doubt x = true ∧ ¬((k = .out ∧ x = a) ∧ s.core.writesOut a = false) := by
  rw [hostWriteByte_doubt]
  split <;> rename_i h
  · simp [h, Doubt.covers_dropAt, and_comm]
  · have : ¬((k = .out ∧ x = a) ∧ s.core.writesOut a = false) := fun hx => h ⟨hx.1.1, hx.2⟩
    simp only [this, not_false_eq_true, and_true]

/-- The sequencer takes bytes out in a clear step only, and puts none in. -/
theorem sequencerMove_doubt {s t : State} (h : SequencerMove s t) :
    t.doubt = s.doubt ∨ s.core.peRun = false ∧ s.core.scPhase = .clear ∧ t = scClear s := by
  cases h with
  | engine => unfold peStep; split <;> exact .inl rfl
  | squeeze u _ _ _ hu | squeezeEnd u _ _ _ hu =>
    obtain ⟨_, _, _, _, _, _, rfl, -⟩ := deliverBytes_update hu
    exact .inl rfl
  | clear hp hs => exact .inr ⟨hp, hs, rfl⟩
  | _ => exact .inl rfl

/-- All a step can do to the bytes in doubt: nothing, or what a clear step, a host write or a reset does. -/
theorem step_doubt {s t : State} (h : step s = .next t) :
    t.doubt = s.doubt ∨
      ((s.stepIsSequencers ∧ s.core.peRun = false ∧ s.core.scPhase = .clear) ∧
        ∀ a, Doubt.covers t.doubt a = true ↔
          Doubt.covers s.doubt a = true ∧ ¬(s.core.hoPhase = .idle ∧ a < s.core.outPos.toNat)) ∨
      (∃ k x b rest, s.host = .memWrite k x b :: rest ∧
        ∀ a, Doubt.covers t.doubt a = true ↔
          Doubt.covers s.doubt a = true ∧ ¬((k = .out ∧ a = x) ∧ s.core.writesOut x = false)) ∨
      ((∃ rest, s.host = .reset :: rest) ∧
        ∀ a, Doubt.covers t.doubt a = true ↔ s.core.writesOut a = true ∨ Doubt.covers s.doubt a = true) := by
  rcases step_sequencer_or_host h with ⟨hseq, moves, -, hm⟩ | ⟨m, rest, hh, ht, hw, hm⟩
  · rcases sequencerMove_doubt hm with hd | ⟨hp, hs, rfl⟩
    · exact .inl hd
    · exact .inr (.inl ⟨⟨hseq, hp, hs⟩, scClear_covers _⟩)
  · rcases hostMove_shape hm ht hw with ⟨c, rfl⟩ | ⟨w, d, o, rfl, -⟩ | ⟨rfl, rfl⟩ | ⟨k, x, b, rfl, -, rfl⟩ |
      ⟨k, size, rfl⟩
    · exact .inl rfl
    · exact .inl rfl
    · exact .inr (.inr (.inr ⟨⟨rest, hh⟩, resetMove_covers _⟩))
    · exact .inr (.inr (.inl ⟨k, x, b, rest, hh, hostWriteByte_covers k x b _⟩))
    · exact .inl (State.setSpace_doubt _ k _)

/-- Settles O3, by what reset, the clear step and a host write do to the bytes in doubt, no other move
changing them. -/
theorem abandonedOutputIsUnspecified : Obligations.AbandonedOutputIsUnspecified := by
  refine ⟨fun s rest => ⟨resetMove { s with host := rest }, rfl, resetMove_covers _⟩,
    fun s hp hs => ⟨scClear s, sequencerStep_of_clear hp hs, scClear_covers s⟩,
    fun s a v rest hp => ⟨_, step_memWrite v hp rest, fun b => ?_⟩, fun s t a h => ?_⟩
  · simpa only [true_and] using hostWriteByte_covers .out a v { s with host := rest } b
  · rw [← Bool.not_eq_true (Doubt.covers t.doubt a), ← Bool.not_eq_true (Doubt.covers s.doubt a)]
    rcases step_doubt h with hd | ⟨⟨hseq, hp, hs⟩, hd⟩ | ⟨k, x, b, rest, hh, hd⟩ | ⟨hh, hd⟩
    · rw [hd]
      exact ⟨fun hin hout => absurd hin hout, fun hout hin => absurd hin hout⟩
    · rw [hd]
      exact ⟨fun hin hout => .inl ⟨hseq, hp, hs, by simpa [hin] using hout⟩, fun hout hin => absurd hin.1 hout⟩
    · rw [hd]
      refine ⟨fun hin hout => .inr ?_, fun hout hin => absurd hin.1 hout⟩
      obtain ⟨⟨rfl, rfl⟩, hx⟩ := not_not.1 fun hx => hout ⟨hin, hx⟩
      exact ⟨⟨b, rest, hh⟩, hx⟩
    · rw [hd]
      exact ⟨fun hin hout => absurd (.inr hin) hout, fun hout hin => ⟨hh, hin.resolve_right hout⟩⟩

end Sys2Proof.Machine
end

section
/-! The bookkeeping of R248 is about a command that runs: an idle CORE has no race pending, no byte of `OUT` with
a second value and no read owed a choice. -/

namespace Sys2Proof.Machine

/-- A step that leaves the CORE idle found it idle and changed nothing, or ends a command (R26). -/
theorem sequencerMove_idle {s t : State} (h : SequencerMove s t) (hi : t.core.busy = false) :
    t = s ∨ ∃ u : State, t = u.finish := by
  obtain ⟨hp', hs', hh'⟩ := (CoreRegs.busy_eq_false _).1 hi
  cases h with
  | engine hp =>
    unfold peStep
    split
    · exact .inr ⟨_, rfl⟩
    · rename_i hlast
      rw [peStep_core] at hp' hs' hh'
      exact absurd ⟨by simpa [hp] using hp', hs', hh'⟩ hlast
  | absorb | pad | squeeze => cases hp'
  | absorbEnd | squeezeEnd | final => cases hs'
  | tile => cases hh'
  | clear =>
    unfold scClear at hh' ⊢
    split
    · exact .inr ⟨_, rfl⟩
    · rename_i hh; rw [if_neg hh] at hh'; exact absurd hh' hh
  | access _ _ _ _ hh => simp only [State.draw_core, accessRegs] at hh'; split at hh' <;> simp [hh] at hh'
  | fold _ _ hh => simp only [hoFold] at hh'; split at hh' <;> simp [hh] at hh'
  | finish => exact .inr ⟨_, rfl⟩
  | idle => exact .inl rfl

/-- No race, second value or owed read is pending: what `racesOnlyWhileBusy` says of an idle CORE. -/
def State.unraced (s : State) : Prop := s.quiet ∧ s.shadow = [] ∧ s.owed = []

theorem State.unraced.of_eq {s t : State} (h : s.unraced) (hr : ∀ k, (t.space k).raced = (s.space k).raced)
    (hs : t.shadow = s.shadow) (ho : t.owed = s.owed) : t.unraced := by
  obtain ⟨hquiet, hshadow, howed⟩ := h
  exact ⟨fun k => (hr k).trans (hquiet k), hs.trans hshadow, ho.trans howed⟩

theorem finish_unraced (s : State) : s.finish.unraced := ⟨fun k => by cases k <;> rfl, rfl, rfl⟩

theorem resetMove_unraced (s : State) : (resetMove s).unraced := ⟨fun k => by cases k <;> rfl, rfl, rfl⟩

theorem sequencerMove_unraced {s t : State} (h : SequencerMove s t) (hs : s.racesOnlyWhileBusy) :
    t.racesOnlyWhileBusy := by
  intro hi
  rcases sequencerMove_idle h hi with rfl | ⟨u, rfl⟩
  · exact hs hi
  · exact finish_unraced u

/-- On an idle CORE a host write notes no race. -/
theorem hostWriteByte_unraced (k : MemSpace) (a : Nat) (b : Byte) {s : State} (hb : s.core.busy = false)
    (hs : s.unraced) : (hostWriteByte k a b s).unraced := by
  rw [hostWriteByte_of_idle k a b hb]
  exact hs.of_eq (fun j => by cases k <;> cases j <;> rfl) (State.setSpace_shadow s k _) (State.setSpace_owed s k _)

theorem provide_unraced (k : MemSpace) (size : Option Nat) {s : State} (hs : s.unraced) :
    (provide k size s).unraced :=
  hs.of_eq (fun j => by cases k <;> cases j <;> rfl) (State.setSpace_shadow s k _) (State.setSpace_owed s k _)

theorem hostStep_unraced {s t : State} (h : HostStep s t) (hs : s.racesOnlyWhileBusy) : t.racesOnlyWhileBusy := by
  have same {c : CoreRegs} (hb : s.core.busy = false) : State.unraced { s with core := c } :=
    State.unraced.of_eq (hs hb) (fun k => by cases k <;> rfl) rfl rfl
  intro hi
  cases h with
  | sequencer _ h => exact sequencerMove_unraced h hs hi
  | waiting _ _ h => exact sequencerMove_unraced h hs hi
  | reset => exact resetMove_unraced s
  | given => exact hs hi
  | drawn => exact hs hi
  | raced a hw =>
    rw [readWhileWritten_core] at hi
    rw [CoreRegs.writesOut_of_idle hi a] at hw
    cases hw
  | command i _ h =>
    rcases exec_cases h with ⟨-, rfl⟩ | ⟨hb, d, rfl, -⟩
    · exact hs hi
    · exact same hb
  | illegal _ h =>
    rcases acceptance_cases h with ⟨-, rfl⟩ | ⟨hb, rfl⟩
    · exact hs hi
    · exact same hb
  | ignored => exact hs hi
  | written r v hb => exact same hb
  | stored k a b =>
    rw [(hostWriteByte_frame k a b s).1] at hi
    exact hostWriteByte_unraced k a b hi (hs hi)
  | provided k size =>
    rw [provide, State.setSpace_core] at hi
    exact provide_unraced k size (hs hi)

/-- Settles O51, by the kinds of step: what leaves the CORE idle found it idle, or drops the bookkeeping. -/
theorem everyStepKeepsRacesToBusy : Obligations.EveryStepKeepsRacesToBusy := by
  intro s t hs h
  obtain ⟨rest, h⟩ := step_cases h
  exact hostStep_unraced h hs

end Sys2Proof.Machine
end

section
/-! The races between the host and a running command, byte by byte (70_reset_and_hazards.md R248): what a host
write under the command does, what the command then reads or writes, and that no other step has a part in it. -/

namespace Sys2Proof.Machine

/-! ## The steps that leave a byte alone -/

@[simp] theorem State.space_withHost (s : State) (moves : List HostMove) (k : MemSpace) :
    State.space { s with host := moves } k = s.space k := by cases k <;> rfl

/-- The byte at an address, and the byte noted beside it, stay. -/
def Space.KeepsByte (m n : Space) (a : Nat) : Prop :=
  Memory.peek n.cells a = Memory.peek m.cells a ∧ Memory.find? n.raced a = Memory.find? m.raced a

/-- `Space.KeepsByte` for one space of the machine. -/
def State.KeepsByte (s t : State) (k : MemSpace) (a : Nat) : Prop := (s.space k).KeepsByte (t.space k) a

theorem State.KeepsByte.of_space {s t : State} {k : MemSpace} (h : t.space k = s.space k) (a : Nat) :
    s.KeepsByte t k a := by
  rw [State.KeepsByte, h]
  exact ⟨rfl, rfl⟩

/-- The sequencer changes no byte of memory but those its squeeze step reaches (R65, R135). -/
theorem sequencerMove_peek_of_not_reached {s t : State} (h : SequencerMove s t) {k : MemSpace} {a : Nat}
    (hr : k = .out → ¬s.core.reaches .out a) : t.peek k a = s.peek k a := by
  cases sequencerMove_effect h with
  | registers => cases k <;> rfl
  | ends => cases k <;> rfl
  | squeeze u c hp hs hu =>
    rw [State.peek_draw, State.peek_withCore]
    cases k with
    | out => exact (deliverBytes_other hu fun hd hx => hr rfl ⟨hp, hd, hs, by simpa using hx⟩).1
    | inp | dset => rw [(deliverBytes_some hu).1]; rfl

/-- While the command runs the sequencer leaves every note of a race as it is. -/
theorem sequencerMove_raced {s t : State} (h : SequencerMove s t) (hb : t.core.busy = true) (k : MemSpace) :
    (t.space k).raced = (s.space k).raced := by
  cases sequencerMove_effect h with
  | registers => cases k <;> rfl
  | ends c d hidle => exact absurd (hidle.symm.trans hb) (by decide)
  | squeeze u c _ _ hu =>
    have e := (deliverBytes_some hu).1
    cases k <;> rw [e] <;> rfl

/-- The four things a host write can do to the memory it goes to. -/
inductive Space.WrittenAt (m : Space) (a : Nat) (b : Byte) : Space → Prop where
  | stored : m.WrittenAt a b (m.write a b)
  | raced : m.WrittenAt a b (m.writeRaced a b)
  | ahead : m.WrittenAt a b (m.writeAhead a b)
  | lost : m.WrittenAt a b m

theorem Space.WrittenAt.size {m n : Space} {a : Nat} {b : Byte} (h : m.WrittenAt a b n) : n.size = m.size := by
  cases h <;> rfl

theorem Space.WrittenAt.keepsByte {m n : Space} {x a : Nat} {b : Byte} (h : m.WrittenAt x b n) (ha : a ≠ x) :
    m.KeepsByte n a := by
  have byte := Memory.peek_poke_other (m := m.cells) b ha
  cases h with
  | stored => exact ⟨byte, rfl⟩
  | raced => exact ⟨byte, Memory.find?_note_other _ _ _ _ ha⟩
  | ahead => exact ⟨byte, Memory.find?_put_other _ _ _ _ ha⟩
  | lost => exact ⟨rfl, rfl⟩

/-- A host write goes to one memory. -/
theorem hostWriteByte_space (k : MemSpace) (a : Nat) (b : Byte) (s : State) :
    (s.space k).WrittenAt a b ((hostWriteByte k a b s).space k) ∧
      ∀ j, j ≠ k → (hostWriteByte k a b s).space j = s.space j := by
  have only {t : State} (hi : t.inMem = s.inMem) (hd : t.dset = s.dset) (j : MemSpace) (hj : j ≠ .out) :
      t.space j = s.space j := by
    cases j with
    | inp => exact hi
    | out => exact absurd rfl hj
    | dset => exact hd
  cases k with
  | inp =>
    constructor
    · simp only [hostWriteByte, State.space_inp]
      split
      · exact .raced
      · exact .stored
    · intro j hj
      cases j with
      | inp => exact absurd rfl hj
      | out | dset => rfl
  | dset =>
    constructor
    · simp only [hostWriteByte, State.space_dset]
      split
      · exact .raced
      · exact .stored
    · intro j hj
      cases j with
      | dset => exact absurd rfl hj
      | inp | out => rfl
  | out =>
    show s.outMem.WrittenAt a b (hostWriteOut a b s).outMem ∧
      ∀ j, j ≠ .out → (hostWriteOut a b s).space j = s.space j
    cases hw : s.core.writesOut a with
    | false => rw [hostWriteOut_ordinary b hw]; exact ⟨.stored, only rfl rfl⟩
    | true =>
      rcases Nat.lt_or_ge a s.core.outPos.toNat with hlt | hle
      · rcases hostWriteOut_after b hw hlt with e | e <;> rw [e]
        · exact ⟨.lost, only rfl rfl⟩
        · exact ⟨.stored, only rfl rfl⟩
      · rw [hostWriteOut_before b hw hle]; exact ⟨.ahead, only rfl rfl⟩

/-- A host write leaves every other byte, of its own memory or of another, as it is. -/
theorem hostWriteByte_keepsByte {s : State} {k j : MemSpace} {x a : Nat} (b : Byte) (h : j ≠ k ∨ a ≠ x) :
    s.KeepsByte (hostWriteByte k x b s) j a := by
  obtain ⟨written, other⟩ := hostWriteByte_space k x b s
  by_cases hj : j = k
  · rw [State.KeepsByte, hj]
    exact written.keepsByte (h.resolve_left (absurd hj))
  · exact .of_space (other j hj) a

theorem hostWriteByte_provides (k : MemSpace) (x : Nat) (b : Byte) (s : State) (j : MemSpace) (a : Nat) :
    (hostWriteByte k x b s).provides j a = s.provides j a := by
  obtain ⟨written, other⟩ := hostWriteByte_space k x b s
  have size : ((hostWriteByte k x b s).space j).size = (s.space j).size := by
    by_cases hj : j = k
    · rw [hj]; exact written.size
    · rw [other j hj]
  rw [State.provides, State.provides, size]

theorem hostMove_keepsByte {m : HostMove} {s t : State} (h : hostMove m s = .next t) (ht : m ≠ .tick)
    (hw : m = .wait → s.core.busy = false) (hb : t.core.busy = true) {k : MemSpace} {a : Nat}
    (hm : ∀ v, m ≠ .memWrite k a v) : s.KeepsByte t k a := by
  rcases hostMove_shape h ht hw with ⟨c, rfl⟩ | ⟨w, d, o, rfl, -⟩ | ⟨-, rfl⟩ | ⟨j, x, b, rfl, -, rfl⟩ |
    ⟨j, size, rfl⟩
  · exact .of_space (by cases k <;> rfl) a
  · exact .of_space (by cases k <;> rfl) a
  · exact absurd hb (show ¬CoreRegs.reset.busy = true by decide)
  · refine hostWriteByte_keepsByte b (not_and_or.1 ?_)
    rintro ⟨rfl, rfl⟩
    exact hm b rfl
  · cases j <;> cases k <;> exact ⟨rfl, rfl⟩

/-- While the command runs a byte changes, or its note does, only where the host writes it or a squeeze step
reaches it. -/
theorem step_keepsByte {s t : State} {k : MemSpace} {a : Nat} (h : step s = .next t) (hb : t.core.busy = true)
    (hw : ¬s.hostWritesNext k a) (hr : k = .out → ¬(s.stepIsSequencers ∧ s.core.reaches .out a)) :
    s.KeepsByte t k a := by
  rcases step_sequencer_or_host h with ⟨hseq, moves, -, hmove⟩ | ⟨m, rest, hh, ht, hwait, hmove⟩
  · have hpeek := sequencerMove_peek_of_not_reached (k := k) (a := a) hmove fun hk hx => hr hk ⟨hseq, hx⟩
    rw [State.peek_withHost] at hpeek
    refine ⟨hpeek, ?_⟩
    rw [sequencerMove_raced hmove hb k]
    cases k <;> rfl
  · have kept := hostMove_keepsByte hmove ht hwait hb fun v hv => hw ⟨v, rest, by rw [hh, hv]⟩
    cases k <;> exact kept

/-! ## A byte of `IN` or `DSET` written under its reader -/

/-- The running command reads the space. -/
def CoreRegs.readsSpace (c : CoreRegs) (k : MemSpace) : Prop :=
  (k = .inp ∧ c.readsIn = true) ∨ (k = .dset ∧ c.readsDset = true)

theorem hostWriteByte_raced {s : State} {k : MemSpace} (h : s.core.readsSpace k) (a : Nat) (b : Byte) :
    hostWriteByte k a b s = s.setSpace k ((s.space k).writeRaced a b) := by
  rcases h with ⟨rfl, h⟩ | ⟨rfl, h⟩ <;> simp [hostWriteByte, h, State.setSpace]

/-- Under a reader the new byte is stored and the byte before the first such write kept, and nothing else
changes (R248). -/
theorem hostWriteByte_underReader {s : State} {k : MemSpace} (h : s.core.readsSpace k) (hm : s.memoryCanonical)
    (a : Nat) (b : Byte) :
    (hostWriteByte k a b s).core = s.core ∧ (hostWriteByte k a b s).host = s.host ∧
      (hostWriteByte k a b s).draws = s.draws ∧ (hostWriteByte k a b s).peek k a = b ∧
      Memory.find? ((hostWriteByte k a b s).space k).raced a =
        some ((Memory.find? (s.space k).raced a).getD (s.peek k a)) ∧
      ∀ j x, j ≠ k ∨ x ≠ a →
        (hostWriteByte k a b s).peek j x = s.peek j x ∧
          (hostWriteByte k a b s).provides j x = s.provides j x ∧
          Memory.find? ((hostWriteByte k a b s).space j).raced x = Memory.find? (s.space j).raced x := by
  obtain ⟨hcore, hhost, -, -⟩ := hostWriteByte_frame k a b s
  refine ⟨hcore, hhost, ?_, ?_, ?_, fun j x hne => ?_⟩
  · rw [hostWriteByte_raced h, State.setSpace_draws]
  · rw [State.peek, hostWriteByte_raced h, State.space_setSpace]
    exact Memory.peek_poke_self b (hm k).1
  · rw [hostWriteByte_raced h, State.space_setSpace]
    exact Memory.find?_note_self _ _ _
  · obtain ⟨hbyte, hraced⟩ := hostWriteByte_keepsByte (s := s) b hne
    exact ⟨hbyte, hostWriteByte_provides k a b s j x, hraced⟩

/-- A read by the CORE gives the byte there or the one kept (R248). -/
theorem coreRead_old_or_new {s : State} {k : MemSpace} {a : Nat} (hp : s.provides k a = true) :
    s.coreRead k a = some (s.peek k a) ∨
      ∃ old, Memory.find? (s.space k).raced a = some old ∧ s.coreRead k a = some old := by
  cases hr : Memory.find? (s.space k).raced a with
  | none => exact .inl (coreRead_of_notRaced hp hr)
  | some old =>
    simp only [State.coreRead, hp, hr, if_true]
    split
    · exact .inr ⟨old, rfl, rfl⟩
    · exact .inl rfl

/-- A step that reads is an absorb step of a full block, a pad step or an access step. -/
theorem CoreRegs.reaches_of_reading {c : CoreRegs} {k : MemSpace} {a : Nat} (hk : k ≠ .out)
    (h : c.reaches k a) :
    c.peRun = false ∧ (c.scPhase = .absorb ∧ c.rRate.toNat ≤ c.rem.toNat ∨ c.scPhase = .pad ∨
      c.scPhase = .idle ∧ c.hoPhase = .access) := by
  cases k with
  | inp =>
    obtain ⟨hp, -, -, ⟨hs, hr, -⟩ | ⟨hs, -⟩⟩ := h
    · exact ⟨hp, .inl ⟨hs, hr⟩⟩
    · exact ⟨hp, .inr (.inl hs)⟩
  | out => exact absurd rfl hk
  | dset =>
    obtain ⟨hp, hs, hh, -⟩ := h
    exact ⟨hp, .inr (.inr ⟨hs, hh⟩)⟩

/-- A step that reads uses its draw up. -/
theorem sequencerMove_draws {s t : State} (h : SequencerMove s t) {k : MemSpace} {a : Nat} (hk : k ≠ .out)
    (hr : s.core.reaches k a) : t.draws = s.draws + 1 := by
  obtain ⟨hp, hread⟩ := CoreRegs.reaches_of_reading hk hr
  cases h with
  | absorb | pad | access => rfl
  | squeeze u _ hs | squeezeEnd u _ hs => simp [hs] at hread
  | engine hp' => rw [hp] at hp'; cases hp'
  | absorbEnd _ hs hlt => simp [hs] at hread; omega
  | clear _ hs => simp [hs] at hread
  | tile _ hs hh | fold _ hs hh | final _ hs hh | finish _ hs hh => simp [hs, hh] at hread
  | idle hb =>
    obtain ⟨-, hs, hh⟩ := (CoreRegs.busy_eq_false _).1 hb
    simp [hs, hh] at hread

/-- Settles O59, from what the host's write, the CORE's read and every other step do to the byte. -/
theorem racedReadIsOldOrNew : Obligations.RacedReadIsOldOrNew := by
  refine ⟨fun s k a v rest hm hp hreads => ⟨_, step_memWrite v hp rest, ?_⟩,
    fun s k a hp => coreRead_old_or_new hp,
    fun s t k a hk h hb hw => step_keepsByte h hb hw fun ho => absurd ho hk,
    fun s t k a hk hr h => sequencerMove_draws (sequencerStep_cases h) hk hr⟩
  have hm' := (s.keepsCanonical_withHost rest).memory hm
  simpa only [State.peek_withHost, State.provides_withHost, State.space_withHost] using
    hostWriteByte_underReader (s := { s with host := rest }) hreads hm' a v

end Sys2Proof.Machine
end

section
/-! A byte of `OUT` that the host writes while the command that writes it runs (41_sponge.md R135,
70_reset_and_hazards.md R248): the host's write before the command's, the command's, and the host's after it. -/

namespace Sys2Proof.Machine

/-- The command's write leaves the byte there or stores its own, and changes no other byte. -/
theorem writeOut_byte {s t : State} {a : Nat} {b : Byte} (h : s.writeOut a b = some t) (hm : s.memoryCanonical) :
    (t.peek .out a = s.peek .out a ∨ t.peek .out a = b) ∧
      ∀ j x, j ≠ .out ∨ x ≠ a → t.peek j x = s.peek j x := by
  obtain ⟨-, e, hcells⟩ := writeOut_some h
  have out (x : Nat) : t.peek .out x = s.peek .out x ∨ t.peek .out x = if x = a then b else s.peek .out x := by
    rw [State.peek, State.space_out, hcells]
    split
    · exact .inl rfl
    · exact .inr (Memory.peek_poke b (hm .out).1 x)
  refine ⟨by simpa using out a, fun j x hne => ?_⟩
  cases j with
  | inp | dset => rw [e]; rfl
  | out => simpa [hne.resolve_left (by simp)] using out x

/-- The host's write before the command's, and then the command's of any byte: the byte is the one or the
other in the end. -/
theorem hostWriteByte_thenCommand {s : State} {a : Nat} (v w : Byte) (hm : s.memoryCanonical)
    (hw : s.core.writesOut a = true) (hle : s.core.outPos.toNat ≤ a) (hp : s.provides .out a = true) :
    (hostWriteByte .out a v s).peek .out a = v ∧
      Memory.find? (hostWriteByte .out a v s).outMem.raced a = some v ∧
      ∃ t, (hostWriteByte .out a v s).writeOut a w = some t ∧ (t.peek .out a = v ∨ t.peek .out a = w) ∧
        ∀ j b, j ≠ .out ∨ b ≠ a → t.peek j b = s.peek j b := by
  have e : hostWriteByte .out a v s = { s with outMem := s.outMem.writeAhead a v } := hostWriteOut_before v hw hle
  have hnew : (hostWriteByte .out a v s).peek .out a = v := by
    rw [e]; exact Memory.peek_poke_self v (hm .out).1
  refine ⟨hnew, by rw [e]; exact Memory.find?_put_self _ _ _, ?_⟩
  cases hwrite : (hostWriteByte .out a v s).writeOut a w with
  | none =>
    have missing := writeOut_none hwrite
    rw [hostWriteByte_provides, hp] at missing
    cases missing
  | some t =>
    obtain ⟨hbyte, hother⟩ := writeOut_byte hwrite ((hostWriteByte_keepsCanonical v hp).memory hm)
    rw [hnew] at hbyte
    exact ⟨t, rfl, hbyte, fun j b hne => (hother j b hne).trans (hostWriteByte_keepsByte v hne).1⟩

/-- A squeeze step stores the state's byte and keeps the one before, or, where a host write is noted, the other
way round (R135, R248). -/
theorem sequencerMove_chooses {s t : State} (h : SequencerMove s t) (hm : s.memoryCanonical) {a : Nat}
    (hr : s.core.reaches .out a) :
    (t.peek .out a = laneByte s.core.lanes (a - s.core.outPos.toNat) ∧
        Memory.find? t.shadow a = some (s.peek .out a)) ∨
      (Memory.find? s.outMem.raced a ≠ none ∧ t.peek .out a = s.peek .out a ∧
        Memory.find? t.shadow a = some (laneByte s.core.lanes (a - s.core.outPos.toNat))) := by
  by_cases hraced : Memory.find? s.outMem.raced a = none
  · exact .inl ((sequencerMove_writes h hr).2 hm hraced)
  · obtain ⟨hp, hd, hs, hlo, hhi⟩ := hr
    cases sequencerMove_effect h with
    | registers c d hns => exact absurd hs (hns hp)
    | ends c d _ hns => exact absurd hs (hns hp)
    | squeeze u c _ _ hu =>
      obtain ⟨hpeek, hshadow⟩ := deliverBytes_out hu hd (hm .out).1 a
      rw [laneBytes_length, laneBytes_getD _ _ _ (by omega)] at hpeek hshadow
      rw [State.peek_draw, State.peek_withCore, State.draw_shadow, hpeek]
      simp only [hshadow, hlo, hhi, and_self, true_and, if_true]
      cases s.hostsByteStays a with
      | false => exact .inl ⟨rfl, rfl⟩
      | true => exact .inr ⟨hraced, rfl, rfl⟩

/-- The host's write after the command's: the byte is at once the host's or the one before, and the other is
kept. -/
theorem hostWriteByte_afterCommand {s : State} {a : Nat} (v : Byte) (hm : s.memoryCanonical)
    (hw : s.core.writesOut a = true) (hlt : a < s.core.outPos.toNat) :
    ((hostWriteByte .out a v s).peek .out a = v ∧
        Memory.find? (hostWriteByte .out a v s).shadow a = some (s.peek .out a)) ∨
      ((hostWriteByte .out a v s).peek .out a = s.peek .out a ∧
        Memory.find? (hostWriteByte .out a v s).shadow a = some v) := by
  rcases hostWriteOut_after v hw hlt with e | e
  · refine .inr ?_
    rw [hostWriteByte, e]
    exact ⟨rfl, Memory.find?_put_self _ _ _⟩
  · refine .inl ?_
    rw [hostWriteByte, e]
    exact ⟨Memory.peek_poke_self v (hm .out).1, Memory.find?_put_self _ _ _⟩

/-- Settles O60, clause by clause from the two writes in either order and from what no other step changes. -/
theorem racedOutputIsHostsOrCommands : Obligations.RacedOutputIsHostsOrCommands := by
  refine ⟨fun s a v w rest hm hw hle hp => ?_, fun s t a hm h => ?_, fun s t a h hb hnw hnr => ?_,
    fun s a v rest hm hw hlt hp => ?_⟩
  · obtain ⟨hcore, hhost, -, -⟩ := hostWriteByte_frame .out a v { s with host := rest }
    obtain ⟨hnew, hnoted, t, hwrite, hbyte, hother⟩ := hostWriteByte_thenCommand (s := { s with host := rest }) v w
      ((s.keepsCanonical_withHost rest).memory hm) hw hle ((s.provides_withHost rest .out a).trans hp)
    refine ⟨_, t, step_memWrite v hp rest, hcore, hhost, hnew, hnoted, fun j b hne => ?_, hwrite, hbyte,
      fun j b hne => (hother j b hne).trans (s.peek_withHost rest j b)⟩
    have kept := hostWriteByte_keepsByte (s := { s with host := rest }) v hne
    rwa [State.KeepsByte, State.space_withHost] at kept
  · have hmove := sequencerStep_cases h
    exact ⟨sequencerMove_chooses hmove hm, fun hr => sequencerMove_peek_of_not_reached hmove fun _ => hr⟩
  · exact step_keepsByte h hb hnw fun _ => hnr
  · obtain ⟨hcore, hhost, -, -⟩ := hostWriteByte_frame .out a v { s with host := rest }
    have hbyte := hostWriteByte_afterCommand (s := { s with host := rest }) v
      ((s.keepsCanonical_withHost rest).memory hm) hw hlt
    rw [State.peek_withHost] at hbyte
    exact ⟨_, step_memWrite v hp rest, hcore, hhost, hbyte, fun j b hne =>
      (hostWriteByte_keepsByte v hne).1.trans (s.peek_withHost rest j b)⟩

end Sys2Proof.Machine
end
